-- ==== Sys2Proof/Word.lean ====
section
/-! DEFINITION. The word types of the core (00_scope R13, R14; 10_state R17). -/

namespace Sys2Proof

/-- A byte, bits numbered 7 (most significant) down to 0 (R14). -/
abbrev Byte := BitVec 8

/-- A 16-bit register whose bits the rules shift, mask or combine (`outgoing_bits`, `index_acc`, `count_acc`). -/
abbrev Reg16 := BitVec 16

/-- The 32-bit configuration word of NEW (R79). -/
abbrev CfgWord := BitVec 32

end Sys2Proof
end

