-- ==== Sys2Proof/Config.lean ====
section
/-! DEFINITION. What is fixed for the machine, and the free values the spec leaves open (log 3). -/

namespace Sys2Proof

/-- The largest SINK length and POLL capacity (R78). -/
def Config.maxOperand : Nat := 65535

/-- The window exponent at which spec/opcode_table.json shows the BREF pattern (log 9). -/
def Config.tableW : Nat := 8

/-- The lookahead exponent at which spec/opcode_table.json shows the BREF pattern (log 9). -/
def Config.tableL : Nat := 4

/-- What `enc.W` holds after a refused ENC.NEW: unspecified (R18; 93 U2). Free value, log 3. -/
opaque Config.freeEncW : Nat → BitVec 4

/-- What `enc.L` holds after a refused ENC.NEW: unspecified (R18; 93 U2). Free value, log 3. -/
opaque Config.freeEncL : Nat → BitVec 4

/-- What `enc.INDEXED` holds after a refused ENC.NEW: unspecified (R18; 93 U2). Free value, log 3. -/
opaque Config.freeEncIndexed : Nat → Bool

/-- What `dec.W` holds after a refused DEC.NEW: unspecified (R19; 93 U2). Free value, log 3. -/
opaque Config.freeDecW : Nat → BitVec 4

/-- What `dec.L` holds after a refused DEC.NEW: unspecified (R19; 93 U2). Free value, log 3. -/
opaque Config.freeDecL : Nat → BitVec 4

/-- What `dec.IBS` holds after a refused DEC.NEW: unspecified (R19; 93 U2). Free value, log 3. -/
opaque Config.freeDecIbs : Nat → BitVec 16

end Sys2Proof
end

