-- ==== Sys2Proof/Syntax.lean ====
section
/-! DEFINITION. The instructions: one constructor per row of spec/opcode_table.json (30_encoding), and the form in
which the host presents a command. -/

namespace Sys2Proof

/-- The instructions of the core: the eight host commands (R76, R78) and the two wire tokens (R66, R67). -/
inductive Instr where
  /-- ENC.NEW, word 0x00, operand the configuration word (R96). -/
  | encNew (cfg : CfgWord)
  /-- ENC.SINK, word 0x01, operand the raw bytes (R97). -/
  | encSink (src : List Byte)
  /-- ENC.POLL, word 0x02, operand the output capacity (R98). -/
  | encPoll (capacity : Nat)
  /-- ENC.FINISH, word 0x03 (R99). -/
  | encFinish
  /-- DEC.NEW, word 0x80, operand the configuration word (R129). -/
  | decNew (cfg : CfgWord)
  /-- DEC.SINK, word 0x81, operand the compressed bytes (R130). -/
  | decSink (src : List Byte)
  /-- DEC.POLL, word 0x82, operand the output capacity (R131). -/
  | decPoll (capacity : Nat)
  /-- DEC.FINISH, word 0x83 (R132). -/
  | decFinish
  /-- LIT, the literal token: tag 1, then the byte (R66). -/
  | lit (b : Byte)
  /-- BREF, the backref token: tag 0, then index = distance − 1 and count = length − 2 (R67 to R69). -/
  | bref (index count : Nat)
deriving DecidableEq, Repr

/-- One command as the host presents it: the 8-bit command word (R75) and the operands (R78). A command reads only
the operand it takes, and the others are ignored (log 5). -/
structure Request where
  word     : Byte
  cfg      : CfgWord
  src      : List Byte
  capacity : Nat
deriving DecidableEq, Repr

/-- The encoded form of an instruction: a request for a command, the stream bits (first bit first) for a token. -/
inductive Encoded where
  | command (r : Request)
  | token (bits : List Bool)
deriving DecidableEq, Repr

/-- Why a decoder rejects. -/
inductive Reject where
  /-- A command word outside the eight legal ones (R77, R152). -/
  | illegalCommand (word : Byte)
  /-- The bits are no whole token: at most one incomplete token (R74). -/
  | incompleteToken
  /-- One whole token with further bits after it, where exactly one token is asked for. -/
  | trailingBits
deriving DecidableEq, Repr

end Sys2Proof
end

