-- ==== Sys2Proof/WellFormed.lean ====
section
/-! DEFINITION. Which instructions have an encoding: the operand ranges of R78 and the token field widths of R66, R67. -/

namespace Sys2Proof

/-- The operand is in the range R78 gives it. The tokens have no operand range of their own here. -/
def Instr.operandInRange : Instr → Bool
  | .encNew _ => true
  | .encSink src => decide (src.length ≤ Config.maxOperand)
  | .encPoll capacity => decide (capacity ≤ Config.maxOperand)
  | .encFinish => true
  | .decNew _ => true
  | .decSink src => decide (src.length ≤ Config.maxOperand)
  | .decPoll capacity => decide (capacity ≤ Config.maxOperand)
  | .decFinish => true
  | .lit _ => true
  | .bref _ _ => true

/-- The instruction is well formed under the parameters `W` and `L`: operands in range (R78), the index a `W`-bit and
the count an `L`-bit unsigned field (R67). -/
def Instr.wellFormed (W L : Nat) : Instr → Bool
  | .encNew _ => true
  | .encSink src => decide (src.length ≤ Config.maxOperand)
  | .encPoll capacity => decide (capacity ≤ Config.maxOperand)
  | .encFinish => true
  | .decNew _ => true
  | .decSink src => decide (src.length ≤ Config.maxOperand)
  | .decPoll capacity => decide (capacity ≤ Config.maxOperand)
  | .decFinish => true
  | .lit _ => true
  | .bref index count => decide (index < 2 ^ W) && decide (count < 2 ^ L)

end Sys2Proof
end

