-- ==== Sys2Proof/Decode.lean ====
section
/-! DEFINITION. The decoders and, after them, the encoder: command words (R75, R76), wire tokens (R65 to R73), and the
bit-string helpers they use (R14, R49). -/

namespace Sys2Proof

/-- The `w` low bits of `v` in stream order: bit `w − 1` first, bit 0 last (R14). -/
def fieldBits : Nat → Nat → List Bool
  | 0, _ => []
  | w + 1, v => v.testBit w :: fieldBits w v

/-- The unsigned number a bit string in stream order stands for (R14). -/
def bitsValue (bits : List Bool) : Nat :=
  bits.foldl (fun v b => 2 * v + b.toNat) 0

/-- The eight bits of a byte in stream order, bit 7 first (R49). -/
def byteBits (b : Byte) : List Bool := fieldBits 8 b.toNat

/-- A command as the host presents it (R76): `word & 0xFF` selects one of eight; any other word is illegal (R77). -/
def decodeCommand (r : Request) : Except Reject Instr :=
  match r.word.toNat with
  | 0x00 => .ok (.encNew r.cfg)
  | 0x01 => .ok (.encSink r.src)
  | 0x02 => .ok (.encPoll r.capacity)
  | 0x03 => .ok .encFinish
  | 0x80 => .ok (.decNew r.cfg)
  | 0x81 => .ok (.decSink r.src)
  | 0x82 => .ok (.decPoll r.capacity)
  | 0x83 => .ok .decFinish
  | _ => .error (.illegalCommand r.word)

/-- The first wire token of a bit string, and the bits after it: tag 1 means 9 bits, tag 0 means `1 + W + L` bits (R73). -/
def decodeToken (W L : Nat) : List Bool → Except Reject (Instr × List Bool)
  | [] => .error .incompleteToken
  | true :: rest =>
    if rest.length < 8 then .error .incompleteToken
    else .ok (.lit (BitVec.ofNat 8 (bitsValue (rest.take 8))), rest.drop 8)
  | false :: rest =>
    if rest.length < W + L then .error .incompleteToken
    else .ok (.bref (bitsValue (rest.take W)) (bitsValue ((rest.drop W).take L)), rest.drop (W + L))

/-- The decoder of an encoded instruction. A token's bits must be exactly one token. -/
def decode (W L : Nat) : Encoded → Except Reject Instr
  | .command r => decodeCommand r
  | .token bits =>
    match decodeToken W L bits with
    | .ok (i, []) => .ok i
    | .ok (_, _ :: _) => .error .trailingBits
    | .error e => .error e

/-- Stream byte `k` of the number `w`: bits `8k + 7` down to `8k` (log 9). -/
def tableByte (w k : Nat) : Byte := BitVec.ofNat 8 (w >>> (8 * k))

/-- The two bytes in which the table's token rows (9 and 13 bits) lie, in stream order (log 9). -/
def tableTokenBytes (w : Nat) : List Byte := [tableByte w 0, tableByte w 1]

/-- The request that the command word `w` with zero operands makes. -/
def tableRequest (w : Nat) : Request :=
  { word := tableByte w 0, cfg := 0, src := [], capacity := 0 }

/-- The instruction this decoder reads from a table word: a command word where the row has at most 8 bits, with every
operand bit zero; else a wire token at the table's `W = 8`, `L = 4` (log 9). -/
def decodeTableWord (nbits w : Nat) : Option Instr :=
  if nbits ≤ 8 then
    (decodeCommand (tableRequest w)).toOption
  else
    ((decodeToken Config.tableW Config.tableL ((tableTokenBytes w).flatMap byteBits)).map Prod.fst).toOption

/-- The bits of `LIT(b) = '1' ++ b[7:0]` (R66). -/
def litBits (b : Byte) : List Bool := true :: byteBits b

/-- The bits of `BREF(i, c) = '0' ++ i[W−1:0] ++ c[L−1:0]` (R67). -/
def brefBits (W L index count : Nat) : List Bool := false :: (fieldBits W index ++ fieldBits L count)

/-- A command word with the other operands zero. -/
def Request.bare (word : Byte) : Request := { word := word, cfg := 0, src := [], capacity := 0 }

/-- The encoder, from the tables of R66, R67 and R76. -/
def encode (W L : Nat) : Instr → Encoded
  | .encNew cfg => .command { Request.bare 0x00 with cfg := cfg }
  | .encSink src => .command { Request.bare 0x01 with src := src }
  | .encPoll capacity => .command { Request.bare 0x02 with capacity := capacity }
  | .encFinish => .command (Request.bare 0x03)
  | .decNew cfg => .command { Request.bare 0x80 with cfg := cfg }
  | .decSink src => .command { Request.bare 0x81 with src := src }
  | .decPoll capacity => .command { Request.bare 0x82 with capacity := capacity }
  | .decFinish => .command (Request.bare 0x83)
  | .lit b => .token (litBits b)
  | .bref index count => .token (brefBits W L index count)

end Sys2Proof
end

