-- ==== Sys2Proof/Machine/State.lean ====
section
/-! DEFINITION. The machine's state (10_state, 20_memory, 30_encoding section 2): plain data, every register and memory of
both units, the pending requests of the host and the last response. Values at power-on: log 1, log 2. -/

namespace Sys2Proof.Machine

/-- A memory: the entries that differ from what an unlisted index reads as, index rising (log 2). -/
abbrev Memory (α : Type) := List (Nat × α)

/-- A byte memory (`BUF`, `WIN`, `INB`; R46). An unlisted index reads as 0x00. -/
abbrev ByteMemory := Memory Byte

/-- An index memory (`HEAD`, `NEXT`; R121): a position, or NONE. An unlisted index reads as NONE. -/
abbrev LinkMemory := Memory (Option Nat)

/-- The states of ENC's FSM (R21). -/
inductive EncState where
  | notFull | filled | search | yieldTagBit | yieldLiteral
  | yieldBackRefIndex | yieldBackRefLength | saveBacklog | flushBits | done
deriving DecidableEq, Repr

/-- The states of DEC's FSM (R31). -/
inductive DecState where
  | tagBit | yieldLiteral | backrefIndexMSB | backrefIndexLSB
  | backrefCountMSB | backrefCountLSB | yieldBackref
deriving DecidableEq, Repr

/-- The encoder unit (10_state section 2 and 3). Counters and positions are 16-bit unsigned registers (R17), typed by
their number; their ranges are `Enc.inRange`. -/
structure Enc where
  cfgValid          : Bool
  W                 : Nat
  L                 : Nat
  indexed           : Bool
  fault             : Bool
  state             : EncState
  finishing         : Bool
  inputSize         : Nat
  matchScanIndex    : Nat
  matchLength       : Nat
  matchPos          : Nat
  outgoingBits      : Reg16
  outgoingBitsCount : Nat
  currentByte       : Byte
  bitIndex          : Nat
  buf               : ByteMemory
  head              : LinkMemory
  next              : LinkMemory
  /-- The model's own: how many free values this unit has drawn (log 3). -/
  draws             : Nat
deriving DecidableEq, Repr

/-- The decoder unit (10_state section 2 and 4). -/
structure Dec where
  cfgValid     : Bool
  W            : Nat
  L            : Nat
  ibs          : Nat
  fault        : Bool
  state        : DecState
  doneReported : Bool
  inputSize    : Nat
  inputIndex   : Nat
  headIndex    : Nat
  indexAcc     : Reg16
  distance     : Nat
  countAcc     : Reg16
  outputCount  : Nat
  outputIndex  : Nat
  currentByte  : Byte
  bitIndex     : Nat
  win          : ByteMemory
  inb          : ByteMemory
  /-- The model's own: how many free values this unit has drawn (log 3). -/
  draws        : Nat
deriving DecidableEq, Repr

/-- The status codes (R81). -/
inductive Status where
  | ok | full | empty | more | done | misuse | invalidParameter | illegalCommand
deriving DecidableEq, Repr

/-- The response of a command (R80). -/
structure Response where
  status : Status
  n      : Nat
  out    : List Byte
deriving DecidableEq, Repr

/-- What the outside world has handed to the core. -/
inductive Input where
  /-- A command of the host (30_encoding section 2). -/
  | command (r : Request)
  /-- DEC executes the one wire token at its input cursor: the token view of what DEC.POLL does (log 7). -/
  | token
deriving DecidableEq, Repr

/-- The machine: the two units (R12), the host's pending inputs, oldest first (log 4), and the last response (log 16). -/
structure State where
  enc      : Enc
  dec      : Dec
  inputs   : List Input
  response : Option Response
deriving DecidableEq, Repr

/-- The two units (R1). -/
inductive UnitName where
  | enc | dec
deriving DecidableEq, Repr

/-- The internal memories (R46). -/
inductive MemoryName where
  | buf | head | next | win | inb
deriving DecidableEq, Repr

/-- Why the machine stops. Every one is a case that the spec says never happens under its rules, so a stop is safe. -/
inductive Fault where
  /-- A micro-step would leave a register of the unit outside its range (R17; 93 RSV4). Raised by `Enc.commit`,
  `Dec.commit`, and the three states that subtract: YieldBackRefIndex, YieldBackRefLength, YieldBackref. Safe: log 11. -/
  | registerRange (u : UnitName)
  /-- A memory index outside its memory (R15; 93 RSV5). Raised by the search, the walk along `NEXT`, the index build,
  ENC's YieldLiteral, the pull primitive, DEC's two emitting states and DEC.FINISH. Safe: log 13. -/
  | memoryIndex (m : MemoryName)
  /-- A POLL, or one token, ran more micro-steps than the rules allow (R116, R149). Raised by the POLL loop. Safe: log 12. -/
  | microStepBound (u : UnitName)
deriving DecidableEq, Repr

/-- Why the machine gives an instruction no meaning. -/
inductive Refusal where
  /-- Raised by exec's arm of an instruction that has no meaning yet. Safe. -/
  | notModelled (mnemonic : String)
  /-- A command operand outside the range of R78, which the command interface cannot carry (92 D3). Raised by `step`.
  Safe: log 6. -/
  | operandOutOfRange
  /-- A token is executed while DEC's FSM is inside another token. Raised by the token rows only. Safe: log 8. -/
  | notAtTokenBoundary
deriving DecidableEq, Repr

/-- ENC at power-on (R171): unconfigured; every other register is unspecified there and named zero (log 1, log 2). -/
def Enc.powerOn : Enc where
  cfgValid := false
  W := 0
  L := 0
  indexed := false
  fault := false
  state := .notFull
  finishing := false
  inputSize := 0
  matchScanIndex := 0
  matchLength := 0
  matchPos := 0
  outgoingBits := 0
  outgoingBitsCount := 0
  currentByte := 0
  bitIndex := 0
  buf := []
  head := []
  next := []
  draws := 0

/-- DEC at power-on (R171): unconfigured; every other register is unspecified there and named zero (log 1, log 2). -/
def Dec.powerOn : Dec where
  cfgValid := false
  W := 0
  L := 0
  ibs := 0
  fault := false
  state := .tagBit
  doneReported := false
  inputSize := 0
  inputIndex := 0
  headIndex := 0
  indexAcc := 0
  distance := 0
  countAcc := 0
  outputCount := 0
  outputIndex := 0
  currentByte := 0
  bitIndex := 0
  win := []
  inb := []
  draws := 0

/-- The machine after power-on: both units unconfigured, no request pending, no response given (R171). -/
def State.reset : State where
  enc := .powerOn
  dec := .powerOn
  inputs := []
  response := none

end Sys2Proof.Machine
end

