-- ==== Sys2Proof/Machine/Ops.lean ====
section
/-! DEFINITION. The named operations over memory, registers and responses that the meanings share, the micro-step loop of
POLL, and the one error entry of the core, `raise MISUSE` (R155; the core has no trap, R162, and no trap return, R163). -/

namespace Sys2Proof.Machine

/-- What index `a` reads as, `d` being what an unlisted index reads as. -/
def Memory.read {α : Type} (d : α) : Memory α → Nat → α
  | [], _ => d
  | (k, v) :: m, a => if a = k then v else if a < k then d else Memory.read d m a

/-- Write `v` at index `a`, keeping the canonical form: rising indices, no entry equal to `d`. -/
def Memory.write {α : Type} [DecidableEq α] (d : α) : Memory α → Nat → α → Memory α
  | [], a, v => if v = d then [] else [(a, v)]
  | (k, w) :: m, a, v =>
    if a < k then (if v = d then (k, w) :: m else (a, v) :: (k, w) :: m)
    else if a = k then (if v = d then m else (a, v) :: m)
    else (k, w) :: Memory.write d m a v

/-- Write a list of values at `base`, `base + 1`, … -/
def Memory.writeList {α : Type} [DecidableEq α] (d : α) : Memory α → Nat → List α → Memory α
  | m, _, [] => m
  | m, base, v :: vs => Memory.writeList d (Memory.write d m base v) (base + 1) vs

/-- Copy every entry `n + k` to `k`, for `k < n`, and leave the entries from `n` on as they are (R61, R113; log 14). -/
def Memory.slide {α : Type} (n : Nat) (m : Memory α) : Memory α :=
  let high := m.filter (fun c => n ≤ c.1)
  high.map (fun c => (c.1 - n, c.2)) ++ high

/-- The canonical form: indices strictly rising, and no entry equal to what an unlisted index reads as. -/
abbrev Memory.wf {α : Type} [DecidableEq α] (d : α) (m : Memory α) : Prop :=
  m.Pairwise (fun c c' => c.1 < c'.1) ∧ ∀ c ∈ m, c.2 ≠ d

/-- Every listed index is inside a memory of `n` entries. -/
abbrev Memory.below {α : Type} (n : Nat) (m : Memory α) : Prop := ∀ c ∈ m, c.1 < n

/-- One byte of `BUF`, `WIN` or `INB`; an unlisted byte is 0x00 (R29, R38, R39). -/
def ByteMemory.read (m : ByteMemory) (a : Nat) : Byte := Memory.read 0 m a

/-- Write one byte. -/
def ByteMemory.write (m : ByteMemory) (a : Nat) (v : Byte) : ByteMemory := Memory.write 0 m a v

/-- Write a list of bytes. -/
def ByteMemory.writeList (m : ByteMemory) (base : Nat) (vs : List Byte) : ByteMemory := Memory.writeList 0 m base vs

/-- One entry of `HEAD` or `NEXT`; an unlisted entry is NONE (R121). -/
def LinkMemory.read (m : LinkMemory) (a : Nat) : Option Nat := Memory.read none m a

/-- Write one entry. -/
def LinkMemory.write (m : LinkMemory) (a : Nat) (v : Option Nat) : LinkMemory := Memory.write none m a v

/-- An access at index `a` of the memory `m` of `size` entries: a fault outside it, else what the access gives (R15;
log 13). -/
def accessAt {α : Type} (m : MemoryName) (size a : Nat) (x : α) : Except Fault α :=
  if a < size then .ok x else .error (.memoryIndex m)

/-- `MemRead` of `NEXT`, whose `size` entries are positions or NONE (R15, R46). -/
def LinkMemory.readNext (m : LinkMemory) (size a : Nat) : Except Fault (Option Nat) :=
  accessAt .next size a (m.read a)

/-- `MemRead` of `WIN` (R15, R46). -/
def ByteMemory.readWin (m : ByteMemory) (size a : Nat) : Except Fault Byte := accessAt .win size a (m.read a)

/-- `MemWrite` of `WIN` (R15, R46). -/
def ByteMemory.writeWin (m : ByteMemory) (size a : Nat) (v : Byte) : Except Fault ByteMemory :=
  accessAt .win size a (m.write a v)

/-- `W` and `L` are a legal pair: `8 ≤ W ≤ 15` and `4 ≤ L ≤ W − 1` (R5, R6). -/
def legalParameters (W L : Nat) : Bool := decide (8 ≤ W) && decide (W ≤ 15) && decide (4 ≤ L) && decide (L < W)

/-- `N`, the window size of ENC (R9). -/
def Enc.N (e : Enc) : Nat := 2 ^ e.W

/-- `M`, the longest match ENC emits (R9). -/
def Enc.M (e : Enc) : Nat := 2 ^ e.L - 1

/-- `p`, the current position, an index into `BUF` (R24). -/
def Enc.position (e : Enc) : Nat := e.N + e.matchScanIndex

/-- `N`, the window size of DEC (R9). -/
def Dec.N (d : Dec) : Nat := 2 ^ d.W

/-- The ranges of ENC's registers (R23 to R28). -/
def Enc.inRange (e : Enc) : Bool :=
  decide (e.inputSize ≤ e.N) && decide (e.matchScanIndex ≤ e.N)
    && (decide (e.matchLength = 0) || (decide (2 ≤ e.matchLength) && decide (e.matchLength ≤ e.M)))
    && decide (e.matchPos ≤ 2 * e.N - 1) && decide (e.outgoingBitsCount ≤ 15)
    && decide (1 ≤ e.bitIndex) && decide (e.bitIndex ≤ 8)

/-- The ranges of DEC's registers (R33 to R37). -/
def Dec.inRange (d : Dec) : Bool :=
  decide (d.inputSize ≤ d.ibs) && decide (d.inputIndex ≤ d.ibs - 1) && decide (d.headIndex ≤ d.N - 1)
    && decide (d.indexAcc.toNat ≤ d.N - 1) && decide (d.distance ≤ d.N) && decide (d.countAcc.toNat ≤ 2 ^ d.L - 1)
    && decide (d.outputCount ≤ 2 ^ d.L + 1) && decide (d.outputIndex ≤ 2 ^ d.L + 1) && decide (d.bitIndex ≤ 8)

/-- How a micro-step ends (R100, R133). -/
inductive Micro where
  | continues | stall | needInput | finished | underflow
deriving DecidableEq, Repr

/-- The status POLL responds with when a micro-step ends so; none where the loop goes on (R98, R131). -/
def Micro.pollStatus : Micro → Option Status
  | .continues => none
  | .stall => some .more
  | .needInput => some .empty
  | .finished => some .empty
  | .underflow => some .empty

/-- What one micro-step leaves: the unit, the bytes it emitted (R15) and how it ended. -/
structure Turn (σ : Type) where
  unit    : σ
  out     : List Byte
  outcome : Micro
deriving DecidableEq, Repr

/-- A micro-step that emits nothing and continues. -/
def Turn.go {σ : Type} (u : σ) : Turn σ := { unit := u, out := [], outcome := .continues }

/-- A micro-step that emits nothing and ends the POLL. -/
def Turn.stop {σ : Type} (u : σ) (r : Micro) : Turn σ := { unit := u, out := [], outcome := r }

/-- A register write outside its range is a fault (R17; log 11). -/
def Enc.commit (t : Turn Enc) : Except Fault (Turn Enc) :=
  if t.unit.inRange then .ok t else .error (.registerRange .enc)

/-- A register write outside its range is a fault (R17; log 11). -/
def Dec.commit (t : Turn Dec) : Except Fault (Turn Dec) :=
  if t.unit.inRange then .ok t else .error (.registerRange .dec)

/-- The loop of POLL (R98, R131): run micro-steps until one does not continue, `room` being the free output slots and
the first number the micro-steps that are left of the bound (R116, R149). The answer is the unit, the bytes emitted in
order and the status. -/
def pollLoop {σ : Type} (micro : Nat → σ → Except Fault (Turn σ)) (bound : Fault) :
    Nat → Nat → σ → Except Fault (σ × List Byte × Status)
  | 0, _, _ => .error bound
  | left + 1, room, u =>
    match micro room u with
    | .error f => .error f
    | .ok t =>
      match t.outcome.pollStatus with
      | some st => .ok (t.unit, t.out, st)
      | none =>
        match pollLoop micro bound left (room - t.out.length) t.unit with
        | .error f => .error f
        | .ok (u', out, st) => .ok (u', t.out ++ out, st)

/-- The state with another encoder. -/
def State.setEnc (s : State) (e : Enc) : State := { s with enc := e }

/-- The state with another decoder. -/
def State.setDec (s : State) (d : Dec) : State := { s with dec := d }

/-- The state with other pending inputs. -/
def State.setInputs (s : State) (is : List Input) : State := { s with inputs := is }

/-- The state with another last response. -/
def State.setResponse (s : State) (r : Response) : State := { s with response := some r }

/-- `respond S(n)` with no output bytes: end the current command (R15, R80). -/
def respond (st : Status) (n : Nat) (s : State) : Host.Outcome State Fault Refusal :=
  .next (s.setResponse { status := st, n := n, out := [] })

/-- The response of a POLL that emitted `out` (R80). -/
def respondOut (st : Status) (out : List Byte) (s : State) : Host.Outcome State Fault Refusal :=
  .next (s.setResponse { status := st, n := out.length, out := out })

/-- ENC's `raise MISUSE`: set the fault latch and respond MISUSE(0), and nothing else (R155). -/
def raiseMisuseEnc (s : State) : Host.Outcome State Fault Refusal :=
  respond .misuse 0 (s.setEnc { s.enc with fault := true })

/-- DEC's `raise MISUSE`: set the fault latch and respond MISUSE(0), and nothing else (R155). -/
def raiseMisuseDec (s : State) : Host.Outcome State Fault Refusal :=
  respond .misuse 0 (s.setDec { s.dec with fault := true })

end Sys2Proof.Machine
end

