-- ==== Sys2Proof/Machine/BitAccumulator.lean ====
section
/-! DEFINITION. The bit accumulator (40_bit_accumulator): push and flush for ENC, pull for DEC. -/

namespace Sys2Proof.Machine

/-- PushLoad(v, w): start a field, unless one is already in progress (R86). -/
def Enc.pushLoad (v w : Nat) (e : Enc) : Enc :=
  if e.outgoingBitsCount = 0 then { e with outgoingBits := BitVec.ofNat 16 v, outgoingBitsCount := w } else e

/-- PushStep: move the next bits of the pending field into `current_byte` and emit the byte when it fills; `none` is
STALL, with no state changed (R87). -/
def Enc.pushStep (room : Nat) (e : Enc) : Option (Enc × List Byte) :=
  let k := min e.outgoingBitsCount e.bitIndex
  if k = e.bitIndex ∧ room = 0 then none
  else
    let bits := e.outgoingBits.toNat >>> (e.outgoingBitsCount - k) % 2 ^ k
    let byte := e.currentByte ||| BitVec.ofNat 8 (bits <<< (e.bitIndex - k))
    let count := e.outgoingBitsCount - k
    let rest := BitVec.ofNat 16 (e.outgoingBits.toNat % 2 ^ count)
    if e.bitIndex - k = 0 then
      some ({ e with outgoingBits := rest, outgoingBitsCount := count, currentByte := 0, bitIndex := 8 }, [byte])
    else
      some ({ e with
        outgoingBits := rest, outgoingBitsCount := count, currentByte := byte, bitIndex := e.bitIndex - k }, [])

/-- The loop of PushField: PushSteps while bits are pending. The first number bounds the steps. The answer is the unit,
the bytes emitted, and whether the whole field is placed (DONE) or the next step needs a slot (STALL) (R88). -/
def Enc.pushLoop : Nat → Nat → Enc → Enc × List Byte × Bool
  | 0, _, e => (e, [], decide (e.outgoingBitsCount = 0))
  | left + 1, room, e =>
    if e.outgoingBitsCount = 0 then (e, [], true)
    else
      match e.pushStep room with
      | none => (e, [], false)
      | some (e', out) =>
        let r := Enc.pushLoop left (room - out.length) e'
        (r.1, out ++ r.2.1, r.2.2)

/-- PushField(v, w): PushLoad, then PushSteps until the field is placed or a slot is wanting (R88). After a STALL the
load and the steps already done stay (R86, R88; log 10). Each step but at most one places a bit, so `count + 1` steps
are enough. -/
def Enc.pushField (v w room : Nat) (e : Enc) : Enc × List Byte × Bool :=
  let e' := e.pushLoad v w
  Enc.pushLoop (e'.outgoingBitsCount + 1) room e'

/-- FlushPad: emit the partial byte with its free low bits set to 1 (R90). The answer is as for `pushField`. -/
def Enc.flushPad (room : Nat) (e : Enc) : Enc × List Byte × Bool :=
  if e.bitIndex = 8 then (e, [], true)
  else if room = 0 then (e, [], false)
  else
    ({ e with currentByte := 0, bitIndex := 8 }, [e.currentByte ||| BitVec.ofNat 8 (2 ^ e.bitIndex - 1)], true)

/-- `avail`, the input bits DEC has not consumed (R92). -/
def Dec.avail (d : Dec) : Nat := d.bitIndex + 8 * (d.inputSize - d.inputIndex)

/-- Move the next byte of `INB` into `current_byte`; both cursors go back to 0 with the last buffered byte (R93). -/
def Dec.loadByte (d : Dec) : Except Fault Dec :=
  if d.inputIndex < d.ibs then
    let byte := d.inb.read d.inputIndex
    if d.inputIndex + 1 = d.inputSize then
      .ok { d with currentByte := byte, bitIndex := 8, inputIndex := 0, inputSize := 0 }
    else
      .ok { d with currentByte := byte, bitIndex := 8, inputIndex := d.inputIndex + 1 }
  else .error (.memoryIndex .inb)

/-- The loop of Pull: `w` more bits onto `v` (R93). -/
def Dec.pullBits : Nat → Nat → Dec → Except Fault (Nat × Dec)
  | 0, v, d => .ok (v, d)
  | w + 1, v, d =>
    match (if d.bitIndex = 0 then d.loadByte else .ok d) with
    | .error f => .error f
    | .ok d' =>
      Dec.pullBits w (2 * v + (d'.currentByte.getLsbD (d'.bitIndex - 1)).toNat) { d' with bitIndex := d'.bitIndex - 1 }

/-- Pull(w): `w` bits, MSB first, or `none` for UNDERFLOW with nothing consumed (R93). -/
def Dec.pull (w : Nat) (d : Dec) : Except Fault (Option (Nat × Dec)) :=
  if d.avail < w then .ok none
  else
    match Dec.pullBits w 0 d with
    | .error f => .error f
    | .ok r => .ok (some r)

/-- The unconsumed bytes of `INB`, in order (R33). -/
def Dec.unreadBytes (d : Dec) : List Byte :=
  (List.range (d.inputSize - d.inputIndex)).map (fun k => d.inb.read (d.inputIndex + k))

/-- The input bits DEC has not consumed, in stream order (R37, R92). -/
def Dec.unreadBits (d : Dec) : List Bool :=
  fieldBits d.bitIndex d.currentByte.toNat ++ d.unreadBytes.flatMap byteBits

/-- `AllOnes`: every input bit DEC has not consumed is 1 (R95). -/
def Dec.allOnes (d : Dec) : Bool :=
  decide (d.currentByte.toNat % 2 ^ d.bitIndex = 2 ^ d.bitIndex - 1) && d.unreadBytes.all (fun b => b = 0xFF)

end Sys2Proof.Machine
end

