-- ==== Sys2Proof/Machine/Flags.lean ====
section
/-! DEFINITION. The flags of the units (R44) as the commands test them, and the numeric codes of the statuses and the FSM
states (R21, R31, R81). There are no condition codes (R44). -/

namespace Sys2Proof.Machine

/-- ENC takes SINK, POLL and FINISH: configured (R154) and not latched (R156). -/
def Enc.usable (e : Enc) : Bool := e.cfgValid && !e.fault

/-- DEC takes SINK, POLL and FINISH: configured (R154) and not latched (R156). -/
def Dec.usable (d : Dec) : Bool := d.cfgValid && !d.fault

/-- The 3-bit status code (R81). -/
def Status.code : Status → BitVec 3
  | .ok => 0
  | .full => 1
  | .empty => 2
  | .more => 3
  | .done => 4
  | .misuse => 5
  | .invalidParameter => 6
  | .illegalCommand => 7

/-- The 4-bit encoding of ENC's FSM state (R21). -/
def EncState.code : EncState → BitVec 4
  | .notFull => 0
  | .filled => 1
  | .search => 2
  | .yieldTagBit => 3
  | .yieldLiteral => 4
  | .yieldBackRefIndex => 5
  | .yieldBackRefLength => 6
  | .saveBacklog => 7
  | .flushBits => 8
  | .done => 9

/-- The 3-bit encoding of DEC's FSM state (R31). -/
def DecState.code : DecState → BitVec 3
  | .tagBit => 0
  | .yieldLiteral => 1
  | .backrefIndexMSB => 2
  | .backrefIndexLSB => 3
  | .backrefCountMSB => 4
  | .backrefCountLSB => 5
  | .yieldBackref => 6

end Sys2Proof.Machine
end

