-- ==== Sys2Proof/Machine/Operands.lean ====
section
/-! DEFINITION. The operands of the commands (R78): the fields of the configuration word (R79), and how many bytes of
`src` a SINK takes (R97, R130). -/

namespace Sys2Proof.Machine

/-- `cfg[3:0]`, the window exponent (R79). -/
def cfgW (cfg : CfgWord) : Nat := (cfg.extractLsb' 0 4).toNat

/-- `cfg[7:4]`, the lookahead exponent (R79). -/
def cfgL (cfg : CfgWord) : Nat := (cfg.extractLsb' 4 4).toNat

/-- `cfg[8]`, ENC's INDEXED (R79). -/
def cfgIndexed (cfg : CfgWord) : Bool := cfg.getLsbD 8

/-- `cfg[31:16]`, DEC's IBS (R79). -/
def cfgIbs (cfg : CfgWord) : Nat := (cfg.extractLsb' 16 16).toNat

/-- ENC accepts the configuration word: legal `W` and `L`, `cfg[15:9] = 0`, `cfg[31:16] = 0` (R79, R96). -/
def encCfgValid (cfg : CfgWord) : Bool :=
  legalParameters (cfgW cfg) (cfgL cfg) && decide (cfg.extractLsb' 9 7 = 0) && decide (cfg.extractLsb' 16 16 = 0)

/-- DEC accepts the configuration word: legal `W` and `L`, `cfg[15:8] = 0`, `IBS ≠ 0` (R79, R129). -/
def decCfgValid (cfg : CfgWord) : Bool :=
  legalParameters (cfgW cfg) (cfgL cfg) && decide (cfg.extractLsb' 8 8 = 0) && decide (cfgIbs cfg ≠ 0)

/-- The bytes of `src` that a SINK with `room` free places takes: the first `min(len(src), room)` (R97, R130). -/
def sinkTaken (room : Nat) (src : List Byte) : List Byte := src.take room

end Sys2Proof.Machine
end

