-- ==== Sys2Proof/Machine/Decoder.lean ====
section
/-! DEFINITION. DEC (43_decoder): the FSM, one definition per state, and the meanings of DEC.NEW, DEC.SINK, DEC.POLL and
DEC.FINISH. -/

namespace Sys2Proof.Machine

/-- DEC after a valid NEW (10_state section 7; R129). -/
def Dec.afterNew (W L ibs : Nat) (draws : Nat) : Dec where
  cfgValid := true
  W := W
  L := L
  ibs := ibs
  fault := false
  state := .tagBit
  doneReported := false
  inputSize := 0
  inputIndex := 0
  headIndex := 0
  indexAcc := 0
  distance := 0
  countAcc := 0
  outputCount := 0
  outputIndex := 0
  currentByte := 0
  bitIndex := 0
  win := []
  inb := []
  draws := draws

/-- DEC after a refused NEW: unconfigured (R129, R153), with `W`, `L` and `IBS` unspecified (R19; free values, log 3).
Nothing else changes (R158; log 15). -/
def Dec.afterRefusedNew (d : Dec) : Dec :=
  { d with
    cfgValid := false
    W := (Config.freeDecW d.draws).toNat
    L := (Config.freeDecL d.draws).toNat
    ibs := (Config.freeDecIbs d.draws).toNat
    draws := d.draws + 1 }

/-- `PullWidth(state)` (R141); YieldBackref pulls nothing. -/
def Dec.pullWidth (d : Dec) : Option Nat :=
  match d.state with
  | .tagBit => some 1
  | .yieldLiteral => some 8
  | .backrefIndexMSB => some (d.W - 8)
  | .backrefIndexLSB => some 8
  | .backrefCountMSB => some (d.L - 8)
  | .backrefCountLSB => some (min d.L 8)
  | .yieldBackref => none

/-- Emit `b`: it goes to the output and into `WIN` at `head_index`, which advances modulo `N` (R135, R140). -/
def Dec.emitByte (b : Byte) (d : Dec) : Except Fault Dec :=
  match d.win.writeWin d.N d.headIndex b with
  | .error f => .error f
  | .ok win => .ok { d with win := win, headIndex := (d.headIndex + 1) % d.N }

/-- A state that pulls `w` bits: UNDERFLOW with nothing changed, or `next` on the field and the unit after the pull
(R133). `field` is what the state makes of the bits: in a POLL the number pulled, in a lone token its own field (log 7). -/
def Dec.pulling (w : Nat) (field : DecState → Nat → Nat) (d : Dec) 
    (next : Nat → Dec → Except Fault (Turn Dec)) : Except Fault (Turn Dec) :=
  match d.pull w with
  | .error f => .error f
  | .ok none => .ok (.stop d .underflow)
  | .ok (some (v, d')) => next (field d.state v) d'

/-- State TagBit (R134). -/
def Dec.stepTagBit (field : DecState → Nat → Nat) (d : Dec) : Except Fault (Turn Dec) :=
  d.pulling 1 field (fun r d' =>
    if r = 1 then .ok (.go { d' with state := .yieldLiteral })
    else .ok (.go { d' with indexAcc := 0, state := if 8 < d'.W then .backrefIndexMSB else .backrefIndexLSB }))

/-- State YieldLiteral (R135): the output slot is checked before the pull. -/
def Dec.stepYieldLiteral (field : DecState → Nat → Nat) (room : Nat) (d : Dec) : Except Fault (Turn Dec) :=
  if room = 0 then .ok (.stop d .stall)
  else
    d.pulling 8 field (fun r d' =>
      match d'.emitByte (BitVec.ofNat 8 r) with
      | .error f => .error f
      | .ok e => .ok { unit := { e with state := .tagBit }, out := [BitVec.ofNat 8 r], outcome := .continues })

/-- State BackrefIndexMSB (R136). -/
def Dec.stepBackrefIndexMSB (field : DecState → Nat → Nat) (d : Dec) : Except Fault (Turn Dec) :=
  d.pulling (d.W - 8) field (fun r d' =>
    .ok (.go { d' with indexAcc := BitVec.ofNat 16 r <<< 8, state := .backrefIndexLSB }))

/-- State BackrefIndexLSB (R137): the distance is the index plus one. -/
def Dec.stepBackrefIndexLSB (field : DecState → Nat → Nat) (d : Dec) : Except Fault (Turn Dec) :=
  d.pulling 8 field (fun r d' =>
    let index := d'.indexAcc ||| BitVec.ofNat 16 r
    .ok (.go { d' with
      indexAcc := index
      distance := index.toNat + 1
      countAcc := 0
      state := if 8 < d'.L then .backrefCountMSB else .backrefCountLSB }))

/-- State BackrefCountMSB (R138). -/
def Dec.stepBackrefCountMSB (field : DecState → Nat → Nat) (d : Dec) : Except Fault (Turn Dec) :=
  d.pulling (d.L - 8) field (fun r d' =>
    .ok (.go { d' with countAcc := BitVec.ofNat 16 r <<< 8, state := .backrefCountLSB }))

/-- State BackrefCountLSB (R139): the length is the count plus two. -/
def Dec.stepBackrefCountLSB (field : DecState → Nat → Nat) (d : Dec) : Except Fault (Turn Dec) :=
  d.pulling (min d.L 8) field (fun r d' =>
    let count := d'.countAcc ||| BitVec.ofNat 16 r
    .ok (.go { d' with
      countAcc := count
      outputCount := count.toNat + 2
      outputIndex := 0
      state := .yieldBackref }))

/-- The `WIN` index a backref copies from: `(head_index − distance) mod N` (R62, R140; R13 for `mod`). -/
def Dec.copySource (d : Dec) : Nat := (((d.headIndex : Int) - d.distance) % d.N).toNat

/-- State YieldBackref (R140): copy one byte of the window, read before the write (R62). An `output_count` of 0 would be
counted below its range (R17). -/
def Dec.stepYieldBackref (room : Nat) (d : Dec) : Except Fault (Turn Dec) :=
  if room = 0 then .ok (.stop d .stall)
  else if d.outputCount = 0 then .error (.registerRange .dec)
  else
    match d.win.readWin d.N d.copySource with
    | .error f => .error f
    | .ok c =>
      match d.emitByte c with
      | .error f => .error f
      | .ok e => .ok {
          unit := { e with
            outputCount := d.outputCount - 1
            outputIndex := d.outputIndex + 1
            state := if d.outputCount - 1 = 0 then .tagBit else .yieldBackref }
          out := [c]
          outcome := .continues }

/-- The action of the state in `dec.state` (R133), before the range check. -/
def Dec.stateAction (field : DecState → Nat → Nat) (room : Nat) (d : Dec) : Except Fault (Turn Dec) :=
  match d.state with
  | .tagBit => d.stepTagBit field
  | .yieldLiteral => d.stepYieldLiteral field room
  | .backrefIndexMSB => d.stepBackrefIndexMSB field
  | .backrefIndexLSB => d.stepBackrefIndexLSB field
  | .backrefCountMSB => d.stepBackrefCountMSB field
  | .backrefCountLSB => d.stepBackrefCountLSB field
  | .yieldBackref => d.stepYieldBackref room

/-- One micro-step of DEC with `room` free output slots (R133). -/
def Dec.microStep (field : DecState → Nat → Nat) (room : Nat) (d : Dec) : Except Fault (Turn Dec) :=
  match d.stateAction field room with
  | .error f => .error f
  | .ok t => Dec.commit t

/-- In a POLL a state's field is the number it pulled. -/
def asPulled (_ : DecState) (v : Nat) : Nat := v

/-- The most micro-steps of one DEC.POLL (R149). -/
def Dec.pollBound (capacity : Nat) (d : Dec) : Nat := capacity + 8 * d.ibs + 9

/-- The FSM run of one DEC.POLL (R131). -/
def Dec.poll (capacity : Nat) (d : Dec) : Except Fault (Dec × List Byte × Status) :=
  pollLoop (Dec.microStep asPulled) (.microStepBound .dec) (d.pollBound capacity) capacity d

/-- DEC.NEW (R129). -/
def execDecNew (cfg : CfgWord) (s : State) : Host.Outcome State Fault Refusal :=
  if decCfgValid cfg then
    respond .ok 0 (s.setDec (Dec.afterNew (cfgW cfg) (cfgL cfg) (cfgIbs cfg) s.dec.draws))
  else respond .invalidParameter 0 (s.setDec s.dec.afterRefusedNew)

/-- DEC.SINK (R130). -/
def execDecSink (src : List Byte) (s : State) : Host.Outcome State Fault Refusal :=
  if !s.dec.usable then respond .misuse 0 s
  else if s.dec.doneReported then raiseMisuseDec s
  else
    let room := s.dec.ibs - s.dec.inputSize
    if room = 0 then respond .full 0 s
    else
      let taken := sinkTaken room src
      respond .ok taken.length (s.setDec { s.dec with
        inb := s.dec.inb.writeList s.dec.inputSize taken
        inputSize := s.dec.inputSize + taken.length })

/-- DEC.POLL (R131). -/
def execDecPoll (capacity : Nat) (s : State) : Host.Outcome State Fault Refusal :=
  if !s.dec.usable then respond .misuse 0 s
  else
    match s.dec.poll capacity with
    | .error f => .fault f
    | .ok (d, out, st) => respondOut st out (s.setDec d)

/-- DEC.FINISH (R132). AllOnes reads `INB` below `input_size`, so an `input_size` beyond `IBS` is a fault (R15). -/
def execDecFinish (s : State) : Host.Outcome State Fault Refusal :=
  if !s.dec.usable then respond .misuse 0 s
  else
    match s.dec.pullWidth with
    | none => respond .more 0 s
    | some w =>
      if w ≤ s.dec.avail then respond .more 0 s
      else if s.dec.ibs < s.dec.inputSize then .fault (.memoryIndex .inb)
      else if s.dec.allOnes then respond .done 0 (s.setDec { s.dec with doneReported := true })
      else respond .more 0 s

end Sys2Proof.Machine
end

