-- ==== Sys2Proof/Machine/SearchIndex.lean ====
section
/-! DEFINITION. The match search (R104 to R106) and the optional search index (42_search_index). -/

namespace Sys2Proof.Machine

/-- `len(q)` of R104: how many bytes at `q` and at `p` agree in a row, at most the first number more than `k`. -/
def matchLen (buf : ByteMemory) (q p : Nat) : Nat → Nat → Nat
  | 0, k => k
  | left + 1, k => if buf.read (q + k) = buf.read (p + k) then matchLen buf q p left (k + 1) else k

/-- The linear scan of R104 over the candidates `low + n − 1` down to `low`, with the best length and position so far:
an equal length further away loses, and a match of `maxlen` ends the scan. -/
def scanFrom (buf : ByteMemory) (p maxlen low : Nat) : Nat → Nat × Nat → Nat × Nat
  | 0, best => best
  | n + 1, best =>
    let k := matchLen buf (low + n) p maxlen 0
    let best' := if best.1 < k then (k, low + n) else best
    if best'.1 = maxlen then best' else scanFrom buf p maxlen low n best'

/-- A match shorter than 2 bytes is no match (R105). -/
def atLeastTwo (best : Nat × Nat) : Nat × Nat := if 2 ≤ best.1 then best else (0, 0)

/-- LongestMatch(p, maxlen) over the candidates `[p − N, p − 1]` (R104). -/
def longestMatch (N : Nat) (buf : ByteMemory) (p maxlen : Nat) : Nat × Nat :=
  atLeastTwo (scanFrom buf p maxlen (p - N) N (0, 0))

/-- The index key of position `i`: the byte at `i` is its high half (R122). -/
def prefix2 (buf : ByteMemory) (i : Nat) : Nat := (buf.read i).toNat * 256 + (buf.read (i + 1)).toNat

/-- BuildIndex over the positions below `n`, from an empty index (R123): `HEAD` and `NEXT`. -/
def buildIndex (buf : ByteMemory) : Nat → LinkMemory × LinkMemory
  | 0 => ([], [])
  | n + 1 =>
    let r := buildIndex buf n
    let key := prefix2 buf n
    (r.1.write key (some n), r.2.write n (r.1.read key))

/-- The best match so far after the candidate `q`, of which only one before `p` is looked at (R125). -/
def tryCandidate (buf : ByteMemory) (p maxlen q : Nat) (best : Nat × Nat) : Nat × Nat :=
  if q < p then
    let k := matchLen buf q p maxlen 0
    if best.1 < k then (k, q) else best
  else best

/-- The walk of R125 along a chain, the first number being the steps left of `CHAIN_CAP`. Reading `NEXT` outside its `2N`
entries is a fault (R15). -/
def walkChain (N : Nat) (buf : ByteMemory) (next : LinkMemory) (p maxlen : Nat) :
    Nat → Option Nat → Nat × Nat → Except Fault (Nat × Nat)
  | 0, _, best => .ok best
  | _ + 1, none, best => .ok best
  | left + 1, some q, best =>
    if q < p - N then .ok best
    else
      let best' := tryCandidate buf p maxlen q best
      if q < p ∧ best'.1 = maxlen then .ok best'
      else
        match next.readNext (2 * N) q with
        | .error f => .error f
        | .ok q' => walkChain N buf next p maxlen left q' best'

/-- `CHAIN_CAP` (R126). -/
def chainCap (N : Nat) : Nat := 2 * N

/-- IndexedMatch(p, maxlen) (R125). A key is two bytes, so `HEAD[prefix2(p)]` is always inside `HEAD`. -/
def indexedMatch (N : Nat) (buf : ByteMemory) (head next : LinkMemory) (p maxlen : Nat) : Except Fault (Nat × Nat) :=
  if maxlen < 2 then .ok (0, 0)
  else (walkChain N buf next p maxlen (chainCap N) (head.read (prefix2 buf p)) (0, 0)).map atLeastTwo

/-- The search that `INDEXED` selects (R103). -/
def Enc.findMatch (e : Enc) (p maxlen : Nat) : Except Fault (Nat × Nat) :=
  if e.indexed then indexedMatch e.N e.buf e.head e.next p maxlen else .ok (longestMatch e.N e.buf p maxlen)

end Sys2Proof.Machine
end

