-- ==== Sys2Proof/Machine/Encoder.lean ====
section
/-! DEFINITION. ENC (41_encoder): the FSM, one definition per state, and the meanings of ENC.NEW, ENC.SINK, ENC.POLL and
ENC.FINISH. -/

namespace Sys2Proof.Machine

/-- ENC after a valid NEW (10_state section 7; R96). -/
def Enc.afterNew (W L : Nat) (indexed : Bool) (draws : Nat) : Enc where
  cfgValid := true
  W := W
  L := L
  indexed := indexed
  fault := false
  state := .notFull
  finishing := false
  inputSize := 0
  matchScanIndex := 0
  matchLength := 0
  matchPos := 0
  outgoingBits := 0
  outgoingBitsCount := 0
  currentByte := 0
  bitIndex := 8
  buf := []
  head := []
  next := []
  draws := draws

/-- ENC after a refused NEW: unconfigured (R96, R153), with `W`, `L` and `INDEXED` unspecified (R18; free values, log 3).
Nothing else changes (R158; log 15). -/
def Enc.afterRefusedNew (e : Enc) : Enc :=
  { e with
    cfgValid := false
    W := (Config.freeEncW e.draws).toNat
    L := (Config.freeEncL e.draws).toNat
    indexed := Config.freeEncIndexed e.draws
    draws := e.draws + 1 }

/-- State NotFull (R101). -/
def Enc.stepNotFull (e : Enc) : Except Fault (Turn Enc) :=
  if e.inputSize = e.N ∨ e.finishing = true then .ok (.go { e with state := .filled })
  else .ok (.stop e .needInput)

/-- State Filled (R102): start a block, and rebuild the index from `BUF` where there is one (R123). -/
def Enc.stepFilled (e : Enc) : Except Fault (Turn Enc) :=
  if e.indexed then
    if e.N + e.inputSize ≤ 2 * e.N then
      let index := buildIndex e.buf (e.N + e.inputSize - 1)
      .ok (.go { e with matchScanIndex := 0, head := index.1, next := index.2, state := .search })
    else .error (.memoryIndex .buf)
  else .ok (.go { e with matchScanIndex := 0, state := .search })

/-- State Search (R103 to R106). Every byte the search compares lies below `p + maxlen`. -/
def Enc.stepSearch (e : Enc) : Except Fault (Turn Enc) :=
  if e.inputSize ≤ e.matchScanIndex then .ok (.go { e with state := .saveBacklog })
  else
    let maxlen := min e.M (e.inputSize - e.matchScanIndex)
    if e.position + maxlen ≤ 2 * e.N then
      match e.findMatch e.position maxlen with
      | .error f => .error f
      | .ok found =>
        if 2 ≤ found.1 then
          .ok (.go { e with matchLength := found.1, matchPos := found.2, state := .yieldTagBit })
        else .ok (.go { e with matchLength := 0, state := .yieldTagBit })
    else .error (.memoryIndex .buf)

/-- AfterToken: the state after a token (R109). -/
def Enc.afterToken (msi inputSize : Nat) : EncState := if inputSize ≤ msi then .saveBacklog else .search

/-- A Yield state: push its field, and on DONE do `next`; on STALL only the accumulator has changed (R88; log 10). -/
def Enc.yieldField (v w room : Nat) (e : Enc) (next : Enc → Enc) : Turn Enc :=
  let r := e.pushField v w room
  if r.2.2 then { unit := next r.1, out := r.2.1, outcome := .continues }
  else { unit := r.1, out := r.2.1, outcome := .stall }

/-- State YieldTagBit (R107): 1 for a literal, 0 for a backref. -/
def Enc.stepYieldTagBit (room : Nat) (e : Enc) : Except Fault (Turn Enc) :=
  if e.matchLength = 0 then .ok (e.yieldField 1 1 room (fun e' => { e' with state := .yieldLiteral }))
  else .ok (e.yieldField 0 1 room (fun e' => { e' with state := .yieldBackRefIndex }))

/-- State YieldLiteral (R108): push the byte at `p`. -/
def Enc.stepYieldLiteral (room : Nat) (e : Enc) : Except Fault (Turn Enc) :=
  if e.position < 2 * e.N then
    .ok (e.yieldField (e.buf.read e.position).toNat 8 room (fun e' =>
      { e' with
        matchScanIndex := e'.matchScanIndex + 1
        state := Enc.afterToken (e'.matchScanIndex + 1) e'.inputSize }))
  else .error (.memoryIndex .buf)

/-- State YieldBackRefIndex (R110): push the distance minus one. A `match_pos` that is no candidate of `p` would give a
field outside its `W` bits (R17, R26, R86). -/
def Enc.stepYieldBackRefIndex (room : Nat) (e : Enc) : Except Fault (Turn Enc) :=
  if e.matchPos < e.position ∧ e.position ≤ e.matchPos + e.N then
    .ok (e.yieldField (e.position - e.matchPos - 1) e.W room (fun e' => { e' with state := .yieldBackRefLength }))
  else .error (.registerRange .enc)

/-- State YieldBackRefLength (R111): push the length minus two, and consume the match. A `match_length` that is no match
would give a field outside its `L` bits (R17, R25, R86). -/
def Enc.stepYieldBackRefLength (room : Nat) (e : Enc) : Except Fault (Turn Enc) :=
  if 2 ≤ e.matchLength ∧ e.matchLength ≤ e.M then
    .ok (e.yieldField (e.matchLength - 2) e.L room (fun e' =>
      { e' with
        matchScanIndex := e'.matchScanIndex + e'.matchLength
        state := Enc.afterToken (e'.matchScanIndex + e'.matchLength) e'.inputSize }))
  else .error (.registerRange .enc)

/-- State SaveBacklog (R113): the coded lookahead becomes the window. -/
def Enc.stepSaveBacklog (e : Enc) : Except Fault (Turn Enc) :=
  .ok (.go { e with
    buf := Memory.slide e.N e.buf
    inputSize := 0
    state := if e.finishing then .flushBits else .notFull })

/-- State FlushBits (R114): pad the last byte. -/
def Enc.stepFlushBits (room : Nat) (e : Enc) : Except Fault (Turn Enc) :=
  let r := e.flushPad room
  if r.2.2 then .ok { unit := { r.1 with state := .done }, out := r.2.1, outcome := .continues }
  else .ok { unit := r.1, out := r.2.1, outcome := .stall }

/-- State Done (R114). -/
def Enc.stepDone (e : Enc) : Except Fault (Turn Enc) := .ok (.stop e .finished)

/-- The action of the state in `enc.state` (R100), before the range check. -/
def Enc.stateAction (room : Nat) (e : Enc) : Except Fault (Turn Enc) :=
  match e.state with
  | .notFull => e.stepNotFull
  | .filled => e.stepFilled
  | .search => e.stepSearch
  | .yieldTagBit => e.stepYieldTagBit room
  | .yieldLiteral => e.stepYieldLiteral room
  | .yieldBackRefIndex => e.stepYieldBackRefIndex room
  | .yieldBackRefLength => e.stepYieldBackRefLength room
  | .saveBacklog => e.stepSaveBacklog
  | .flushBits => e.stepFlushBits room
  | .done => e.stepDone

/-- One micro-step of ENC with `room` free output slots (R100). -/
def Enc.microStep (room : Nat) (e : Enc) : Except Fault (Turn Enc) :=
  match e.stateAction room with
  | .error f => .error f
  | .ok t => Enc.commit t

/-- The most micro-steps of one ENC.POLL (R116). -/
def Enc.pollBound (e : Enc) : Nat := 4 * e.N + 8

/-- The FSM run of one ENC.POLL (R98). -/
def Enc.poll (capacity : Nat) (e : Enc) : Except Fault (Enc × List Byte × Status) :=
  pollLoop Enc.microStep (.microStepBound .enc) e.pollBound capacity e

/-- ENC.NEW (R96). -/
def execEncNew (cfg : CfgWord) (s : State) : Host.Outcome State Fault Refusal :=
  if encCfgValid cfg then
    respond .ok 0 (s.setEnc (Enc.afterNew (cfgW cfg) (cfgL cfg) (cfgIndexed cfg) s.enc.draws))
  else respond .invalidParameter 0 (s.setEnc s.enc.afterRefusedNew)

/-- ENC.SINK (R97). -/
def execEncSink (src : List Byte) (s : State) : Host.Outcome State Fault Refusal :=
  if !s.enc.usable then respond .misuse 0 s
  else if s.enc.finishing then raiseMisuseEnc s
  else
    let room := s.enc.N - s.enc.inputSize
    if room = 0 then respond .full 0 s
    else
      let taken := sinkTaken room src
      respond .ok taken.length (s.setEnc { s.enc with
        buf := s.enc.buf.writeList (s.enc.N + s.enc.inputSize) taken
        inputSize := s.enc.inputSize + taken.length })

/-- ENC.POLL (R98). -/
def execEncPoll (capacity : Nat) (s : State) : Host.Outcome State Fault Refusal :=
  if !s.enc.usable then respond .misuse 0 s
  else
    match s.enc.poll capacity with
    | .error f => .fault f
    | .ok (e, out, st) => respondOut st out (s.setEnc e)

/-- ENC.FINISH (R99). -/
def execEncFinish (s : State) : Host.Outcome State Fault Refusal :=
  if !s.enc.usable then respond .misuse 0 s
  else
    respond (if s.enc.state = .done then .done else .more) 0 (s.setEnc { s.enc with finishing := true })

end Sys2Proof.Machine
end

