-- ==== Sys2Proof/Machine/Tokens.lean ====
section
/-! DEFINITION. The wire tokens as instructions of DEC (R65 to R74): executing one whole token (R134 to R140), fetching the
token at DEC's input cursor, and loading a table word (logs 4, 7, 8, 9). -/

namespace Sys2Proof.Machine

/-- The number each pulling state takes from the token `i` when `L` is the lookahead exponent (R66, R67, R141): the tag;
the literal byte; the index as its bits above 7 and its low 8; the count as its bits above 7 and its low `min(L, 8)`. -/
def tokenField (i : Instr) (L : Nat) (st : DecState) (pulled : Nat) : Nat :=
  match i, st with
  | .lit _, .tagBit => 1
  | .lit b, .yieldLiteral => b.toNat
  | .bref _ _, .tagBit => 0
  | .bref index _, .backrefIndexMSB => index >>> 8
  | .bref index _, .backrefIndexLSB => index % 256
  | .bref _ count, .backrefCountMSB => count >>> 8
  | .bref _ count, .backrefCountLSB => count % 2 ^ min L 8
  | _, _ => pulled

/-- A micro-step of DEC inside one token: where the token ends, the run ends too, as a POLL does whose input ends there
(log 7). -/
def Dec.tokenMicroStep (field : DecState → Nat → Nat) (room : Nat) (d : Dec) : Except Fault (Turn Dec) :=
  match d.microStep field room with
  | .error f => .error f
  | .ok t =>
    if t.outcome = .continues ∧ t.unit.state = .tagBit then .ok { t with outcome := .underflow } else .ok t

/-- The most micro-steps of one token: the tag, at most four field parts, at most `2^L + 1` copies, and one that stalls
or underflows. -/
def Dec.tokenBound (d : Dec) : Nat := 2 ^ d.L + 7

/-- DEC runs its FSM up to the end of the current token, with the largest capacity a POLL can have (log 7). -/
def runToken (field : DecState → Nat → Nat) (s : State) : Host.Outcome State Fault Refusal :=
  if !s.dec.usable then respond .misuse 0 s
  else
    match pollLoop (Dec.tokenMicroStep field) (.microStepBound .dec) s.dec.tokenBound Config.maxOperand s.dec with
    | .error f => .fault f
    | .ok (d, out, st) => respondOut st out (s.setDec d)

/-- Execute the token `i`: DEC must be between tokens (log 8). -/
def execToken (i : Instr) (s : State) : Host.Outcome State Fault Refusal :=
  if s.dec.usable = true ∧ s.dec.state ≠ .tagBit then .refused .notAtTokenBoundary
  else runToken (tokenField i s.dec.L) s

/-- LIT (R66; R134, R135). -/
def execLit (b : Byte) (s : State) : Host.Outcome State Fault Refusal := execToken (.lit b) s

/-- BREF (R67; R134, R136 to R140). -/
def execBref (index count : Nat) (s : State) : Host.Outcome State Fault Refusal := execToken (.bref index count) s

/-- The whole token at DEC's input cursor, where DEC can execute one. -/
def fetchToken (d : Dec) : Option Instr :=
  if d.usable = true ∧ d.state = .tagBit then
    match decodeToken d.W d.L d.unreadBits with
    | .ok (i, _) => some i
    | .error _ => none
  else none

/-- With no whole token to fetch, DEC goes on with the bits it has, up to the end of the current token (R74, R133; log 7). -/
def runPartialToken (s : State) : Host.Outcome State Fault Refusal := runToken asPulled s

/-- The response to an illegal command word: nothing else changes (R77, R152). -/
def respondIllegal (s : State) : Host.Outcome State Fault Refusal := respond .illegalCommand 0 s

/-- DEC configured for the table's token rows, with `bytes` in its input buffer (log 9). -/
def Dec.withTokenBytes (bytes : List Byte) (d : Dec) : Dec :=
  { Dec.afterNew Config.tableW Config.tableL Config.maxOperand d.draws with
    inb := ByteMemory.writeList [] 0 bytes
    inputSize := bytes.length }

/-- Place a table word where `step` takes its next instruction (logs 4, 9): a command word as the host's next request,
with every operand zero; a token in DEC's input buffer, with the request to execute it. -/
def loadTableWord (nbits w : Nat) (s : State) : State :=
  if nbits ≤ 8 then s.setInputs (.command (tableRequest w) :: s.inputs)
  else (s.setDec (s.dec.withTokenBytes (tableTokenBytes w))).setInputs (.token :: s.inputs)

end Sys2Proof.Machine
end

