-- ==== Sys2Proof/Machine/Dispatch.lean ====
section
/-! DEFINITION. The meaning of every instruction, one arm per constructor of `Instr`. -/

namespace Sys2Proof.Machine

def exec (i : Instr) (s : State) : Host.Outcome State Fault Refusal :=
  match i with
  | .encNew cfg => Sys2Proof.Machine.execEncNew cfg s
  | .encSink src => Sys2Proof.Machine.execEncSink src s
  | .encPoll capacity => Sys2Proof.Machine.execEncPoll capacity s
  | .encFinish => Sys2Proof.Machine.execEncFinish s
  | .decNew cfg => Sys2Proof.Machine.execDecNew cfg s
  | .decSink src => Sys2Proof.Machine.execDecSink src s
  | .decPoll capacity => Sys2Proof.Machine.execDecPoll capacity s
  | .decFinish => Sys2Proof.Machine.execDecFinish s
  | .lit b => Sys2Proof.Machine.execLit b s
  | .bref index count => Sys2Proof.Machine.execBref index count s

end Sys2Proof.Machine
end

