-- ==== Sys2Proof/Machine/Step.lean ====
section
/-! DEFINITION. One step: accept the host's oldest pending input and complete it (R11, R55). -/

namespace Sys2Proof.Machine

/-- Accept one command: an illegal word is answered (R77, R152), an operand outside R78's range is refused (log 6), and
any other command runs to its end. -/
def acceptCommand (r : Request) (s : State) : Host.Outcome State Fault Refusal :=
  match decodeCommand r with
  | .error _ => respondIllegal s
  | .ok i => if i.operandInRange then exec i s else .refused .operandOutOfRange

/-- DEC executes the token at its input cursor, or goes on with the part of one that is there (log 7). -/
def acceptToken (s : State) : Host.Outcome State Fault Refusal :=
  match fetchToken s.dec with
  | some i => exec i s
  | none => runPartialToken s

/-- One step of the machine. With nothing pending the core is idle and keeps its state (R170). -/
def step (s : State) : Host.Outcome State Fault Refusal :=
  match s.inputs with
  | [] => .next s
  | .command r :: rest => acceptCommand r (s.setInputs rest)
  | .token :: rest => acceptToken (s.setInputs rest)

/-- The state with the table word `w` where `step` takes its next instruction (logs 4, 9). -/
def State.withFetchWord (s : State) (nbits w : Nat) : State := loadTableWord nbits w s

end Sys2Proof.Machine
end

