-- ==== Sys2Proof/Safety.lean ====
section
/-! DEFINITION. What a sound state is (the invariants of 10_state section 5 and the ranges of its rules), and the words in
which statements about streams are put: the pending bits of the accumulator, the history a backref copies from, and the
bytes a token stands for. -/

namespace Sys2Proof

/-- The instruction is a wire token (R65). -/
def Instr.isToken : Instr → Bool
  | .lit _ => true
  | .bref _ _ => true
  | .encNew _ => false
  | .encSink _ => false
  | .encPoll _ => false
  | .encFinish => false
  | .decNew _ => false
  | .decSink _ => false
  | .decPoll _ => false
  | .decFinish => false

/-- The instruction commands or runs ENC (R75, bit 7 = 0). -/
def Instr.forEnc : Instr → Bool
  | .encNew _ => true
  | .encSink _ => true
  | .encPoll _ => true
  | .encFinish => true
  | .decNew _ => false
  | .decSink _ => false
  | .decPoll _ => false
  | .decFinish => false
  | .lit _ => false
  | .bref _ _ => false

/-- The stream bits of a token (R66, R67); a command has none. -/
def tokenBits (W L : Nat) : Instr → List Bool
  | .lit b => litBits b
  | .bref index count => brefBits W L index count
  | .encNew _ => []
  | .encSink _ => []
  | .encPoll _ => []
  | .encFinish => []
  | .decNew _ => []
  | .decSink _ => []
  | .decPoll _ => []
  | .decFinish => []

/-- The byte `D` back in a history, the last byte being 1 back. -/
def byteBack (history : List Byte) (D : Nat) : Byte := history.getD (history.length - D) 0

/-- The `n` bytes a copy at distance `D` adds to a history, one at a time, so that it may read what it wrote (R63). -/
def copyBytes (D : Nat) : Nat → List Byte → List Byte
  | 0, _ => []
  | n + 1, history =>
    let b := byteBack history D
    b :: copyBytes D n (history ++ [b])

/-- The bytes a token stands for after a history (R66, R68, R69). -/
def expandToken (history : List Byte) : Instr → List Byte
  | .lit b => [b]
  | .bref index count => copyBytes (index + 1) (count + 2) history
  | .encNew _ => []
  | .encSink _ => []
  | .encPoll _ => []
  | .encFinish => []
  | .decNew _ => []
  | .decSink _ => []
  | .decPoll _ => []
  | .decFinish => []

/-- The bytes a list of tokens stands for after a history. -/
def expandTokens : List Byte → List Instr → List Byte
  | _, [] => []
  | history, i :: is => expandToken history i ++ expandTokens (history ++ expandToken history i) is

namespace Machine

/-- One of the four Yield states of ENC (R107 to R111). -/
def EncState.isYield : EncState → Bool
  | .yieldTagBit => true
  | .yieldLiteral => true
  | .yieldBackRefIndex => true
  | .yieldBackRefLength => true
  | .notFull => false
  | .filled => false
  | .search => false
  | .saveBacklog => false
  | .flushBits => false
  | .done => false

/-- Every listed entry of an index memory holds a position of `BUF` (R121). -/
abbrev LinkMemory.positionsBelow (n : Nat) (m : LinkMemory) : Prop := ∀ c ∈ m, c.2.all (fun q => decide (q < n)) = true

/-- What holds of a configured ENC between commands. -/
structure Enc.Sound (e : Enc) : Prop where
  /-- R5, R6 -/
  legal : legalParameters e.W e.L = true
  /-- R23 to R28 -/
  ranges : e.inRange = true
  /-- R29 -/
  bufInside : Memory.below (2 * e.N) e.buf
  /-- R30, R122 -/
  headInside : Memory.below 65536 e.head ∧ LinkMemory.positionsBelow (2 * e.N) e.head
  /-- R30 -/
  nextInside : Memory.below (2 * e.N) e.next ∧ LinkMemory.positionsBelow (2 * e.N) e.next
  /-- R30: the index is absent when `INDEXED = 0` -/
  indexAbsent : e.indexed = false → e.head = [] ∧ e.next = []
  /-- R123, R60: while a block is searched the index is the one of this block -/
  indexFresh : e.indexed = true → e.state = .search ∨ e.state.isYield = true →
    (e.head, e.next) = buildIndex e.buf (e.N + e.inputSize - 1)
  /-- R40 -/
  fullBlock : e.finishing = false → e.state ≠ .notFull → e.inputSize = e.N
  /-- R103 -/
  searching : e.state = .search → e.matchScanIndex ≤ e.inputSize
  /-- R41 -/
  yielding : e.state.isYield = true → e.matchScanIndex < e.inputSize
  /-- R41, R26 -/
  matchInside : e.state.isYield = true → 2 ≤ e.matchLength →
    e.matchScanIndex + e.matchLength ≤ e.inputSize ∧ e.position - e.N ≤ e.matchPos ∧ e.matchPos < e.position
  /-- R107 -/
  literal : e.state = .yieldLiteral → e.matchLength = 0
  /-- R107 -/
  backref : e.state = .yieldBackRefIndex ∨ e.state = .yieldBackRefLength → 2 ≤ e.matchLength
  /-- R41: bits of a field are pending only in a Yield state -/
  pending : e.state.isYield = false → e.outgoingBitsCount = 0
  /-- R27: the unsent bits are the low `outgoing_bits_count` bits -/
  outgoing : e.outgoingBits.toNat < 2 ^ e.outgoingBitsCount
  /-- R28: the free low bits of `current_byte` are 0 -/
  partialByte : e.currentByte.toNat % 2 ^ e.bitIndex = 0
  /-- R113, R114 -/
  flushing : e.state = .flushBits ∨ e.state = .done → e.finishing = true
  /-- R114: in Done no bit is left -/
  flushed : e.state = .done → e.bitIndex = 8

/-- What holds of a configured DEC between commands. -/
structure Dec.Sound (d : Dec) : Prop where
  /-- R5, R6 -/
  legal : legalParameters d.W d.L = true
  /-- R8 -/
  capacity : 1 ≤ d.ibs ∧ d.ibs ≤ 65535
  /-- R33 to R37 -/
  ranges : d.inRange = true
  /-- R38 -/
  winInside : Memory.below d.N d.win
  /-- R39 -/
  inbInside : Memory.below d.ibs d.inb
  /-- R42 -/
  cursors : d.inputIndex < d.inputSize ∨ (d.inputIndex = 0 ∧ d.inputSize = 0)
  /-- R136: entered only when `W > 8` -/
  indexHigh : d.state = .backrefIndexMSB → 8 < d.W
  /-- R136, R137 -/
  indexLow : d.state = .backrefIndexLSB → d.indexAcc.toNat % 256 = 0
  /-- R138: entered only when `L > 8` -/
  countHigh : d.state = .backrefCountMSB → 8 < d.L
  /-- R138, R139 -/
  countLow : d.state = .backrefCountLSB → d.countAcc.toNat % 256 = 0 ∧ (d.L ≤ 8 → d.countAcc = 0)
  /-- R35 -/
  distanceHeld : d.state = .backrefCountMSB ∨ d.state = .backrefCountLSB ∨ d.state = .yieldBackref →
    d.distance = d.indexAcc.toNat + 1
  /-- R36 -/
  copying : d.state = .yieldBackref → 1 ≤ d.outputCount ∧ d.outputIndex + d.outputCount = d.countAcc.toNat + 2

/-- The form of a response (R80, R151): `n ∈ [0, 65535]`; POLL's `out` has `n` bytes and any other is empty; `n` is 0
except for OK, EMPTY and MORE. -/
structure Response.Sound (r : Response) : Prop where
  count : r.n ≤ 65535
  bytes : r.out = [] ∨ r.out.length = r.n ∧ (r.status = .empty ∨ r.status = .more)
  zero : r.status ≠ .ok → r.n = r.out.length

/-- Every memory of the machine is in its canonical form. -/
structure State.MemoryCanonical (s : State) : Prop where
  buf : Memory.wf 0 s.enc.buf
  head : Memory.wf none s.enc.head
  next : Memory.wf none s.enc.next
  win : Memory.wf 0 s.dec.win
  inb : Memory.wf 0 s.dec.inb

/-- A sound state: canonical memories, sound units where they are configured, a response of the right form. -/
structure State.Sound (s : State) : Prop where
  memory : s.MemoryCanonical
  enc : s.enc.cfgValid = true → s.enc.Sound
  dec : s.dec.cfgValid = true → s.dec.Sound
  response : ∀ r, s.response = some r → r.Sound

/-- The positions a chain lists, from an entry on: at most the first number of them (R124). -/
def chainFrom (next : LinkMemory) : Nat → Option Nat → List Nat
  | 0, _ => []
  | _ + 1, none => []
  | left + 1, some q => q :: chainFrom next left (next.read q)

/-- `k` bytes at `q` and at `p` of `BUF` agree. -/
def agree (buf : ByteMemory) (q p k : Nat) : Prop := ∀ j < k, buf.read (q + j) = buf.read (p + j)

/-- The bits pushed but not yet emitted, in stream order: the placed bits of `current_byte`, then the pending field
(R27, R28). -/
def Enc.pendingBits (e : Enc) : List Bool :=
  fieldBits (8 - e.bitIndex) (e.currentByte.toNat >>> e.bitIndex) ++ fieldBits e.outgoingBitsCount e.outgoingBits.toNat

/-- The `n` bytes of `BUF` from `base` on. -/
def Enc.bufBytes (e : Enc) (base n : Nat) : List Byte := (List.range n).map (fun k => e.buf.read (base + k))

/-- The last `N` bytes DEC wrote to `WIN`, oldest first (R34, R38). -/
def Dec.history (d : Dec) : List Byte := (List.range d.N).map (fun k => d.win.read ((d.headIndex + k) % d.N))

/-- DEC is configured, not latched, sound, and at the start of a token. -/
def Dec.betweenTokens (d : Dec) : Prop := d.usable = true ∧ d.Sound ∧ d.state = .tagBit

end Machine

end Sys2Proof
end

