-- ==== Sys2Proof/Certificates/Slice0/Obligations.lean ====
section
/-! DEFINITION. The statements about the model, for the provers. -/

open Sys2Proof Sys2Proof.Machine

/-! ### Encodings -/

/-- R76: the eight legal command words, each with the operand its command takes. -/
def Obligations.CommandWordsDecode : Prop :=
  ∀ (cfg : CfgWord) (src : List Byte) (capacity : Nat),
    decodeCommand ⟨0x00, cfg, src, capacity⟩ = .ok (.encNew cfg) ∧
    decodeCommand ⟨0x01, cfg, src, capacity⟩ = .ok (.encSink src) ∧
    decodeCommand ⟨0x02, cfg, src, capacity⟩ = .ok (.encPoll capacity) ∧
    decodeCommand ⟨0x03, cfg, src, capacity⟩ = .ok .encFinish ∧
    decodeCommand ⟨0x80, cfg, src, capacity⟩ = .ok (.decNew cfg) ∧
    decodeCommand ⟨0x81, cfg, src, capacity⟩ = .ok (.decSink src) ∧
    decodeCommand ⟨0x82, cfg, src, capacity⟩ = .ok (.decPoll capacity) ∧
    decodeCommand ⟨0x83, cfg, src, capacity⟩ = .ok .decFinish

/-- R66, R67 and the field packings of 95 V1.1: LIT 0x61 begins `b0 ff`; BREF d=1 len=2 begins `00 07`; BREF d=256 len=2
begins `7f 87`; at W = 11 BREF d=1 len=15 is `00 0d`. -/
def Obligations.TokenWordsDecode : Prop :=
  decodeToken 8 4 (byteBits 0xB0 ++ byteBits 0xFF) = .ok (.lit 0x61, List.replicate 7 true) ∧
  decodeToken 8 4 (byteBits 0x00 ++ byteBits 0x07) = .ok (.bref 0 0, List.replicate 3 true) ∧
  decodeToken 8 4 (byteBits 0x7F ++ byteBits 0x87) = .ok (.bref 255 0, List.replicate 3 true) ∧
  decodeToken 11 4 (byteBits 0x00 ++ byteBits 0x0D) = .ok (.bref 0 13, [])

/-- R77, R152: the words outside the legal eight are those with any of bits 6 to 2 set; a step on such a word answers
ILLEGAL_COMMAND(0) and changes nothing else. -/
def Obligations.IllegalWordChangesNothing : Prop :=
  (∀ word : Byte,
    word ∉ ([0x00, 0x01, 0x02, 0x03, 0x80, 0x81, 0x82, 0x83] : List Byte) ↔ word.extractLsb' 2 5 ≠ 0) ∧
  ∀ (s : State) (r : Request) (rest : List Input), s.inputs = .command r :: rest →
    r.word ∉ ([0x00, 0x01, 0x02, 0x03, 0x80, 0x81, 0x82, 0x83] : List Byte) →
    step s = .next { s with inputs := rest, response := some ⟨.illegalCommand, 0, []⟩ }

/-- Decoding an encoded well-formed instruction gives it back, with every operand at every value; and a token's bits
followed by any other bits decode to the token and those bits (R66, R67, R73, R76). -/
def Obligations.DecodeEncodeRoundTrip : Prop :=
  ∀ (W L : Nat) (i : Instr), i.wellFormed W L = true →
    decode W L (encode W L i) = .ok i ∧
    (i.isToken = true → ∀ rest, decodeToken W L (tokenBits W L i ++ rest) = .ok (i, rest))

/-- What the token decoder accepts is a well-formed token, and the bits it read are that token's encoding (R66, R67, R73). -/
def Obligations.DecodedTokenHasItsBits : Prop :=
  ∀ (W L : Nat) (bits rest : List Bool) (i : Instr), decodeToken W L bits = .ok (i, rest) →
    i.isToken = true ∧ i.wellFormed W L = true ∧ bits = tokenBits W L i ++ rest

/-- R74: every bit string is a sequence of whole tokens followed by at most one incomplete token. -/
def Obligations.EveryBitStringIsTokens : Prop :=
  ∀ (W L : Nat) (bits : List Bool), ∃ (is : List Instr) (rest : List Bool),
    (∀ i ∈ is, i.isToken = true ∧ i.wellFormed W L = true) ∧
    bits = is.flatMap (tokenBits W L) ++ rest ∧
    decodeToken W L rest = .error .incompleteToken

/-! ### A step runs the decoded instruction -/

/-- A step accepts the oldest request, and is exec of the instruction it decodes to; an operand outside R78's range is
refused (log 6); with nothing pending the state stays (R170). -/
def Obligations.StepRunsDecodedCommand : Prop :=
  (∀ (s : State) (r : Request) (rest : List Input) (i : Instr), s.inputs = .command r :: rest →
    decodeCommand r = .ok i →
    (i.operandInRange = true → step s = exec i { s with inputs := rest }) ∧
    (i.operandInRange = false → step s = .refused .operandOutOfRange)) ∧
  ∀ s : State, s.inputs = [] → step s = .next s

/-- A token step at the start of a token is exec of the token that the bits at DEC's cursor decode to (model's choice of
granularity: log 7). -/
def Obligations.StepRunsDecodedToken : Prop :=
  ∀ (s : State) (rest : List Input) (i : Instr) (bits : List Bool), s.inputs = .token :: rest →
    s.dec.usable = true → s.dec.state = .tagBit →
    decodeToken s.dec.W s.dec.L s.dec.unreadBits = .ok (i, bits) →
    step s = exec i { s with inputs := rest }

/-! ### NEW -/

/-- R96: ENC.NEW accepts, in every state, exactly the configuration words with `W ∈ [8, 15]`, `L ∈ [4, W − 1]` and reserved
bits 0; then every register and memory of ENC has its value after NEW (`draws`, the model's own counter, says nothing of
ENC). Otherwise it responds INVALID_PARAMETER(0) and leaves ENC unconfigured. Nothing outside ENC changes but the response. -/
def Obligations.EncNewConstructsOrRefuses : Prop :=
  ∀ (cfg : CfgWord) (s : State),
    (8 ≤ cfg.toNat % 16 ∧ 4 ≤ cfg.toNat / 16 % 16 ∧ cfg.toNat / 16 % 16 < cfg.toNat % 16 ∧
        cfg.toNat / 512 % 128 = 0 ∧ cfg.toNat / 65536 = 0 →
      exec (.encNew cfg) s = .next { s with
        enc := {
          cfgValid := true, W := cfg.toNat % 16, L := cfg.toNat / 16 % 16, indexed := cfg.toNat / 256 % 2 = 1
          fault := false, state := .notFull, finishing := false, inputSize := 0, matchScanIndex := 0
          matchLength := 0, matchPos := 0, outgoingBits := 0, outgoingBitsCount := 0, currentByte := 0
          bitIndex := 8, buf := [], head := [], next := [], draws := s.enc.draws }
        response := some ⟨.ok, 0, []⟩ }) ∧
    (¬ (8 ≤ cfg.toNat % 16 ∧ 4 ≤ cfg.toNat / 16 % 16 ∧ cfg.toNat / 16 % 16 < cfg.toNat % 16 ∧
        cfg.toNat / 512 % 128 = 0 ∧ cfg.toNat / 65536 = 0) →
      ∃ e : Enc, e.cfgValid = false ∧
        exec (.encNew cfg) s = .next { s with enc := e, response := some ⟨.invalidParameter, 0, []⟩ })

/-- R129: DEC.NEW accepts, in every state, exactly the configuration words with `W ∈ [8, 15]`, `L ∈ [4, W − 1]`,
`cfg[15:8] = 0` and `IBS ≠ 0`; then every register and memory of DEC has its value after NEW (`draws`, the model's own
counter, says nothing of DEC). Otherwise it responds INVALID_PARAMETER(0) and leaves DEC unconfigured. Nothing outside DEC
changes but the response. -/
def Obligations.DecNewConstructsOrRefuses : Prop :=
  ∀ (cfg : CfgWord) (s : State),
    (8 ≤ cfg.toNat % 16 ∧ 4 ≤ cfg.toNat / 16 % 16 ∧ cfg.toNat / 16 % 16 < cfg.toNat % 16 ∧
        cfg.toNat / 256 % 256 = 0 ∧ cfg.toNat / 65536 ≠ 0 →
      exec (.decNew cfg) s = .next { s with
        dec := {
          cfgValid := true, W := cfg.toNat % 16, L := cfg.toNat / 16 % 16, ibs := cfg.toNat / 65536
          fault := false, state := .tagBit, doneReported := false, inputSize := 0, inputIndex := 0
          headIndex := 0, indexAcc := 0, distance := 0, countAcc := 0, outputCount := 0, outputIndex := 0
          currentByte := 0, bitIndex := 0, win := [], inb := [], draws := s.dec.draws }
        response := some ⟨.ok, 0, []⟩ }) ∧
    (¬ (8 ≤ cfg.toNat % 16 ∧ 4 ≤ cfg.toNat / 16 % 16 ∧ cfg.toNat / 16 % 16 < cfg.toNat % 16 ∧
        cfg.toNat / 256 % 256 = 0 ∧ cfg.toNat / 65536 ≠ 0) →
      ∃ d : Dec, d.cfgValid = false ∧
        exec (.decNew cfg) s = .next { s with dec := d, response := some ⟨.invalidParameter, 0, []⟩ })

/-- A NEW that responds INVALID_PARAMETER changes, besides `cfg_valid`, only the registers that R18 and R19 call unspecified
there, which keep their widths, and the model's own counter (R158; model's reading: log 15, log 3). -/
def Obligations.RefusedNewFrame : Prop :=
  ∀ (cfg : CfgWord) (s t : State),
    (exec (.encNew cfg) s = .next t → t.response = some ⟨.invalidParameter, 0, []⟩ →
      t.enc.W < 16 ∧ t.enc.L < 16 ∧
      t = { s with
        enc := { s.enc with
          cfgValid := false, W := t.enc.W, L := t.enc.L, indexed := t.enc.indexed, draws := t.enc.draws }
        response := some ⟨.invalidParameter, 0, []⟩ }) ∧
    (exec (.decNew cfg) s = .next t → t.response = some ⟨.invalidParameter, 0, []⟩ →
      t.dec.W < 16 ∧ t.dec.L < 16 ∧ t.dec.ibs < 65536 ∧
      t = { s with
        dec := { s.dec with
          cfgValid := false, W := t.dec.W, L := t.dec.L, ibs := t.dec.ibs, draws := t.dec.draws }
        response := some ⟨.invalidParameter, 0, []⟩ })

/-! ### SINK -/

/-- R97: ENC.SINK in each of its four cases; in the last, what every index of `BUF` reads as, and that nothing but `BUF`,
`input_size` and the response changes. -/
def Obligations.EncSinkTakesWhatFits : Prop :=
  ∀ (src : List Byte) (s : State), s.MemoryCanonical →
    (s.enc.usable = false → exec (.encSink src) s = .next { s with response := some ⟨.misuse, 0, []⟩ }) ∧
    (s.enc.usable = true → s.enc.finishing = true →
      exec (.encSink src) s =
        .next { s with enc := { s.enc with fault := true }, response := some ⟨.misuse, 0, []⟩ }) ∧
    (s.enc.usable = true → s.enc.finishing = false → 2 ^ s.enc.W ≤ s.enc.inputSize →
      exec (.encSink src) s = .next { s with response := some ⟨.full, 0, []⟩ }) ∧
    (s.enc.usable = true → s.enc.finishing = false → s.enc.inputSize < 2 ^ s.enc.W →
      ∃ buf : ByteMemory,
        exec (.encSink src) s = .next { s with
          enc := { s.enc with
            buf := buf, inputSize := s.enc.inputSize + min src.length (2 ^ s.enc.W - s.enc.inputSize) }
          response := some ⟨.ok, min src.length (2 ^ s.enc.W - s.enc.inputSize), []⟩ } ∧
        (∀ k < min src.length (2 ^ s.enc.W - s.enc.inputSize),
          src[k]? = some (buf.read (2 ^ s.enc.W + s.enc.inputSize + k))) ∧
        ∀ a, (∀ k < min src.length (2 ^ s.enc.W - s.enc.inputSize), a ≠ 2 ^ s.enc.W + s.enc.inputSize + k) →
          buf.read a = s.enc.buf.read a)

/-- R130: DEC.SINK in each of its four cases; in the last, what every index of `INB` reads as, and that nothing but `INB`,
`input_size` and the response changes. -/
def Obligations.DecSinkTakesWhatFits : Prop :=
  ∀ (src : List Byte) (s : State), s.MemoryCanonical →
    (s.dec.usable = false → exec (.decSink src) s = .next { s with response := some ⟨.misuse, 0, []⟩ }) ∧
    (s.dec.usable = true → s.dec.doneReported = true →
      exec (.decSink src) s =
        .next { s with dec := { s.dec with fault := true }, response := some ⟨.misuse, 0, []⟩ }) ∧
    (s.dec.usable = true → s.dec.doneReported = false → s.dec.ibs ≤ s.dec.inputSize →
      exec (.decSink src) s = .next { s with response := some ⟨.full, 0, []⟩ }) ∧
    (s.dec.usable = true → s.dec.doneReported = false → s.dec.inputSize < s.dec.ibs →
      ∃ inb : ByteMemory,
        exec (.decSink src) s = .next { s with
          dec := { s.dec with
            inb := inb, inputSize := s.dec.inputSize + min src.length (s.dec.ibs - s.dec.inputSize) }
          response := some ⟨.ok, min src.length (s.dec.ibs - s.dec.inputSize), []⟩ } ∧
        (∀ k < min src.length (s.dec.ibs - s.dec.inputSize), src[k]? = some (inb.read (s.dec.inputSize + k))) ∧
        ∀ a, (∀ k < min src.length (s.dec.ibs - s.dec.inputSize), a ≠ s.dec.inputSize + k) →
          inb.read a = s.dec.inb.read a)

/-- Two SINKs of one unit leave it as one SINK of both lists does, when the first list fits (R55, R56, R118). -/
def Obligations.SinkInPartsIsSinkOfWhole : Prop :=
  ∀ (a b : List Byte) (s t u : State),
    (s.enc.usable = true → s.enc.finishing = false → s.enc.inputSize + a.length ≤ 2 ^ s.enc.W →
      exec (.encSink a) s = .next t → exec (.encSink b) t = .next u →
      ∃ v, exec (.encSink (a ++ b)) s = .next v ∧ v.enc = u.enc) ∧
    (s.dec.usable = true → s.dec.doneReported = false → s.dec.inputSize + a.length ≤ s.dec.ibs →
      exec (.decSink a) s = .next t → exec (.decSink b) t = .next u →
      ∃ v, exec (.decSink (a ++ b)) s = .next v ∧ v.dec = u.dec)

/-- While ENC searches or emits a block, SINK finds no room and responds FULL (R40). -/
def Obligations.EncSinkFullDuringBlock : Prop :=
  ∀ (src : List Byte) (s : State), s.enc.Sound → s.enc.usable = true → s.enc.finishing = false →
    s.enc.state ≠ .notFull → exec (.encSink src) s = .next { s with response := some ⟨.full, 0, []⟩ }

/-! ### FINISH -/

/-- R99: ENC.FINISH sets `finishing` and responds DONE in state Done, MORE in any other. -/
def Obligations.EncFinishSetsFinishing : Prop :=
  ∀ s : State,
    (s.enc.usable = false → exec .encFinish s = .next { s with response := some ⟨.misuse, 0, []⟩ }) ∧
    (s.enc.usable = true → s.enc.state = .done →
      exec .encFinish s =
        .next { s with enc := { s.enc with finishing := true }, response := some ⟨.done, 0, []⟩ }) ∧
    (s.enc.usable = true → s.enc.state ≠ .done →
      exec .encFinish s =
        .next { s with enc := { s.enc with finishing := true }, response := some ⟨.more, 0, []⟩ })

/-- R132 with R95 and R141: DEC.FINISH responds DONE, and records it, exactly when the pull of the current state would
underflow and every unconsumed input bit is 1; otherwise it responds MORE and changes nothing. -/
def Obligations.DecFinishDetectsEnd : Prop :=
  ∀ s : State, s.dec.Sound →
    (s.dec.usable = false → exec .decFinish s = .next { s with response := some ⟨.misuse, 0, []⟩ }) ∧
    (s.dec.usable = true →
      (∃ w, w = (match s.dec.state with
          | .tagBit => 1
          | .yieldLiteral => 8
          | .backrefIndexMSB => s.dec.W - 8
          | .backrefIndexLSB => 8
          | .backrefCountMSB => s.dec.L - 8
          | .backrefCountLSB => min s.dec.L 8
          | .yieldBackref => 0) ∧
        s.dec.unreadBits.length < w ∧ ∀ b ∈ s.dec.unreadBits, b = true) →
      exec .decFinish s =
        .next { s with dec := { s.dec with doneReported := true }, response := some ⟨.done, 0, []⟩ }) ∧
    (s.dec.usable = true →
      ¬ (∃ w, w = (match s.dec.state with
          | .tagBit => 1
          | .yieldLiteral => 8
          | .backrefIndexMSB => s.dec.W - 8
          | .backrefIndexLSB => 8
          | .backrefCountMSB => s.dec.L - 8
          | .backrefCountLSB => min s.dec.L 8
          | .yieldBackref => 0) ∧
        s.dec.unreadBits.length < w ∧ ∀ b ∈ s.dec.unreadBits, b = true) →
      exec .decFinish s = .next { s with response := some ⟨.more, 0, []⟩ })

/-! ### Errors, flags and independence -/

/-- R154, R156: SINK, POLL and FINISH of a unit that is unconfigured or latched respond MISUSE(0) and change nothing, and
only NEW clears a latch. -/
def Obligations.UnusableUnitRespondsMisuse : Prop :=
  (∀ (s : State) (src : List Byte) (capacity : Nat), s.enc.cfgValid = false ∨ s.enc.fault = true →
    exec (.encSink src) s = .next { s with response := some ⟨.misuse, 0, []⟩ } ∧
    exec (.encPoll capacity) s = .next { s with response := some ⟨.misuse, 0, []⟩ } ∧
    exec .encFinish s = .next { s with response := some ⟨.misuse, 0, []⟩ }) ∧
  (∀ (s : State) (src : List Byte) (capacity : Nat), s.dec.cfgValid = false ∨ s.dec.fault = true →
    exec (.decSink src) s = .next { s with response := some ⟨.misuse, 0, []⟩ } ∧
    exec (.decPoll capacity) s = .next { s with response := some ⟨.misuse, 0, []⟩ } ∧
    exec .decFinish s = .next { s with response := some ⟨.misuse, 0, []⟩ }) ∧
  ∀ (i : Instr) (s t : State), exec i s = .next t →
    ((∀ cfg, i ≠ .encNew cfg) → s.enc.fault = true → t.enc.fault = true) ∧
    ((∀ cfg, i ≠ .decNew cfg) → s.dec.fault = true → t.dec.fault = true)

/-- R155: the two commands that set a fault latch, each with the whole of its effect; no other instruction sets one. -/
def Obligations.LatchingMisuse : Prop :=
  (∀ (s : State) (src : List Byte), s.enc.usable = true → s.enc.finishing = true →
    exec (.encSink src) s =
      .next { s with enc := { s.enc with fault := true }, response := some ⟨.misuse, 0, []⟩ }) ∧
  (∀ (s : State) (src : List Byte), s.dec.usable = true → s.dec.doneReported = true →
    exec (.decSink src) s =
      .next { s with dec := { s.dec with fault := true }, response := some ⟨.misuse, 0, []⟩ }) ∧
  ∀ (i : Instr) (s t : State), exec i s = .next t →
    (s.enc.fault = false → t.enc.fault = true →
      (∃ src, i = .encSink src) ∧ s.enc.usable = true ∧ s.enc.finishing = true) ∧
    (s.dec.fault = false → t.dec.fault = true →
      (∃ src, i = .decSink src) ∧ s.dec.usable = true ∧ s.dec.doneReported = true)

/-- R82: the statuses each command can respond with, and that every command responds. -/
def Obligations.StatusesPerCommand : Prop :=
  ∀ (i : Instr) (s t : State), exec i s = .next t → ∃ r, t.response = some r ∧
    match i with
    | .encNew _ => r.status = .ok ∨ r.status = .invalidParameter
    | .encSink _ => r.status = .ok ∨ r.status = .full ∨ r.status = .misuse
    | .encPoll _ => r.status = .empty ∨ r.status = .more ∨ r.status = .misuse
    | .encFinish => r.status = .more ∨ r.status = .done ∨ r.status = .misuse
    | .decNew _ => r.status = .ok ∨ r.status = .invalidParameter
    | .decSink _ => r.status = .ok ∨ r.status = .full ∨ r.status = .misuse
    | .decPoll _ => r.status = .empty ∨ r.status = .more ∨ r.status = .misuse
    | .decFinish => r.status = .more ∨ r.status = .done ∨ r.status = .misuse
    | .lit _ => r.status = .empty ∨ r.status = .more ∨ r.status = .misuse
    | .bref _ _ => r.status = .empty ∨ r.status = .more ∨ r.status = .misuse

/-- R12, R168: an instruction of one unit leaves the other unit and the pending inputs as they are, and what it does to its
own unit and what it responds depend on that unit alone. -/
def Obligations.UnitsAreIndependent : Prop :=
  ∀ (i : Instr) (s s' t : State), exec i s = .next t →
    t.inputs = s.inputs ∧
    (i.forEnc = true → t.dec = s.dec ∧
      (s'.enc = s.enc → ∃ t', exec i s' = .next t' ∧ t'.enc = t.enc ∧ t'.response = t.response)) ∧
    (i.forEnc = false → t.enc = s.enc ∧
      (s'.dec = s.dec → ∃ t', exec i s' = .next t' ∧ t'.dec = t.dec ∧ t'.response = t.response))

/-- R17 to R19, R22, R32, R44: only NEW writes the configuration registers; only ENC.FINISH and ENC.NEW write
`finishing`; only DEC.FINISH and DEC.NEW write `done_reported`. -/
def Obligations.FlagsHaveTheirWriters : Prop :=
  ∀ (i : Instr) (s t : State), exec i s = .next t →
    ((∀ cfg, i ≠ .encNew cfg) → t.enc.cfgValid = s.enc.cfgValid ∧ t.enc.W = s.enc.W ∧ t.enc.L = s.enc.L ∧
      t.enc.indexed = s.enc.indexed ∧ (i ≠ .encFinish → t.enc.finishing = s.enc.finishing)) ∧
    ((∀ cfg, i ≠ .decNew cfg) → t.dec.cfgValid = s.dec.cfgValid ∧ t.dec.W = s.dec.W ∧ t.dec.L = s.dec.L ∧
      t.dec.ibs = s.dec.ibs ∧ (i ≠ .decFinish → t.dec.doneReported = s.dec.doneReported))

/-! ### ENC.POLL -/

/-- R116 with R98: ENC.POLL of a sound encoder ends within `4·N + 8` micro-steps and completes: MORE with the output
full, or EMPTY where ENC waits for input or is in Done. -/
def Obligations.EncPollCompletes : Prop :=
  ∀ (capacity : Nat) (s : State), s.enc.Sound → s.enc.usable = true →
    ∃ (e : Enc) (out : List Byte) (st : Status),
      pollLoop Enc.microStep (.microStepBound .enc) (4 * 2 ^ s.enc.W + 8) capacity s.enc = .ok (e, out, st) ∧
      exec (.encPoll capacity) s = .next { s with enc := e, response := some ⟨st, out.length, out⟩ } ∧
      ((st = .more ∧ out.length = capacity) ∨
       (st = .empty ∧ out.length ≤ capacity ∧
        (e.state = .done ∨ e.state = .notFull ∧ e.finishing = false ∧ e.inputSize < 2 ^ e.W)))

/-- The frame of ENC.POLL: the other unit, the inputs, the configuration and the flags stay; the high half of `BUF` reads
as before; the low half reads as before, or as the high half did (R61, R98, R113; stale bytes too: log 19). -/
def Obligations.EncPollFrame : Prop :=
  ∀ (capacity : Nat) (s t : State), s.MemoryCanonical → s.enc.Sound → exec (.encPoll capacity) s = .next t →
    t.dec = s.dec ∧ t.inputs = s.inputs ∧
    t.enc.cfgValid = s.enc.cfgValid ∧ t.enc.W = s.enc.W ∧ t.enc.L = s.enc.L ∧ t.enc.indexed = s.enc.indexed ∧
    t.enc.fault = s.enc.fault ∧ t.enc.finishing = s.enc.finishing ∧ t.enc.draws = s.enc.draws ∧
    (∀ a, 2 ^ s.enc.W ≤ a → t.enc.buf.read a = s.enc.buf.read a) ∧
    ((t.enc.inputSize = s.enc.inputSize ∧ ∀ a < 2 ^ s.enc.W, t.enc.buf.read a = s.enc.buf.read a) ∨
     (t.enc.inputSize = 0 ∧ ∀ a < 2 ^ s.enc.W, t.enc.buf.read a = s.enc.buf.read (2 ^ s.enc.W + a)))

/-- A POLL that responds MORE and a second POLL give together what one POLL with both capacities gives (R89, R119). -/
def Obligations.EncPollInPartsIsOnePoll : Prop :=
  ∀ (a b : Nat) (s t u : State) (st : Status) (n : Nat) (out out' : List Byte), s.enc.Sound → s.enc.usable = true →
    exec (.encPoll a) s = .next t → t.response = some ⟨.more, out.length, out⟩ →
    exec (.encPoll b) t = .next u → u.response = some ⟨st, n, out'⟩ →
    exec (.encPoll (a + b)) s = .next { u with response := some ⟨st, (out ++ out').length, out ++ out'⟩ }

/-- R115: before the lookahead is full or FINISH is issued, ENC.POLL emits nothing and changes nothing. -/
def Obligations.EncPollEmptyBeforeFullBlock : Prop :=
  ∀ (capacity : Nat) (s : State), s.enc.Sound → s.enc.usable = true → s.enc.state = .notFull →
    s.enc.finishing = false → s.enc.inputSize < 2 ^ s.enc.W →
    exec (.encPoll capacity) s = .next { s with response := some ⟨.empty, 0, []⟩ }

/-- Once ENC is in Done, every POLL responds EMPTY(0) and every FINISH DONE(0), and SINK is a misuse (R114). -/
def Obligations.EncDoneIsTerminal : Prop :=
  ∀ (capacity : Nat) (src : List Byte) (s : State), s.enc.Sound → s.enc.usable = true → s.enc.state = .done →
    exec (.encPoll capacity) s = .next { s with response := some ⟨.empty, 0, []⟩ } ∧
    exec .encFinish s = .next { s with response := some ⟨.done, 0, []⟩ } ∧
    exec (.encSink src) s =
      .next { s with enc := { s.enc with fault := true }, response := some ⟨.misuse, 0, []⟩ }

/-- A POLL that codes a block and responds EMPTY emits tokens that stand for exactly the lookahead, given the window before
it: the bits pending before and the tokens' bits are the bits emitted and those pending after, and at the end of the
stream 0 to 7 one-bits are added (R91, R103 to R113, R118, R148). -/
def Obligations.EncPollCodesTheBlock : Prop :=
  ∀ (capacity : Nat) (s t : State) (out : List Byte), s.MemoryCanonical → s.enc.Sound → s.enc.usable = true →
    s.enc.state = .notFull → (s.enc.inputSize = 2 ^ s.enc.W ∨ s.enc.finishing = true) →
    exec (.encPoll capacity) s = .next t → t.response = some ⟨.empty, out.length, out⟩ →
    ∃ (is : List Instr) (pad : Nat),
      (∀ i ∈ is, i.isToken = true ∧ i.wellFormed s.enc.W s.enc.L = true) ∧
      expandTokens (s.enc.bufBytes 0 (2 ^ s.enc.W)) is = s.enc.bufBytes (2 ^ s.enc.W) s.enc.inputSize ∧
      s.enc.pendingBits ++ is.flatMap (tokenBits s.enc.W s.enc.L) ++ List.replicate pad true =
        out.flatMap byteBits ++ t.enc.pendingBits ∧
      (s.enc.finishing = false → pad = 0 ∧ t.enc.state = .notFull) ∧
      (s.enc.finishing = true → pad < 8 ∧ t.enc.state = .done ∧ t.enc.pendingBits = [])

/-! ### The encoder's micro-steps -/

/-- The transitions of ENC's FSM: a micro-step that continues takes one of the rows of R100, and one that ends the POLL
stays in its state (what a STALL leaves is log 10); only Search writes the match result (R112). -/
def Obligations.EncMicroStepTransitions : Prop :=
  ∀ (room : Nat) (e : Enc) (t : Turn Enc), e.Sound → e.microStep room = .ok t →
    (t.outcome ≠ .continues → t.unit.state = e.state) ∧
    (t.outcome = .continues → match e.state with
      | .notFull => t.unit.state = .filled ∧ (e.inputSize = 2 ^ e.W ∨ e.finishing = true)
      | .filled => t.unit.state = .search ∧ t.unit.matchScanIndex = 0
      | .search =>
        (t.unit.state = .saveBacklog ∧ e.inputSize ≤ e.matchScanIndex) ∨
        (t.unit.state = .yieldTagBit ∧ e.matchScanIndex < e.inputSize)
      | .yieldTagBit =>
        (t.unit.state = .yieldLiteral ∧ e.matchLength = 0) ∨ (t.unit.state = .yieldBackRefIndex ∧ 2 ≤ e.matchLength)
      | .yieldLiteral =>
        t.unit.matchScanIndex = e.matchScanIndex + 1 ∧
        t.unit.state = if e.inputSize ≤ t.unit.matchScanIndex then .saveBacklog else .search
      | .yieldBackRefIndex => t.unit.state = .yieldBackRefLength
      | .yieldBackRefLength =>
        t.unit.matchScanIndex = e.matchScanIndex + e.matchLength ∧
        t.unit.state = if e.inputSize ≤ t.unit.matchScanIndex then .saveBacklog else .search
      | .saveBacklog => t.unit.state = if e.finishing then .flushBits else .notFull
      | .flushBits => t.unit.state = .done ∧ t.unit.bitIndex = 8
      | .done => False) ∧
    (e.state ≠ .search → t.unit.matchLength = e.matchLength ∧ t.unit.matchPos = e.matchPos)

/-- R104: the search gives the longest match of at least 2 bytes over all candidates in the window, the closest of equals;
where there is none, `(0, 0)`. -/
def Obligations.LongestMatchIsClosestLongest : Prop :=
  ∀ (N : Nat) (buf : ByteMemory) (p maxlen : Nat), N ≤ p →
    (longestMatch N buf p maxlen = (0, 0) ∧
      ∀ q k, p - N ≤ q → q < p → k ≤ maxlen → agree buf q p k → k < 2) ∨
    (2 ≤ (longestMatch N buf p maxlen).1 ∧ (longestMatch N buf p maxlen).1 ≤ maxlen ∧
      p - N ≤ (longestMatch N buf p maxlen).2 ∧ (longestMatch N buf p maxlen).2 < p ∧
      agree buf (longestMatch N buf p maxlen).2 p (longestMatch N buf p maxlen).1 ∧
      (∀ q k, p - N ≤ q → q < p → k ≤ maxlen → agree buf q p k → k ≤ (longestMatch N buf p maxlen).1) ∧
      ∀ q k, (longestMatch N buf p maxlen).2 < q → q < p → k ≤ maxlen → agree buf q p k →
        k < (longestMatch N buf p maxlen).1)

/-- R124: the chain of a key lists every indexed position with that key, once each, in strictly decreasing order, and then
ends. -/
def Obligations.ChainListsThePositions : Prop :=
  ∀ (buf : ByteMemory) (n key left : Nat), n ≤ left →
    chainFrom (buildIndex buf n).2 left ((buildIndex buf n).1.read key) =
      ((List.range n).filter (fun i => prefix2 buf i = key)).reverse

/-- R127: the search through the index of the block reads inside its memories and gives what the linear search gives. -/
def Obligations.IndexedMatchIsLongestMatch : Prop :=
  ∀ (N : Nat) (buf : ByteMemory) (inputSize p maxlen : Nat), inputSize ≤ N → N ≤ p → p + maxlen ≤ N + inputSize →
    indexedMatch N buf (buildIndex buf (N + inputSize - 1)).1 (buildIndex buf (N + inputSize - 1)).2 p maxlen =
      .ok (longestMatch N buf p maxlen)

/-- Search at a byte still to be coded records the longest match of at most `min(M, input_size − msi)` bytes, whichever
search `INDEXED` selects; where there is none `match_length` is 0 and `match_pos` stays. Nothing else changes but the
FSM state (R103, R105, R106, R127). -/
def Obligations.SearchRecordsLongestMatch : Prop :=
  ∀ (room : Nat) (e : Enc), e.Sound → e.state = .search → e.matchScanIndex < e.inputSize →
    e.microStep room = .ok {
      unit := { e with
        matchLength := (longestMatch (2 ^ e.W) e.buf (2 ^ e.W + e.matchScanIndex)
          (min (2 ^ e.L - 1) (e.inputSize - e.matchScanIndex))).1
        matchPos := if (longestMatch (2 ^ e.W) e.buf (2 ^ e.W + e.matchScanIndex)
          (min (2 ^ e.L - 1) (e.inputSize - e.matchScanIndex))).1 = 0 then e.matchPos
          else (longestMatch (2 ^ e.W) e.buf (2 ^ e.W + e.matchScanIndex)
            (min (2 ^ e.L - 1) (e.inputSize - e.matchScanIndex))).2
        state := .yieldTagBit }
      out := []
      outcome := .continues }

/-- A POLL of an encoder with the index responds and ends as the POLL of the same encoder without it: the output is the
same bytes (R117, R123, R127). -/
def Obligations.IndexedPollIsLinearPoll : Prop :=
  ∀ (capacity : Nat) (s t : State), s.enc.Sound → s.enc.usable = true → s.enc.indexed = true →
    exec (.encPoll capacity) s = .next t →
    exec (.encPoll capacity) { s with enc := { s.enc with indexed := false, head := [], next := [] } } =
      .next { t with enc := { t.enc with indexed := false, head := [], next := [] } }

/-- PushField keeps the bit string: the bits it emits and those it leaves pending are those pending before and the field's
bits, MSB first; DONE leaves no field bit pending, and STALL has used every slot. It changes the accumulator only (R86
to R89). -/
def Obligations.PushFieldKeepsTheBits : Prop :=
  ∀ (v w room : Nat) (e : Enc), 1 ≤ w → w ≤ 15 → v < 2 ^ w → e.outgoingBitsCount = 0 →
    1 ≤ e.bitIndex → e.bitIndex ≤ 8 → e.currentByte.toNat % 2 ^ e.bitIndex = 0 →
    (e.pushField v w room).2.1.flatMap byteBits ++ (e.pushField v w room).1.pendingBits =
      e.pendingBits ++ fieldBits w v ∧
    ((e.pushField v w room).2.2 = true →
      (e.pushField v w room).1.outgoingBitsCount = 0 ∧ (e.pushField v w room).2.1.length ≤ room) ∧
    ((e.pushField v w room).2.2 = false →
      0 < (e.pushField v w room).1.outgoingBitsCount ∧ (e.pushField v w room).2.1.length = room) ∧
    { (e.pushField v w room).1 with
      outgoingBits := e.outgoingBits, outgoingBitsCount := e.outgoingBitsCount
      currentByte := e.currentByte, bitIndex := e.bitIndex } = e

/-- R90: FlushPad does nothing without a partial byte, stalls with no slot, and otherwise emits the placed bits followed by
`bit_index` ones and empties the accumulator. -/
def Obligations.FlushPadFillsWithOnes : Prop :=
  ∀ (room : Nat) (e : Enc), 1 ≤ e.bitIndex → e.bitIndex ≤ 8 → e.currentByte.toNat % 2 ^ e.bitIndex = 0 →
    (e.bitIndex = 8 → e.flushPad room = (e, [], true)) ∧
    (e.bitIndex < 8 → room = 0 → e.flushPad room = (e, [], false)) ∧
    (e.bitIndex < 8 → 0 < room → ∃ b : Byte,
      e.flushPad room = ({ e with currentByte := 0, bitIndex := 8 }, [b], true) ∧
      byteBits b =
        fieldBits (8 - e.bitIndex) (e.currentByte.toNat >>> e.bitIndex) ++ List.replicate e.bitIndex true)

/-- R113: SaveBacklog copies the high half of `BUF` to the low half, empties the lookahead, and goes to FlushBits when
finishing, to NotFull otherwise; nothing else changes. -/
def Obligations.SaveBacklogSlidesTheWindow : Prop :=
  ∀ (room : Nat) (e : Enc), e.Sound → Memory.wf 0 e.buf → e.state = .saveBacklog →
    ∃ buf : ByteMemory,
      e.microStep room = .ok {
        unit := { e with
          buf := buf, inputSize := 0, state := if e.finishing = true then .flushBits else .notFull }
        out := []
        outcome := .continues } ∧
      (∀ k < 2 ^ e.W, buf.read k = e.buf.read (2 ^ e.W + k)) ∧
      ∀ a, 2 ^ e.W ≤ a → buf.read a = e.buf.read a

/-- What the two backref states push, and that it fits. In YieldBackRefIndex the distance `D = p − match_pos` is in `[1, N]`
and in YieldBackRefLength the match is one of at least 2 bytes inside the lookahead, its field at most `2^L − 3` (R41, R68,
R69). A micro-step with no field in progress emits, and leaves pending, the bits pending before and then the `W` bits of
`D − 1` (R110), or the `L` bits of `match_length − 2` (R111). -/
def Obligations.BackrefFieldsFit : Prop :=
  ∀ (room : Nat) (e : Enc), e.Sound →
    (e.state = .yieldBackRefIndex →
      1 ≤ 2 ^ e.W + e.matchScanIndex - e.matchPos ∧ 2 ^ e.W + e.matchScanIndex - e.matchPos ≤ 2 ^ e.W ∧
      (e.outgoingBitsCount = 0 → ∃ t, e.microStep room = .ok t ∧
        t.out.flatMap byteBits ++ t.unit.pendingBits =
          e.pendingBits ++ fieldBits e.W (2 ^ e.W + e.matchScanIndex - e.matchPos - 1))) ∧
    (e.state = .yieldBackRefLength →
      2 ≤ e.matchLength ∧ e.matchLength - 2 ≤ 2 ^ e.L - 3 ∧ e.matchScanIndex + e.matchLength ≤ e.inputSize ∧
      (e.outgoingBitsCount = 0 → ∃ t, e.microStep room = .ok t ∧
        t.out.flatMap byteBits ++ t.unit.pendingBits = e.pendingBits ++ fieldBits e.L (e.matchLength - 2)))

/-! ### DEC -/

/-- R93 (with R42, R92): a pull of too few bits changes nothing; any other pull takes the next `w` unconsumed bits, most
significant first, and only the cursors, `current_byte` and `bit_index` change. -/
def Obligations.PullReadsTheNextBits : Prop :=
  ∀ (w : Nat) (d : Dec), d.Sound → w ≤ 8 →
    d.unreadBits.length = d.bitIndex + 8 * (d.inputSize - d.inputIndex) ∧
    (d.unreadBits.length < w → d.pull w = .ok none) ∧
    (w ≤ d.unreadBits.length → ∃ d' : Dec,
      d.pull w = .ok (some (bitsValue (d.unreadBits.take w), d')) ∧
      d'.unreadBits = d.unreadBits.drop w ∧
      (d'.inputIndex < d'.inputSize ∨ (d'.inputIndex = 0 ∧ d'.inputSize = 0)) ∧
      { d' with
        inputIndex := d.inputIndex, inputSize := d.inputSize
        currentByte := d.currentByte, bitIndex := d.bitIndex } = d)

/-- R133: the transitions of DEC's FSM; a micro-step that stalls or underflows changes no register and emits nothing, and a
stall needs an output slot. -/
def Obligations.DecMicroStepTransitions : Prop :=
  ∀ (room : Nat) (d : Dec) (t : Turn Dec), d.Sound → d.microStep asPulled room = .ok t →
    (t.outcome ≠ .continues → t.unit = d ∧ t.out = [] ∧
      (t.outcome = .stall ∧ room = 0 ∧ (d.state = .yieldLiteral ∨ d.state = .yieldBackref) ∨
       t.outcome = .underflow ∧ ∃ w, d.pullWidth = some w ∧ d.unreadBits.length < w)) ∧
    (t.outcome = .continues → match d.state with
      | .tagBit => (d.unreadBits.head? = some true ∧ t.unit.state = .yieldLiteral) ∨
          (d.unreadBits.head? = some false ∧ 8 < d.W ∧ t.unit.state = .backrefIndexMSB) ∨
          (d.unreadBits.head? = some false ∧ d.W = 8 ∧ t.unit.state = .backrefIndexLSB)
      | .yieldLiteral => t.unit.state = .tagBit
      | .backrefIndexMSB => t.unit.state = .backrefIndexLSB
      | .backrefIndexLSB => t.unit.state = if 8 < d.L then .backrefCountMSB else .backrefCountLSB
      | .backrefCountMSB => t.unit.state = .backrefCountLSB
      | .backrefCountLSB => t.unit.state = .yieldBackref
      | .yieldBackref => t.unit.outputCount = d.outputCount - 1 ∧
          t.unit.state = if 0 < t.unit.outputCount then .yieldBackref else .tagBit)

/-- R149 with R131, R142: DEC.POLL of a sound decoder ends within `capacity + 8·IBS + 9` micro-steps and completes: MORE
with the output full, waiting to emit; or EMPTY, with fewer bits left than the state pulls. -/
def Obligations.DecPollCompletes : Prop :=
  ∀ (capacity : Nat) (s : State), s.dec.Sound → s.dec.usable = true →
    ∃ (d : Dec) (out : List Byte) (st : Status),
      pollLoop (Dec.microStep asPulled) (.microStepBound .dec) (capacity + 8 * s.dec.ibs + 9) capacity s.dec =
        .ok (d, out, st) ∧
      exec (.decPoll capacity) s = .next { s with dec := d, response := some ⟨st, out.length, out⟩ } ∧
      ((st = .more ∧ out.length = capacity ∧ (d.state = .yieldLiteral ∨ d.state = .yieldBackref)) ∨
       (st = .empty ∧ out.length ≤ capacity ∧ ∃ w, d.pullWidth = some w ∧ d.unreadBits.length < w))

/-- The frame of DEC.POLL: the other unit, the inputs, the configuration and the flags stay, every byte of `INB` reads as
before, `head_index` advances by the bytes emitted, the last `N` of them are in `WIN`, and every other byte of `WIN`
reads as before (R34, R131, R135, R140; stale bytes of `INB` too: log 19). -/
def Obligations.DecPollFrame : Prop :=
  ∀ (capacity : Nat) (s t : State) (st : Status) (n : Nat) (out : List Byte), s.MemoryCanonical → s.dec.Sound →
    s.dec.usable = true → exec (.decPoll capacity) s = .next t → t.response = some ⟨st, n, out⟩ →
    t.enc = s.enc ∧ t.inputs = s.inputs ∧
    t.dec.cfgValid = s.dec.cfgValid ∧ t.dec.W = s.dec.W ∧ t.dec.L = s.dec.L ∧ t.dec.ibs = s.dec.ibs ∧
    t.dec.fault = s.dec.fault ∧ t.dec.doneReported = s.dec.doneReported ∧ t.dec.draws = s.dec.draws ∧
    (∀ a, t.dec.inb.read a = s.dec.inb.read a) ∧
    t.dec.headIndex = (s.dec.headIndex + out.length) % 2 ^ s.dec.W ∧
    (∀ k < out.length, out.length ≤ k + 2 ^ s.dec.W →
      out[k]? = some (t.dec.win.read ((s.dec.headIndex + k) % 2 ^ s.dec.W))) ∧
    ∀ a, (∀ k < out.length, a ≠ (s.dec.headIndex + k) % 2 ^ s.dec.W) → t.dec.win.read a = s.dec.win.read a

/-- A POLL that responds MORE and a second POLL give together what one POLL with both capacities gives (R147). -/
def Obligations.DecPollInPartsIsOnePoll : Prop :=
  ∀ (a b : Nat) (s t u : State) (st : Status) (n : Nat) (out out' : List Byte), s.dec.Sound → s.dec.usable = true →
    exec (.decPoll a) s = .next t → t.response = some ⟨.more, out.length, out⟩ →
    exec (.decPoll b) t = .next u → u.response = some ⟨st, n, out'⟩ →
    exec (.decPoll (a + b)) s = .next { u with response := some ⟨st, (out ++ out').length, out ++ out'⟩ }

/-! ### The tokens -/

/-- LIT b at the start of a token, with its 9 bits there: DEC emits b into the output and `WIN`, `head_index` advances
modulo `N`, the 9 bits are consumed, and DEC is between tokens again; every other register and memory stays (R66, R134,
R135; the EMPTY response of a lone token is the model's: log 7). -/
def Obligations.LitTokenEmitsItsByte : Prop :=
  ∀ (b : Byte) (s : State), s.MemoryCanonical → s.dec.betweenTokens → 9 ≤ s.dec.unreadBits.length →
    ∃ d : Dec,
      exec (.lit b) s = .next { s with dec := d, response := some ⟨.empty, 1, [b]⟩ } ∧
      d.unreadBits = s.dec.unreadBits.drop 9 ∧
      d.headIndex = (s.dec.headIndex + 1) % 2 ^ s.dec.W ∧
      d.win.read s.dec.headIndex = b ∧
      (∀ a, a ≠ s.dec.headIndex → d.win.read a = s.dec.win.read a) ∧
      { d with
        win := s.dec.win, headIndex := s.dec.headIndex, inputIndex := s.dec.inputIndex
        inputSize := s.dec.inputSize, currentByte := s.dec.currentByte, bitIndex := s.dec.bitIndex } = s.dec

/-- BREF at the start of a token, with its `1 + W + L` bits there: DEC copies `count + 2` bytes from the distance
`index + 1`, each byte read before the next is written, into the output and `WIN`; the registers of the backref hold what
its states leave, the token's bits are consumed, and DEC is between tokens again; every other register and memory stays
(R62, R63, R67 to R69, R134, R136 to R140; the EMPTY response of a lone token is the model's: log 7). -/
def Obligations.BrefTokenCopiesFromTheWindow : Prop :=
  ∀ (index count : Nat) (s : State), s.MemoryCanonical → s.dec.betweenTokens → index < 2 ^ s.dec.W →
    count < 2 ^ s.dec.L → 1 + s.dec.W + s.dec.L ≤ s.dec.unreadBits.length →
    ∃ (d : Dec) (out : List Byte),
      exec (.bref index count) s = .next { s with dec := d, response := some ⟨.empty, count + 2, out⟩ } ∧
      out.length = count + 2 ∧
      (∀ k < count + 2, out[k]? = some (if k < index + 1
        then s.dec.win.read ((s.dec.headIndex + k + 2 ^ s.dec.W - (index + 1)) % 2 ^ s.dec.W)
        else out.getD (k - (index + 1)) 0)) ∧
      (∀ k < count + 2, out[k]? = some (d.win.read ((s.dec.headIndex + k) % 2 ^ s.dec.W))) ∧
      (∀ a, (∀ k < count + 2, a ≠ (s.dec.headIndex + k) % 2 ^ s.dec.W) → d.win.read a = s.dec.win.read a) ∧
      d.unreadBits = s.dec.unreadBits.drop (1 + s.dec.W + s.dec.L) ∧
      d.headIndex = (s.dec.headIndex + count + 2) % 2 ^ s.dec.W ∧
      d.indexAcc.toNat = index ∧ d.distance = index + 1 ∧ d.countAcc.toNat = count ∧
      d.outputCount = 0 ∧ d.outputIndex = count + 2 ∧
      { d with
        win := s.dec.win, headIndex := s.dec.headIndex, inputIndex := s.dec.inputIndex
        inputSize := s.dec.inputSize, currentByte := s.dec.currentByte, bitIndex := s.dec.bitIndex
        indexAcc := s.dec.indexAcc, distance := s.dec.distance, countAcc := s.dec.countAcc
        outputCount := s.dec.outputCount, outputIndex := s.dec.outputIndex } = s.dec

/-- Where a token is executed that DEC cannot take: an unconfigured or latched DEC responds MISUSE(0) as it does to any of
its commands (R154, R156), and inside another token the model refuses it (model's choice: log 8). -/
def Obligations.TokenOutOfPlace : Prop :=
  ∀ (i : Instr) (s : State), i.isToken = true →
    (s.dec.usable = false → exec i s = .next { s with response := some ⟨.misuse, 0, []⟩ }) ∧
    (s.dec.usable = true → s.dec.state ≠ .tagBit → exec i s = .refused .notAtTokenBoundary)

/-- DEC.POLL with a whole token at its cursor and slots for its bytes is: execute the token, then POLL with the slots that
are left (R65, R131, R134 to R140; the lone token is the model's: log 7). -/
def Obligations.DecPollRunsTheNextToken : Prop :=
  ∀ (capacity n : Nat) (i : Instr) (rest : List Bool) (s t u : State) (st : Status) (out out' : List Byte),
    s.dec.betweenTokens → decodeToken s.dec.W s.dec.L s.dec.unreadBits = .ok (i, rest) →
    exec i s = .next t → t.response = some ⟨.empty, out.length, out⟩ → out.length ≤ capacity →
    exec (.decPoll (capacity - out.length)) t = .next u → u.response = some ⟨st, n, out'⟩ →
    exec (.decPoll capacity) s = .next { u with response := some ⟨st, (out ++ out').length, out ++ out'⟩ }

/-- DEC decodes a whole stream: with the bits of any tokens and at most 7 one-bits of padding unconsumed, one POLL with a
slot to spare emits exactly the bytes the tokens stand for after the window's history and responds EMPTY, and FINISH then
responds DONE (R65, R70, R142, R143, R147). -/
def Obligations.DecPollExpandsTheStream : Prop :=
  ∀ (capacity pad : Nat) (is : List Instr) (s : State), s.MemoryCanonical → s.dec.betweenTokens →
    (∀ i ∈ is, i.isToken = true ∧ i.wellFormed s.dec.W s.dec.L = true) → pad < 8 →
    s.dec.unreadBits = is.flatMap (tokenBits s.dec.W s.dec.L) ++ List.replicate pad true →
    (expandTokens s.dec.history is).length < capacity →
    ∃ d : Dec,
      exec (.decPoll capacity) s = .next { s with
        dec := d
        response := some
          ⟨.empty, (expandTokens s.dec.history is).length, expandTokens s.dec.history is⟩ } ∧
      exec .decFinish { s with dec := d } =
        .next { s with dec := { d with doneReported := true }, response := some ⟨.done, 0, []⟩ }

/-- The last block's round trip (the whole input, where it fits one block): where DEC's window history is ENC's window and
no bit is in flight between them, the bytes that ENC.POLL emits for the block, sunk into DEC, make DEC.POLL emit the
block, and DEC.FINISH then responds DONE (R91, R143, R148). -/
def Obligations.BlockRoundTrips : Prop :=
  ∀ (c c' : Nat) (s t u v : State) (out : List Byte), s.MemoryCanonical → s.enc.Sound → s.enc.usable = true →
    s.enc.state = .notFull → s.enc.finishing = true → s.dec.betweenTokens → s.dec.W = s.enc.W → s.dec.L = s.enc.L →
    s.enc.bufBytes 0 (2 ^ s.enc.W) = s.dec.history → s.enc.pendingBits = [] → s.dec.unreadBits = [] →
    exec (.encPoll c) s = .next t → t.response = some ⟨.empty, out.length, out⟩ →
    exec (.decSink out) t = .next u → u.response = some ⟨.ok, out.length, []⟩ →
    s.enc.inputSize < c' → exec (.decPoll c') u = .next v →
    v.response = some ⟨.empty, s.enc.inputSize, s.enc.bufBytes (2 ^ s.enc.W) s.enc.inputSize⟩ ∧
    exec .decFinish v =
      .next { v with dec := { v.dec with doneReported := true }, response := some ⟨.done, 0, []⟩ }

/-! ### Invariants -/

/-- The machine after power-on is sound, and both units are unconfigured (R171). That no request is pending is the model's
choice (log 4), and so is that no response is held (log 16); soundness rests on the memories listing nothing (log 2). -/
def Obligations.ResetIsSound : Prop :=
  State.reset.Sound ∧ State.reset.enc.cfgValid = false ∧ State.reset.dec.cfgValid = false ∧
  State.reset.inputs = [] ∧ State.reset.response = none

/-- Every step keeps soundness: the canonical memories, the register ranges of R23 to R37, the invariants of R40 to R42,
the freshness of the index (R123) and the form of a response (R80). -/
def Obligations.StepKeepsSound : Prop :=
  ∀ s t : State, s.Sound → step s = .next t → t.Sound

/-- From a sound state no step faults: it answers a next state, but for an operand outside the range of R78, which is
refused (R17, R15, R116, R149, R160; log 6). -/
def Obligations.SoundStepNeverFaults : Prop :=
  ∀ s : State, s.Sound →
    (∃ t, step s = .next t) ∨
    (step s = .refused .operandOutOfRange ∧ ∃ (r : Request) (rest : List Input) (i : Instr),
      s.inputs = .command r :: rest ∧ decodeCommand r = .ok i ∧ i.operandInRange = false)
end

