-- ==== Sys2Proof/Laws/Decode.lean ====
section
/-! SUPPORT. Bit strings in stream order: their lengths, and that a field's bits stand for its value. -/

namespace Sys2Proof

@[simp] theorem fieldBits_length (w v : Nat) : (fieldBits w v).length = w := by
  induction w with
  | zero => rfl
  | succ w ih => simp [fieldBits, ih]

@[simp] theorem byteBits_length (b : Byte) : (byteBits b).length = 8 := fieldBits_length 8 _

/-- The value of a bit string with further bits before it. -/
theorem bitsValue_foldl (bits : List Bool) (v : Nat) :
    bits.foldl (fun v b => 2 * v + b.toNat) v = v * 2 ^ bits.length + bitsValue bits := by
  unfold bitsValue
  induction bits generalizing v with
  | nil => simp
  | cons b bits ih =>
    simp only [List.foldl_cons, List.length_cons]
    rw [ih (2 * v + b.toNat), ih (2 * 0 + b.toNat), Nat.pow_succ]
    ring

/-- A bit string's value, its first bit split off. -/
theorem bitsValue_cons (b : Bool) (bits : List Bool) :
    bitsValue (b :: bits) = b.toNat * 2 ^ bits.length + bitsValue bits := by
  have h := bitsValue_foldl bits (2 * 0 + b.toNat)
  simpa [bitsValue] using h

/-- The `w` bits of `v` stand for the `w` low bits of `v` (R14). -/
theorem bitsValue_fieldBits (w v : Nat) : bitsValue (fieldBits w v) = v % 2 ^ w := by
  induction w with
  | zero => simp [fieldBits, bitsValue, Nat.mod_one]
  | succ w ih =>
    rw [fieldBits, bitsValue_cons, ih, fieldBits_length]
    have hbit : (v.testBit w).toNat = v / 2 ^ w % 2 := by
      rw [Nat.testBit_eq_decide_div_mod_eq]
      have := Nat.mod_two_eq_zero_or_one (v / 2 ^ w)
      rcases this with h | h <;> simp [h]
    rw [hbit, Nat.pow_succ, Nat.mod_mul]
    ring

/-- A bit string of `w` bits stands for a number below `2^w`. -/
theorem bitsValue_lt (bits : List Bool) : bitsValue bits < 2 ^ bits.length := by
  induction bits with
  | nil => simp [bitsValue]
  | cons b bits ih =>
    rw [bitsValue_cons, List.length_cons, Nat.pow_succ]
    have hb : b.toNat ≤ 1 := Bool.toNat_le b
    have : b.toNat * 2 ^ bits.length ≤ 1 * 2 ^ bits.length := Nat.mul_le_mul_right _ hb
    omega

end Sys2Proof
end

