-- ==== Sys2Proof/Laws/Memory.lean ====
section
/-! SUPPORT. The laws of the memories: read after write, what a write leaves alone, and that every memory operation keeps
the canonical form and the size. -/

namespace Sys2Proof.Machine

variable {α : Type}

/-- Below every listed index a canonical memory reads as the default. -/
theorem Memory.read_of_lt (d : α) {m : Memory α} {a : Nat} (h : ∀ c ∈ m, a < c.1) : Memory.read d m a = d := by
  cases m with
  | nil => rfl
  | cons c m =>
    obtain ⟨k, v⟩ := c
    have hk : a < k := h (k, v) (by simp)
    simp [Memory.read, hk, Nat.ne_of_lt hk]

/-- Reading the index just written gives the value written. -/
theorem Memory.read_write_same [DecidableEq α] (d : α) {m : Memory α}
    (h : m.Pairwise (fun c c' => c.1 < c'.1)) (a : Nat) (v : α) :
    Memory.read d (Memory.write d m a v) a = v := by
  induction m with
  | nil =>
    by_cases hv : v = d <;> simp [Memory.write, Memory.read, hv]
  | cons c m ih =>
    obtain ⟨k, w⟩ := c
    rw [List.pairwise_cons] at h
    rcases Nat.lt_trichotomy a k with hlt | heq | hgt
    · by_cases hv : v = d <;> simp [Memory.write, Memory.read, hlt, hv, Nat.ne_of_lt hlt]
    · subst heq
      by_cases hv : v = d
      · have := Memory.read_of_lt d (m := m) (a := a) (fun c hc => h.1 c hc)
        simp [Memory.write, hv, this]
      · simp [Memory.write, Memory.read, hv]
    · have h1 : ¬ a < k := by omega
      have h2 : ¬ a = k := by omega
      simp [Memory.write, Memory.read, h1, h2, ih h.2]

/-- Reading any other index gives what it gave before. -/
theorem Memory.read_write_ne [DecidableEq α] (d : α) {m : Memory α}
    (h : m.Pairwise (fun c c' => c.1 < c'.1)) {a b : Nat} (hab : b ≠ a) (v : α) :
    Memory.read d (Memory.write d m a v) b = Memory.read d m b := by
  induction m with
  | nil =>
    by_cases hv : v = d <;> simp [Memory.write, Memory.read, hv, hab]
  | cons c m ih =>
    obtain ⟨k, w⟩ := c
    rw [List.pairwise_cons] at h
    rcases Nat.lt_trichotomy a k with hlt | heq | hgt
    · by_cases hv : v = d
      · simp [Memory.write, hlt, hv]
      · by_cases hb : b < a
        · have : b ≠ k := by omega
          have : b < k := by omega
          simp [Memory.write, Memory.read, *]
        · simp [Memory.write, Memory.read, hlt, hv, hab, hb]
    · subst heq
      by_cases hv : v = d
      · by_cases hb : b < a
        · have := Memory.read_of_lt d (m := m) (a := b) (fun c hc => Nat.lt_trans hb (h.1 c hc))
          simp [Memory.write, Memory.read, hv, hab, hb, this]
        · simp [Memory.write, Memory.read, hv, hab, hb]
      · simp [Memory.write, Memory.read, hv, hab]
    · have h1 : ¬ a < k := by omega
      have h2 : ¬ a = k := by omega
      simp only [Memory.write, h1, h2, if_false, Memory.read, ih h.2]

/-- An entry of the memory after a write is the written one or an old one. -/
theorem Memory.mem_write [DecidableEq α] {d : α} {m : Memory α} {a : Nat} {v : α} {c : Nat × α}
    (hc : c ∈ Memory.write d m a v) : c = (a, v) ∧ v ≠ d ∨ c ∈ m := by
  induction m with
  | nil =>
    by_cases hv : v = d
    · simp [Memory.write, hv] at hc
    · simp [Memory.write, hv] at hc
      exact .inl ⟨hc, hv⟩
  | cons x m ih =>
    obtain ⟨k, w⟩ := x
    unfold Memory.write at hc
    split at hc
    · split at hc
      · exact .inr hc
      · next hv => exact (List.mem_cons.1 hc).imp (fun h => ⟨h, hv⟩) id
    · split at hc
      · split at hc
        · exact .inr (List.mem_cons_of_mem _ hc)
        · next hv => exact (List.mem_cons.1 hc).imp (fun h => ⟨h, hv⟩) (List.mem_cons_of_mem _)
      · rcases List.mem_cons.1 hc with h | h
        · exact .inr (h ▸ List.mem_cons_self)
        · exact (ih h).imp id (List.mem_cons_of_mem _)

/-- A write keeps the canonical form. -/
theorem Memory.write_wf [DecidableEq α] {d : α} {m : Memory α} (h : Memory.wf d m) (a : Nat) (v : α) :
    Memory.wf d (Memory.write d m a v) := by
  refine ⟨?_, fun c hc => ?_⟩
  · have hs := h.1
    clear h
    induction m with
    | nil => by_cases hv : v = d <;> simp [Memory.write, hv]
    | cons x m ih =>
      obtain ⟨k, w⟩ := x
      have hs' := hs
      rw [List.pairwise_cons] at hs'
      unfold Memory.write
      split
      · next hlt =>
        split
        · exact hs
        · refine List.pairwise_cons.2 ⟨fun c hc => ?_, hs⟩
          rcases List.mem_cons.1 hc with rfl | hc
          · exact hlt
          · exact Nat.lt_trans hlt (hs'.1 c hc)
      · next hlt =>
        split
        · next heq =>
          split
          · exact hs'.2
          · exact List.pairwise_cons.2 ⟨fun c hc => heq ▸ hs'.1 c hc, hs'.2⟩
        · next hne =>
          refine List.pairwise_cons.2 ⟨fun c hc => ?_, ih hs'.2⟩
          rcases Memory.mem_write hc with ⟨rfl, -⟩ | hc
          · simp only; omega
          · exact hs'.1 c hc
  · rcases Memory.mem_write hc with ⟨rfl, hv⟩ | hc
    · exact hv
    · exact h.2 c hc

/-- A write inside a memory keeps its size. -/
theorem Memory.write_below [DecidableEq α] {d : α} {m : Memory α} {n a : Nat} (h : Memory.below n m) (ha : a < n)
    (v : α) : Memory.below n (Memory.write d m a v) := fun c hc => by
  rcases Memory.mem_write hc with ⟨rfl, -⟩ | hc
  · exact ha
  · exact h c hc

/-- Writing a list keeps the canonical form. -/
theorem Memory.writeList_wf [DecidableEq α] {d : α} {m : Memory α} (h : Memory.wf d m) (base : Nat) (vs : List α) :
    Memory.wf d (Memory.writeList d m base vs) := by
  induction vs generalizing m base with
  | nil => exact h
  | cons v vs ih => exact ih (Memory.write_wf h base v) (base + 1)

/-- Writing a list inside a memory keeps its size. -/
theorem Memory.writeList_below [DecidableEq α] {d : α} {m : Memory α} {n base : Nat} {vs : List α}
    (h : Memory.below n m) (hb : base + vs.length ≤ n) : Memory.below n (Memory.writeList d m base vs) := by
  induction vs generalizing m base with
  | nil => exact h
  | cons v vs ih =>
    rw [List.length_cons] at hb
    exact ih (Memory.write_below h (by omega) v) (by omega)

/-- What every index reads as after a list is written. -/
theorem Memory.read_writeList [DecidableEq α] (d : α) {m : Memory α} (h : Memory.wf d m) (base : Nat) (vs : List α)
    (a : Nat) :
    Memory.read d (Memory.writeList d m base vs) a =
      if base ≤ a ∧ a < base + vs.length then vs.getD (a - base) d else Memory.read d m a := by
  induction vs generalizing m base with
  | nil =>
    have : ¬ (base ≤ a ∧ a < base + ([] : List α).length) := by simp
    rw [if_neg this]
    rfl
  | cons v vs ih =>
    have hstep := ih (Memory.write_wf h base v) (base + 1)
    rw [Memory.writeList, hstep, List.length_cons]
    by_cases hab : a = base
    · subst hab
      have h1 : ¬ (a + 1 ≤ a ∧ a < a + 1 + vs.length) := by omega
      have h2 : a ≤ a ∧ a < a + (vs.length + 1) := by omega
      simp [h2, Memory.read_write_same d h.1]
    · rw [Memory.read_write_ne d h.1 hab]
      by_cases h1 : base + 1 ≤ a ∧ a < base + 1 + vs.length
      · have h2 : base ≤ a ∧ a < base + (vs.length + 1) := by omega
        have h3 : a - base = (a - (base + 1)) + 1 := by omega
        rw [if_pos h1, if_pos h2, h3, List.getD_cons_succ]
      · have h2 : ¬ (base ≤ a ∧ a < base + (vs.length + 1)) := by omega
        rw [if_neg h1, if_neg h2]

/-- An entry of a slid memory comes from one of the upper part. -/
theorem Memory.mem_slide {n : Nat} {m : Memory α} {c : Nat × α} (hc : c ∈ Memory.slide n m) :
    ∃ c' ∈ m, n ≤ c'.1 ∧ (c = (c'.1 - n, c'.2) ∨ c = c') := by
  simp only [Memory.slide, List.mem_append, List.mem_map, List.mem_filter, decide_eq_true_eq] at hc
  rcases hc with ⟨c', ⟨hm, hn⟩, rfl⟩ | ⟨hm, hn⟩
  · exact ⟨c', hm, hn, .inl rfl⟩
  · exact ⟨c, hm, hn, .inr rfl⟩

/-- A slide keeps the canonical form of a memory of `2n` entries. -/
theorem Memory.slide_wf [DecidableEq α] {d : α} {n : Nat} {m : Memory α} (h : Memory.wf d m)
    (hb : Memory.below (2 * n) m) : Memory.wf d (Memory.slide n m) := by
  refine ⟨?_, fun c hc => ?_⟩
  · have hf : (m.filter (fun c => n ≤ c.1)).Pairwise (fun c c' => c.1 < c'.1) := h.1.filter _
    refine List.pairwise_append.2 ⟨List.pairwise_map.2 (hf.imp_of_mem ?_), hf, ?_⟩
    · intro c c' hc hc' hlt
      have h1 : n ≤ c.1 := by simpa using (List.mem_filter.1 hc).2
      have h2 : n ≤ c'.1 := by simpa using (List.mem_filter.1 hc').2
      simp only
      omega
    · intro c hc c' hc'
      obtain ⟨x, hx, rfl⟩ := List.mem_map.1 hc
      have h1 := hb x (List.mem_filter.1 hx).1
      have h2 : n ≤ c'.1 := by simpa using (List.mem_filter.1 hc').2
      have h3 : n ≤ x.1 := by simpa using (List.mem_filter.1 hx).2
      simp only
      omega
  · obtain ⟨c', hm, -, rfl | rfl⟩ := Memory.mem_slide hc
    · exact h.2 c' hm
    · exact h.2 c hm

/-- A slide keeps the size. -/
theorem Memory.slide_below {n : Nat} {m : Memory α} (hb : Memory.below (2 * n) m) :
    Memory.below (2 * n) (Memory.slide n m) := fun c hc => by
  obtain ⟨c', hm, hn, rfl | rfl⟩ := Memory.mem_slide hc
  · have := hb c' hm
    simp only
    omega
  · exact hb c hm

/-- The upper part of a memory reads as the whole does from `n` on. -/
theorem Memory.read_filter (d : α) {m : Memory α} (h : m.Pairwise (fun c c' => c.1 < c'.1)) (n : Nat) {a : Nat}
    (ha : n ≤ a) : Memory.read d (m.filter (fun c => n ≤ c.1)) a = Memory.read d m a := by
  induction m with
  | nil => rfl
  | cons c m ih =>
    obtain ⟨k, v⟩ := c
    rw [List.pairwise_cons] at h
    by_cases hk : n ≤ k
    · have : ((k, v) :: m).filter (fun c => n ≤ c.1) = (k, v) :: m.filter (fun c => n ≤ c.1) := by simp [hk]
      rw [this]
      simp only [Memory.read, ih h.2]
    · have : ((k, v) :: m).filter (fun c => n ≤ c.1) = m.filter (fun c => n ≤ c.1) := by simp [hk]
      have h1 : ¬ a = k := by omega
      have h2 : ¬ a < k := by omega
      rw [this, ih h.2]
      simp only [Memory.read, h1, h2, if_false]

/-- The lower copy of a slide reads as the upper part did. -/
theorem Memory.read_map_sub (d : α) {m : Memory α} {n : Nat} (hn : ∀ c ∈ m, n ≤ c.1) (rest : Memory α) (a : Nat)
    (hr : ∀ c ∈ rest, a < c.1) :
    Memory.read d (m.map (fun c => (c.1 - n, c.2)) ++ rest) a = Memory.read d m (n + a) := by
  induction m with
  | nil => simpa [Memory.read] using Memory.read_of_lt d hr
  | cons c m ih =>
    obtain ⟨k, v⟩ := c
    have hk : n ≤ k := hn (k, v) (by simp)
    have hih := ih (fun c hc => hn c (List.mem_cons_of_mem _ hc))
    by_cases h1 : a = k - n
    · have h2 : n + a = k := by omega
      simp only [List.map_cons, List.cons_append, Memory.read, h1, if_true]
      rw [if_pos (by omega)]
    · have h2 : ¬ n + a = k := by omega
      by_cases h3 : a < k - n
      · have h4 : n + a < k := by omega
        simp [Memory.read, h1, h2, h3, h4]
      · have h4 : ¬ n + a < k := by omega
        simp only [List.map_cons, List.cons_append, Memory.read, h1, h2, h3, h4, if_false]
        exact hih

/-- Reads from `n` on pass over a lower copy. -/
theorem Memory.read_append_ge (d : α) {m rest : Memory α} {a : Nat} (hm : ∀ c ∈ m, c.1 < a) :
    Memory.read d (m ++ rest) a = Memory.read d rest a := by
  induction m with
  | nil => rfl
  | cons c m ih =>
    obtain ⟨k, v⟩ := c
    have hk : k < a := hm (k, v) (by simp)
    have h1 : ¬ a = k := by omega
    have h2 : ¬ a < k := by omega
    simp only [List.cons_append, Memory.read, h1, h2, if_false]
    exact ih (fun c hc => hm c (List.mem_cons_of_mem _ hc))

/-- What every index reads as after a slide: `MemWrite(S, k, MemRead(S, n + k))` for every `k < n` (R113). -/
theorem Memory.read_slide (d : α) {m : Memory α} (h : m.Pairwise (fun c c' => c.1 < c'.1)) {n : Nat}
    (hb : Memory.below (2 * n) m) (a : Nat) :
    Memory.read d (Memory.slide n m) a = if a < n then Memory.read d m (n + a) else Memory.read d m a := by
  have hn : ∀ c ∈ m.filter (fun c => n ≤ c.1), n ≤ c.1 := fun c hc => by simpa using (List.mem_filter.1 hc).2
  unfold Memory.slide
  by_cases ha : a < n
  · simp only [ha, if_true]
    rw [Memory.read_map_sub d hn _ a (fun c hc => Nat.lt_of_lt_of_le ha (hn c hc)),
      Memory.read_filter d h n (Nat.le_add_right n a)]
  · simp only [ha, if_false]
    rw [Memory.read_append_ge d, Memory.read_filter d h n (by omega)]
    intro c hc
    obtain ⟨x, hx, rfl⟩ := List.mem_map.1 hc
    have := hb x (List.mem_filter.1 hx).1
    have := hn x hx
    simp only
    omega

end Sys2Proof.Machine
end

