-- ==== Sys2Proof/Laws/PerInstr.lean ====
section
/-! SUPPORT. Family Format, one lemma per constructor: a command's encoding is one of the eight legal words, whose reserved
bits are 0 (R75, R76), and a token's is the tag and as many bits as the tag and the parameters say (R73). -/

namespace Sys2Proof.Laws.Format

/-- The encoded form of an instruction has the format its kind of row has. -/
def Statement (i : Instr) : Prop :=
  ∀ W L : Nat, match encode W L i with
    | .command r => r.word.extractLsb' 2 5 = 0
    | .token bits => bits.length = if bits.head? = some true then 9 else 1 + W + L

theorem encNew (cfg : CfgWord) : Statement (.encNew cfg) := fun _ _ => by simp [encode, Request.bare]
theorem encSink (src : List Byte) : Statement (.encSink src) := fun _ _ => by simp [encode, Request.bare]
theorem encPoll (capacity : Nat) : Statement (.encPoll capacity) := fun _ _ => by simp [encode, Request.bare]
theorem encFinish : Statement .encFinish := fun _ _ => by simp [encode, Request.bare]
theorem decNew (cfg : CfgWord) : Statement (.decNew cfg) := fun _ _ => by simp [encode, Request.bare]
theorem decSink (src : List Byte) : Statement (.decSink src) := fun _ _ => by simp [encode, Request.bare]
theorem decPoll (capacity : Nat) : Statement (.decPoll capacity) := fun _ _ => by simp [encode, Request.bare]
theorem decFinish : Statement .decFinish := fun _ _ => by simp [encode, Request.bare]
theorem lit (b : Byte) : Statement (.lit b) := fun _ _ => by simp [encode, litBits]
theorem bref (index count : Nat) : Statement (.bref index count) := fun _ _ => by
  simp [encode, brefBits]
  omega

end Sys2Proof.Laws.Format
end

