-- ==== Sys2Proof/Laws/State.lean ====
section
/-! SUPPORT. One lemma per field of State and per named update, and what the shared responses answer. -/

namespace Sys2Proof.Machine

@[simp] theorem State.enc_setEnc (s : State) (e : Enc) : (s.setEnc e).enc = e := rfl
@[simp] theorem State.dec_setEnc (s : State) (e : Enc) : (s.setEnc e).dec = s.dec := rfl
@[simp] theorem State.inputs_setEnc (s : State) (e : Enc) : (s.setEnc e).inputs = s.inputs := rfl
@[simp] theorem State.response_setEnc (s : State) (e : Enc) : (s.setEnc e).response = s.response := rfl

@[simp] theorem State.enc_setDec (s : State) (d : Dec) : (s.setDec d).enc = s.enc := rfl
@[simp] theorem State.dec_setDec (s : State) (d : Dec) : (s.setDec d).dec = d := rfl
@[simp] theorem State.inputs_setDec (s : State) (d : Dec) : (s.setDec d).inputs = s.inputs := rfl
@[simp] theorem State.response_setDec (s : State) (d : Dec) : (s.setDec d).response = s.response := rfl

@[simp] theorem State.enc_setInputs (s : State) (is : List Input) : (s.setInputs is).enc = s.enc := rfl
@[simp] theorem State.dec_setInputs (s : State) (is : List Input) : (s.setInputs is).dec = s.dec := rfl
@[simp] theorem State.inputs_setInputs (s : State) (is : List Input) : (s.setInputs is).inputs = is := rfl
@[simp] theorem State.response_setInputs (s : State) (is : List Input) : (s.setInputs is).response = s.response := rfl

@[simp] theorem State.enc_setResponse (s : State) (r : Response) : (s.setResponse r).enc = s.enc := rfl
@[simp] theorem State.dec_setResponse (s : State) (r : Response) : (s.setResponse r).dec = s.dec := rfl
@[simp] theorem State.inputs_setResponse (s : State) (r : Response) : (s.setResponse r).inputs = s.inputs := rfl
@[simp] theorem State.response_setResponse (s : State) (r : Response) : (s.setResponse r).response = some r := rfl

/-- `respond` answers a next state that differs in the response only. -/
theorem respond_eq (st : Status) (n : Nat) (s : State) :
    respond st n s = .next (s.setResponse { status := st, n := n, out := [] }) := rfl

/-- `respondOut` answers a next state that differs in the response only. -/
theorem respondOut_eq (st : Status) (out : List Byte) (s : State) :
    respondOut st out s = .next (s.setResponse { status := st, n := out.length, out := out }) := rfl

/-- `raise MISUSE` of ENC: the latch, the response, nothing else (R155). -/
theorem raiseMisuseEnc_eq (s : State) :
    raiseMisuseEnc s =
      .next ((s.setEnc { s.enc with fault := true }).setResponse { status := .misuse, n := 0, out := [] }) := rfl

/-- `raise MISUSE` of DEC: the latch, the response, nothing else (R155). -/
theorem raiseMisuseDec_eq (s : State) :
    raiseMisuseDec s =
      .next ((s.setDec { s.dec with fault := true }).setResponse { status := .misuse, n := 0, out := [] }) := rfl

@[simp] theorem Enc.usable_iff (e : Enc) : e.usable = true ↔ e.cfgValid = true ∧ e.fault = false := by
  simp [Enc.usable]

@[simp] theorem Dec.usable_iff (d : Dec) : d.usable = true ↔ d.cfgValid = true ∧ d.fault = false := by
  simp [Dec.usable]

/-- What a committed micro-step of ENC answers (R17). -/
theorem Enc.commit_ok {t t' : Turn Enc} (h : Enc.commit t = .ok t') : t' = t ∧ t.unit.inRange = true := by
  unfold Enc.commit at h
  split at h
  · exact ⟨(Except.ok.inj h).symm, ‹_›⟩
  · cases h

/-- What a committed micro-step of DEC answers (R17). -/
theorem Dec.commit_ok {t t' : Turn Dec} (h : Dec.commit t = .ok t') : t' = t ∧ t.unit.inRange = true := by
  unfold Dec.commit at h
  split at h
  · exact ⟨(Except.ok.inj h).symm, ‹_›⟩
  · cases h

/-- A micro-step of ENC that answers is its state's action, within the ranges (R17, R100). -/
theorem Enc.microStep_ok {room : Nat} {e : Enc} {t : Turn Enc} (h : e.microStep room = .ok t) :
    e.stateAction room = .ok t ∧ t.unit.inRange = true := by
  unfold Enc.microStep at h
  split at h
  · cases h
  · next t' ht =>
    obtain ⟨rfl, hr⟩ := Enc.commit_ok h
    exact ⟨ht, hr⟩

/-- A micro-step of DEC that answers is its state's action, within the ranges (R17, R133). -/
theorem Dec.microStep_ok {field : DecState → Nat → Nat} {room : Nat} {d : Dec} {t : Turn Dec}
    (h : d.microStep field room = .ok t) : d.stateAction field room = .ok t ∧ t.unit.inRange = true := by
  unfold Dec.microStep at h
  split at h
  · cases h
  · next t' ht =>
    obtain ⟨rfl, hr⟩ := Dec.commit_ok h
    exact ⟨ht, hr⟩

/-- Everything the POLL loop can do when it answers: its first micro-step ended the POLL, or it continued and the loop
went on with the rest of the room and of the bound. -/
theorem pollLoop_ok {σ : Type} {micro : Nat → σ → Except Fault (Turn σ)} {bound : Fault} {left room : Nat} {u u' : σ}
    {out : List Byte} {st : Status} (h : pollLoop micro bound left room u = .ok (u', out, st)) :
    ∃ left' t, left = left' + 1 ∧ micro room u = .ok t ∧
      ((t.outcome.pollStatus = some st ∧ u' = t.unit ∧ out = t.out) ∨
       (t.outcome.pollStatus = none ∧ ∃ rest,
         pollLoop micro bound left' (room - t.out.length) t.unit = .ok (u', rest, st) ∧ out = t.out ++ rest)) := by
  cases left with
  | zero => cases h
  | succ left' =>
    unfold pollLoop at h
    split at h
    · cases h
    · next t ht =>
      refine ⟨left', t, rfl, ht, ?_⟩
      split at h
      · next st' hst =>
        injection h with h
        injection h with h1 h2
        injection h2 with h2 h3
        exact .inl ⟨by rw [hst, h3], h1.symm, h2.symm⟩
      · next hst =>
        split at h
        · cases h
        · next u'' rest st'' hrec =>
          injection h with h
          injection h with h1 h2
          injection h2 with h2 h3
          subst h1 h2 h3
          exact .inr ⟨hst, rest, hrec, rfl⟩

/-- A property that every micro-step keeps, the POLL loop keeps. -/
theorem pollLoop_keeps {σ : Type} {micro : Nat → σ → Except Fault (Turn σ)} {bound : Fault} {P : σ → Prop}
    (hmicro : ∀ room u t, P u → micro room u = .ok t → P t.unit) :
    ∀ {left room : Nat} {u u' : σ} {out : List Byte} {st : Status}, P u →
      pollLoop micro bound left room u = .ok (u', out, st) → P u' := by
  intro left
  induction left with
  | zero => intro _ _ _ _ _ _ h; cases h
  | succ n ih =>
    intro room u u' out st hu h
    obtain ⟨left', t, hl, ht, hcase⟩ := pollLoop_ok h
    obtain rfl : n = left' := by omega
    have hP := hmicro room u t hu ht
    rcases hcase with ⟨-, rfl, -⟩ | ⟨-, rest, hrec, -⟩
    · exact hP
    · exact ih hP hrec

end Sys2Proof.Machine
end

