-- ==== Sys2Proof/Laws/Units.lean ====
section
/-! SUPPORT. What the shared operations of the units can do, said once: the bit accumulator, the pulls, and the run of a POLL
or of a token. -/

namespace Sys2Proof.Machine

/-- Everything PushLoad can do: start the field, or leave the one in progress (R86). -/
theorem Enc.pushLoad_cases (v w : Nat) (e : Enc) :
    (e.outgoingBitsCount = 0 ∧ e.pushLoad v w = { e with outgoingBits := BitVec.ofNat 16 v, outgoingBitsCount := w }) ∨
    (e.outgoingBitsCount ≠ 0 ∧ e.pushLoad v w = e) := by
  by_cases h : e.outgoingBitsCount = 0
  · exact .inl ⟨h, by simp [Enc.pushLoad, h]⟩
  · exact .inr ⟨h, by simp [Enc.pushLoad, h]⟩

/-- A PushStep that steps changes the accumulator only, places `min(outgoing_bits_count, bit_index)` bits, and emits a byte
exactly when it fills one, which needs a slot (R87). -/
theorem Enc.pushStep_some {room : Nat} {e e' : Enc} {out : List Byte} (h : e.pushStep room = some (e', out)) :
    e'.outgoingBitsCount = e.outgoingBitsCount - min e.outgoingBitsCount e.bitIndex ∧
    { e' with
      outgoingBits := e.outgoingBits, outgoingBitsCount := e.outgoingBitsCount
      currentByte := e.currentByte, bitIndex := e.bitIndex } = e ∧
    ((e.bitIndex ≤ e.outgoingBitsCount ∧ room ≠ 0 ∧ e'.bitIndex = 8 ∧ e'.currentByte = 0 ∧ out.length = 1) ∨
     (e.outgoingBitsCount < e.bitIndex ∧ e'.bitIndex = e.bitIndex - e.outgoingBitsCount ∧ out = [])) := by
  unfold Enc.pushStep at h
  simp only at h
  split at h
  · cases h
  · next hk =>
    split at h
    · next hz =>
      injection h with h
      injection h with h1 h2
      subst h1 h2
      refine ⟨rfl, rfl, .inl ⟨by omega, ?_, rfl, rfl, rfl⟩⟩
      intro hr
      exact hk ⟨by omega, hr⟩
    · next hz =>
      injection h with h
      injection h with h1 h2
      subst h1 h2
      exact ⟨rfl, rfl, .inr ⟨by omega, by simp only; omega, rfl⟩⟩

/-- A PushStep stalls exactly where it would fill a byte and has no slot (R87). -/
theorem Enc.pushStep_none {room : Nat} {e : Enc} :
    e.pushStep room = none ↔ e.bitIndex ≤ e.outgoingBitsCount ∧ room = 0 := by
  unfold Enc.pushStep
  simp only
  constructor
  · intro h
    split at h
    · next hk => exact ⟨by omega, hk.2⟩
    · split at h <;> cases h
  · intro h
    rw [if_pos ⟨by omega, h.2⟩]

/-- PushField changes the accumulator only (R88). -/
theorem Enc.pushLoop_frame (left room : Nat) (e : Enc) :
    { (Enc.pushLoop left room e).1 with
      outgoingBits := e.outgoingBits, outgoingBitsCount := e.outgoingBitsCount
      currentByte := e.currentByte, bitIndex := e.bitIndex } = e := by
  induction left generalizing room e with
  | zero => rfl
  | succ left ih =>
    unfold Enc.pushLoop
    split
    · rfl
    · split
      · rfl
      · next e' out h =>
        have h1 := (Enc.pushStep_some h).2.1
        have h2 := ih (room - out.length) e'
        generalize (Enc.pushLoop left (room - out.length) e').1 = e'' at h2
        cases e
        cases e'
        cases e''
        simp only [Enc.mk.injEq] at h1 h2 ⊢
        simp_all

/-- Everything a Yield state can do: the field is placed and `next` follows, or it stalls with the accumulator changed
(R88). -/
theorem Enc.yieldField_cases (v w room : Nat) (e : Enc) (next : Enc → Enc) :
    ((e.pushField v w room).2.2 = true ∧
      e.yieldField v w room next =
        { unit := next (e.pushField v w room).1, out := (e.pushField v w room).2.1, outcome := .continues }) ∨
    ((e.pushField v w room).2.2 = false ∧
      e.yieldField v w room next =
        { unit := (e.pushField v w room).1, out := (e.pushField v w room).2.1, outcome := .stall }) := by
  unfold Enc.yieldField
  cases h : (e.pushField v w room).2.2
  · exact .inr ⟨rfl, by simp [h]⟩
  · exact .inl ⟨rfl, by simp [h]⟩

/-- Everything the load of the next input byte can do (R93). -/
theorem Dec.loadByte_ok {d d' : Dec} (h : d.loadByte = .ok d') :
    d.inputIndex < d.ibs ∧ d'.currentByte = d.inb.read d.inputIndex ∧ d'.bitIndex = 8 ∧
    ((d.inputIndex + 1 = d.inputSize ∧ d'.inputIndex = 0 ∧ d'.inputSize = 0) ∨
     (d.inputIndex + 1 ≠ d.inputSize ∧ d'.inputIndex = d.inputIndex + 1 ∧ d'.inputSize = d.inputSize)) ∧
    { d' with
      inputIndex := d.inputIndex, inputSize := d.inputSize
      currentByte := d.currentByte, bitIndex := d.bitIndex } = d := by
  unfold Dec.loadByte at h
  split at h
  · next hi =>
    split at h
    · next hl =>
      injection h with h
      subst h
      exact ⟨hi, rfl, rfl, .inl ⟨hl, rfl, rfl⟩, rfl⟩
    · next hl =>
      injection h with h
      subst h
      exact ⟨hi, rfl, rfl, .inr ⟨hl, rfl, rfl⟩, rfl⟩
  · cases h

/-- Everything a pulling state can do (R133): underflow with nothing changed, or `next` after the pull. -/
theorem Dec.pulling_ok {w : Nat} {field : DecState → Nat → Nat} {d : Dec} 
    {next : Nat → Dec → Except Fault (Turn Dec)} {t : Turn Dec} (h : d.pulling w field next = .ok t) :
    (d.pull w = .ok none ∧ t = .stop d .underflow) ∨
    (∃ v d', d.pull w = .ok (some (v, d')) ∧ next (field d.state v) d' = .ok t) := by
  unfold Dec.pulling at h
  split at h
  · cases h
  · next hp => exact .inl ⟨hp, (Except.ok.inj h).symm⟩
  · next v d' hp => exact .inr ⟨v, d', hp, h⟩

/-- An access that answers is inside its memory (R15). -/
theorem accessAt_ok {α : Type} {m : MemoryName} {size a : Nat} {x y : α} (h : accessAt m size a x = .ok y) :
    a < size ∧ y = x := by
  unfold accessAt at h
  split at h
  · exact ⟨‹_›, (Except.ok.inj h).symm⟩
  · cases h

/-- An access inside its memory answers (R15). -/
@[simp] theorem accessAt_of_lt {α : Type} (m : MemoryName) {size a : Nat} (x : α) (h : a < size) :
    accessAt m size a x = .ok x := if_pos h

/-- A read of `NEXT` inside its entries gives the entry. -/
theorem LinkMemory.readNext_of_lt (m : LinkMemory) {size a : Nat} (h : a < size) : m.readNext size a = .ok (m.read a) :=
  accessAt_of_lt .next _ h

/-- Everything the emission of a byte can do (R135, R140). -/
theorem Dec.emitByte_ok {b : Byte} {d d' : Dec} (h : d.emitByte b = .ok d') :
    d.headIndex < d.N ∧ d' = { d with win := d.win.write d.headIndex b, headIndex := (d.headIndex + 1) % d.N } := by
  unfold Dec.emitByte ByteMemory.writeWin at h
  split at h
  · cases h
  · next win hw =>
    obtain ⟨hlt, rfl⟩ := accessAt_ok hw
    exact ⟨hlt, (Except.ok.inj h).symm⟩

/-- With `head_index` inside `WIN` a byte is emitted (R34, R135, R140). -/
theorem Dec.emitByte_of_lt (b : Byte) {d : Dec} (h : d.headIndex < d.N) :
    d.emitByte b = .ok { d with win := d.win.write d.headIndex b, headIndex := (d.headIndex + 1) % d.N } := by
  simp [Dec.emitByte, ByteMemory.writeWin, h]

/-- The source of a copy is inside `WIN` whatever `head_index` and `distance` are (R13, R62). -/
theorem Dec.copySource_lt (d : Dec) : d.copySource < d.N := by
  have hN : (0 : Int) < d.N := by simp [Dec.N]
  have h1 := Int.emod_nonneg ((d.headIndex : Int) - d.distance) (ne_of_gt hN)
  have h2 := Int.emod_lt_of_pos ((d.headIndex : Int) - d.distance) hN
  unfold Dec.copySource
  omega

/-- The walk along a chain goes on after the candidate `q`, or ends with it (R125). -/
theorem walkChain_step (N : Nat) (buf : ByteMemory) (next : LinkMemory) (p maxlen left q : Nat) (best : Nat × Nat)
    (hq : q < 2 * N) :
    walkChain N buf next p maxlen (left + 1) (some q) best =
      if q < p - N then .ok best
      else if q < p ∧ (tryCandidate buf p maxlen q best).1 = maxlen then .ok (tryCandidate buf p maxlen q best)
      else walkChain N buf next p maxlen left (next.read q) (tryCandidate buf p maxlen q best) := by
  simp [walkChain, LinkMemory.readNext_of_lt next hq]

/-- Everything ENC.POLL can do when it answers a next state (R98). -/
theorem execEncPoll_next {capacity : Nat} {s t : State} (h : execEncPoll capacity s = .next t) :
    (s.enc.usable = false ∧ t = s.setResponse ⟨.misuse, 0, []⟩) ∨
    (s.enc.usable = true ∧ ∃ e out st, s.enc.poll capacity = .ok (e, out, st) ∧
      t = (s.setEnc e).setResponse ⟨st, out.length, out⟩) := by
  unfold execEncPoll at h
  cases hu : s.enc.usable
  · simp only [hu] at h
    exact .inl ⟨rfl, (Host.Outcome.next.inj h).symm⟩
  · simp only [hu] at h
    cases hp : s.enc.poll capacity with
    | error f => simp [hp] at h
    | ok r =>
      obtain ⟨e, out, st⟩ := r
      simp only [hp] at h
      exact .inr ⟨rfl, e, out, st, rfl, (Host.Outcome.next.inj h).symm⟩

/-- Everything DEC.POLL can do when it answers a next state (R131). -/
theorem execDecPoll_next {capacity : Nat} {s t : State} (h : execDecPoll capacity s = .next t) :
    (s.dec.usable = false ∧ t = s.setResponse ⟨.misuse, 0, []⟩) ∨
    (s.dec.usable = true ∧ ∃ d out st, s.dec.poll capacity = .ok (d, out, st) ∧
      t = (s.setDec d).setResponse ⟨st, out.length, out⟩) := by
  unfold execDecPoll at h
  cases hu : s.dec.usable
  · simp only [hu] at h
    exact .inl ⟨rfl, (Host.Outcome.next.inj h).symm⟩
  · simp only [hu] at h
    cases hp : s.dec.poll capacity with
    | error f => simp [hp] at h
    | ok r =>
      obtain ⟨d, out, st⟩ := r
      simp only [hp] at h
      exact .inr ⟨rfl, d, out, st, rfl, (Host.Outcome.next.inj h).symm⟩

/-- Everything a run of one token can do when it answers a next state (log 7). -/
theorem runToken_next {field : DecState → Nat → Nat} {s t : State} (h : runToken field s = .next t) :
    (s.dec.usable = false ∧ t = s.setResponse ⟨.misuse, 0, []⟩) ∨
    (s.dec.usable = true ∧ ∃ d out st,
      pollLoop (Dec.tokenMicroStep field) (.microStepBound .dec) s.dec.tokenBound Config.maxOperand s.dec =
        .ok (d, out, st) ∧
      t = (s.setDec d).setResponse ⟨st, out.length, out⟩) := by
  unfold runToken at h
  cases hu : s.dec.usable
  · simp only [hu] at h
    exact .inl ⟨rfl, (Host.Outcome.next.inj h).symm⟩
  · simp only [hu] at h
    generalize hp : pollLoop (Dec.tokenMicroStep field) (.microStepBound .dec) s.dec.tokenBound Config.maxOperand
      s.dec = p at h
    cases p with
    | error f => simp at h
    | ok r =>
      obtain ⟨d, out, st⟩ := r
      exact .inr ⟨rfl, d, out, st, rfl, (Host.Outcome.next.inj h).symm⟩

end Sys2Proof.Machine
end

