-- ==== Sys2Proof/Tests/Slice0.lean ====
section
/-! SUPPORT. Tests: the WellFormed smoke, words written out from the encodings of 30_encoding, one step of each instruction
with its result from spec/95_test_vectors.md, and a witness for every statement that has hypotheses. -/

namespace Sys2Proof.Tests

open Sys2Proof.Machine

/-! ### Helpers -/

/-- The next state, where there is one. -/
def got (o : Host.Outcome State Fault Refusal) : Option State :=
  match o with
  | .next t => some t
  | .fault _ => none
  | .refused _ => none

/-- The response in the next state. -/
def answer (o : Host.Outcome State Fault Refusal) : Option Response := (got o).bind State.response

theorem got_some {o : Host.Outcome State Fault Refusal} {t : State} (h : got o = some t) : o = .next t := by
  cases o with
  | next s => simpa [got] using h
  | fault f => cases h
  | refused r => cases h

theorem answer_some {o : Host.Outcome State Fault Refusal} {r : Response} (h : answer o = some r) :
    ∃ t, o = .next t ∧ t.response = some r := by
  cases o with
  | next s => exact ⟨s, rfl, h⟩
  | fault f => cases h
  | refused f => cases h

/-- The responses of two instructions, one after the other. -/
def answers (o : Host.Outcome State Fault Refusal) (i : Instr) : Option (Response × Response) :=
  (got o).bind fun t => t.response.bind fun r => (answer (exec i t)).map fun r' => (r, r')

theorem answers_some {o : Host.Outcome State Fault Refusal} {i : Instr} {r r' : Response} (h : answers o i = some (r, r')) :
    ∃ t u, o = .next t ∧ t.response = some r ∧ exec i t = .next u ∧ u.response = some r' := by
  cases o with
  | fault f => cases h
  | refused f => cases h
  | next t =>
    cases hr : t.response with
    | none => simp [answers, got, hr] at h
    | some r₁ =>
      cases ha : answer (exec i t) with
      | none => simp [answers, got, hr, ha] at h
      | some r₂ =>
        simp [answers, got, hr, ha] at h
        obtain ⟨u, hu, hur⟩ := answer_some ha
        exact ⟨t, u, rfl, hr.trans (congrArg some h.1), hu, hur.trans (congrArg some h.2)⟩

theorem answers_chain {o : Host.Outcome State Fault Refusal} {i j : Instr} {r r' r'' : Response}
    (h : (got o).bind (fun t => t.response.bind fun q => (answers (exec i t) j).map fun p => (q, p.1, p.2)) =
      some (r, r', r'')) :
    ∃ t u v, o = .next t ∧ t.response = some r ∧ exec i t = .next u ∧ u.response = some r' ∧
      exec j u = .next v ∧ v.response = some r'' := by
  cases o with
  | fault f => cases h
  | refused f => cases h
  | next t =>
    cases hr : t.response with
    | none => simp [got, hr] at h
    | some q =>
      cases ha : answers (exec i t) j with
      | none => simp [got, hr, ha] at h
      | some p =>
        obtain ⟨p1, p2⟩ := p
        simp [got, hr, ha] at h
        obtain ⟨rfl, rfl, rfl⟩ := h
        obtain ⟨u, v, hu, hur, hv, hvr⟩ := answers_some ha
        exact ⟨t, u, v, rfl, hr, hu, hur, hv, hvr⟩

/-- How a micro-step ends, and the state it leaves. -/
def micro {σ τ : Type} (st : σ → τ) (o : Except Fault (Turn σ)) : Option (Micro × τ) :=
  match o with
  | .ok t => some (t.outcome, st t.unit)
  | .error _ => none

/-- The number of bits a state pulls, and the bits there. -/
def wants (s : State) : Option Nat × Nat := (s.dec.pullWidth, s.dec.unreadBits.length)

theorem micro_some {σ τ : Type} {st : σ → τ} {o : Except Fault (Turn σ)} {r : Micro} {x : τ} (h : micro st o = some (r, x)) :
    ∃ t, o = .ok t ∧ t.outcome = r ∧ st t.unit = x := by
  cases o with
  | error f => cases h
  | ok t =>
    simp [micro] at h
    exact ⟨t, rfl, h.1, h.2⟩

/-- ENC with `bytes` in its lookahead, W = 8, L = 4. -/
def encWith (indexed : Bool) (bytes : List Byte) : Enc :=
  { Enc.afterNew 8 4 indexed 0 with buf := ByteMemory.writeList [] 256 bytes, inputSize := bytes.length }

/-- ENC with the whole input `bytes` sunk and FINISH issued, before any POLL. -/
def encLast (indexed : Bool) (bytes : List Byte) : State :=
  { State.reset with enc := { encWith indexed bytes with finishing := true } }

/-- ENC in the middle of a block of 256 zero bytes, a count field half pushed. -/
def encBusy : State :=
  { State.reset with enc := { Enc.afterNew 8 4 false 0 with
      state := .yieldBackRefLength, inputSize := 256, matchScanIndex := 30, matchLength := 15, matchPos := 285
      outgoingBits := 13, outgoingBitsCount := 4, bitIndex := 1 } }

/-- ENC in the states of a block of `n` zero bytes. -/
def encIn (st : EncState) (n : Nat) (finishing : Bool) : State :=
  { State.reset with enc := { Enc.afterNew 8 4 false 0 with state := st, inputSize := n, finishing := finishing } }

/-- DEC with `bytes` in its input buffer, W = 8, L = 4, IBS = 16. -/
def decWith (bytes : List Byte) : State :=
  { State.reset with dec := { Dec.afterNew 8 4 16 0 with
      inb := ByteMemory.writeList [] 0 bytes, inputSize := bytes.length } }

/-- DEC in YieldLiteral with `bits` bits of `byte` left (as after V6.1's and V6.2's POLL). -/
def decLeft (byte : Byte) (bits : Nat) : State :=
  { State.reset with dec := { Dec.afterNew 8 4 16 0 with state := .yieldLiteral, currentByte := byte, bitIndex := bits } }

/-- DEC in the middle of a backref copy. -/
def decCopying : State :=
  { State.reset with dec := { Dec.afterNew 8 4 16 0 with
      state := .yieldBackref, distance := 1, outputCount := 2, win := [(0, 0x61)], headIndex := 1 } }

/-- The core with one request pending. -/
def asked (r : Request) (s : State) : State := { s with inputs := [.command r] }

/-! ### WellFormed: every check refuses an ill-formed term -/

theorem test_wf_encSink_too_long : (Instr.encSink (List.replicate 65536 0)).wellFormed 8 4 = false := by
  simp only [Instr.wellFormed, Config.maxOperand, List.length_replicate]
  decide
theorem test_wf_encPoll_too_large : (Instr.encPoll 65536).wellFormed 8 4 = false := by decide
theorem test_wf_decSink_too_long : (Instr.decSink (List.replicate 65536 0)).wellFormed 8 4 = false := by
  simp only [Instr.wellFormed, Config.maxOperand, List.length_replicate]
  decide
theorem test_wf_decPoll_too_large : (Instr.decPoll 65536).wellFormed 8 4 = false := by decide
theorem test_wf_bref_index_too_wide : (Instr.bref 256 0).wellFormed 8 4 = false := by decide
theorem test_wf_bref_count_too_wide : (Instr.bref 0 16).wellFormed 8 4 = false := by decide
theorem test_wf_bref_widest : (Instr.bref 255 15).wellFormed 8 4 = true := by decide
theorem test_range_encSink_too_long : (Instr.encSink (List.replicate 65536 0)).operandInRange = false := by
  simp only [Instr.operandInRange, Config.maxOperand, List.length_replicate]
  decide
theorem test_range_decPoll_too_large : (Instr.decPoll 65536).operandInRange = false := by decide

/-! ### Decoding: words written out from R66, R67, R75, R76 -/

theorem test_decode_encNew : decodeCommand ⟨0b00000000, 0x48, [], 0⟩ = .ok (.encNew 0x48) := by decide
theorem test_decode_encSink : decodeCommand ⟨0b00000001, 0, [0x61], 0⟩ = .ok (.encSink [0x61]) := by decide
theorem test_decode_encPoll : decodeCommand ⟨0b00000010, 0, [], 2⟩ = .ok (.encPoll 2) := by decide
theorem test_decode_encFinish : decodeCommand ⟨0b00000011, 0, [], 0⟩ = .ok .encFinish := by decide
theorem test_decode_decNew : decodeCommand ⟨0b10000000, 0x00100048, [], 0⟩ = .ok (.decNew 0x00100048) := by decide
theorem test_decode_decSink : decodeCommand ⟨0b10000001, 0, [0xB0], 0⟩ = .ok (.decSink [0xB0]) := by decide
theorem test_decode_decPoll : decodeCommand ⟨0b10000010, 0, [], 4⟩ = .ok (.decPoll 4) := by decide
theorem test_decode_decFinish : decodeCommand ⟨0b10000011, 0, [], 0⟩ = .ok .decFinish := by decide
/-- 95 V7.2. -/
theorem test_decode_illegal : decodeCommand ⟨0x84, 0, [], 0⟩ = .error (.illegalCommand 0x84) := by decide
/-- R66: tag 1, then 0x61 = 01100001. -/
theorem test_decode_lit :
    decodeToken 8 4 [true, false, true, true, false, false, false, false, true] = .ok (.lit 0x61, []) := by decide
/-- R67 at W = 8, L = 4: tag 0, index 00000010, count 0101. -/
theorem test_decode_bref :
    decodeToken 8 4 [false, false, false, false, false, false, false, true, false, false, true, false, true] =
      .ok (.bref 2 5, []) := by decide
/-- R67 at W = 9, L = 4 (95 V6.5, bytes 7f c3): tag 0, index all ones, count 0000, two bits left. -/
theorem test_decode_bref_nine :
    decodeToken 9 4 (byteBits 0x7F ++ byteBits 0xC3) = .ok (.bref 511 0, [true, true]) := by decide
theorem test_decode_incomplete : decodeToken 8 4 (List.replicate 8 true) = .error .incompleteToken := by decide

/-- The table word of each row, bytes in stream order (log 9): the instruction, and that a step runs it after reset. -/
theorem test_table_encNew : decodeTableWord 8 0x00 = some (.encNew 0) := by decide
theorem test_table_decFinish : decodeTableWord 8 0x83 = some .decFinish := by decide
theorem test_table_lit : decodeTableWord 16 0xFFB0 = some (.lit 0x61) := by decide
theorem test_table_bref : decodeTableWord 16 0x877F = some (.bref 255 0) := by decide
theorem test_fetch_lit : answer (step (State.reset.withFetchWord 16 0xFFB0)) = some ⟨.empty, 1, [0x61]⟩ := by
  decide +kernel
theorem test_fetch_bref : answer (step (State.reset.withFetchWord 16 0x877F)) = some ⟨.empty, 2, [0, 0]⟩ := by
  decide +kernel
theorem test_fetch_encNew : answer (step (State.reset.withFetchWord 8 0x00)) = some ⟨.invalidParameter, 0, []⟩ := by
  decide
theorem test_fetch_decPoll : answer (step (State.reset.withFetchWord 8 0x82)) = some ⟨.misuse, 0, []⟩ := by decide

/-! ### Codes of R21, R31, R81 -/

theorem test_code_illegalCommand : Status.illegalCommand.code = 7 := by decide
theorem test_code_enc_done : EncState.done.code = 9 := by decide
theorem test_code_dec_yieldBackref : DecState.yieldBackref.code = 6 := by decide

/-! ### One step of each instruction (95_test_vectors) -/

/-- V2: 0x48 is legal, 0x88 (L = W), 0x38 (L = 3), 0x248 (reserved bit) and 0x10048 are not. -/
theorem test_encNew_legal : [0x48, 0xEF, 0x148].map encCfgValid = [true, true, true] := by decide
theorem test_encNew_refused : [0x88, 0x38, 0x47, 0xF0, 0x248, 0x10048].map encCfgValid = List.replicate 6 false := by
  decide
theorem test_decNew_legal : [0x00100048, 0xFFFF0048].map decCfgValid = [true, true] := by decide
theorem test_decNew_refused : [0x48, 0x148, 0x00100088].map decCfgValid = [false, false, false] := by decide
/-- R28: `bit_index` is 8 after NEW. -/
theorem test_encNew_bitIndex :
    (got (exec (.encNew 0x48) State.reset)).map (fun t => (t.enc.cfgValid, t.enc.bitIndex)) = some (true, 8) := by decide
theorem test_decNew_ibs :
    (got (exec (.decNew 0xFFFF0048) State.reset)).map (fun t => (t.dec.cfgValid, t.dec.ibs)) = some (true, 65535) := by
  decide
/-- R97: the bytes go to the high half, from `N + input_size` on. -/
theorem test_encSink_place :
    (got (exec (.encSink [0x62]) { State.reset with enc := encWith false [0x61] })).map
      (fun t => (t.enc.buf, t.enc.inputSize)) = some ([(256, 0x61), (257, 0x62)], 2) := by decide
/-- V4.2: a full block answers FULL even to an empty SINK. -/
theorem test_encSink_full : answer (exec (.encSink []) (encIn .notFull 256 false)) = some ⟨.full, 0, []⟩ := by decide
/-- P1: `"aaaaaaaa"` with a 2-byte output gives `b0 80` and MORE. -/
theorem test_encPoll_stall :
    answer (exec (.encPoll 2) (encLast false (List.replicate 8 0x61))) = some ⟨.more, 2, [0xB0, 0x80]⟩ := by
  decide +kernel
/-- V3.1 and V5.2: `"abab"` gives `b0 d8 80 21`, through the index too. -/
theorem test_encPoll_indexed :
    answer (exec (.encPoll 64) (encLast true [0x61, 0x62, 0x61, 0x62])) = some ⟨.empty, 4, [0xB0, 0xD8, 0x80, 0x21]⟩ := by
  decide +kernel
/-- V4.3: FINISH in Done answers DONE. -/
theorem test_encFinish_done : answer (exec .encFinish (encIn .done 0 true)) = some ⟨.done, 0, []⟩ := by decide
/-- P2: with IBS full but for one byte, one byte is taken. -/
theorem test_decSink_partial :
    (got (exec (.decSink [0xB0, 0x80]) (decWith (List.replicate 15 0)))).map
      (fun t => (t.dec.inputSize, t.dec.inb)) = some (16, [(15, 0xB0)]) := by decide
/-- R131: `b0 80 17` with 4 slots gives four bytes and MORE. -/
theorem test_decPoll_more :
    answer (exec (.decPoll 4) (decWith [0xB0, 0x80, 0x17])) = some ⟨.more, 4, [0x61, 0x61, 0x61, 0x61]⟩ := by
  decide +kernel
/-- V6.6: distance 2 reads the window's initial zero, then what it wrote. -/
theorem test_decPoll_overlap :
    (answer (exec (.decPoll 64) (decWith [0xB0, 0x80, 0x7F]))).map (fun r => (r.n, r.out.take 4)) =
      some (18, [0x61, 0x00, 0x61, 0x00]) := by decide +kernel
/-- V6.1: six one-bits left in YieldLiteral are the end of the stream. -/
theorem test_decFinish_done : answer (exec .decFinish (decLeft 0xFF 6)) = some ⟨.done, 0, []⟩ := by decide
/-- V6.2: a zero among them is not. -/
theorem test_decFinish_more : answer (exec .decFinish (decLeft 0xFE 6)) = some ⟨.more, 0, []⟩ := by decide
/-- R135's example: `WIN[0] = 0x61`, `head_index = 1`. -/
theorem test_lit_window :
    (got (exec (.lit 0x61) (decWith [0xB0, 0x80]))).map (fun t => (t.dec.win, t.dec.headIndex, t.dec.bitIndex)) =
      some ([(0, 0x61)], 1, 7) := by decide +kernel
/-- V6.5: the first backref of `7f 87` reads the zero window; `distance = 256`, `head_index = 2`. -/
theorem test_bref_far :
    (got (exec (.bref 255 0) (decWith [0x7F, 0x87]))).map (fun t => (t.dec.distance, t.dec.headIndex, t.dec.outputIndex)) =
      some (256, 2, 2) := by decide +kernel
/-- R15: a write outside `WIN` and a read outside `NEXT` are faults. -/
theorem test_win_outside :
    ({ decCopying.dec with headIndex := 256 } : Dec).emitByte 0x61 = .error (.memoryIndex .win) := by rfl
theorem test_next_outside :
    indexedMatch 8 [] [(0, some 16)] [] 8 2 = .error (.memoryIndex .next) := by decide +kernel
/-- R152: 0x84 answers ILLEGAL_COMMAND(0). -/
theorem test_illegal_word : answer (step (asked (Request.bare 0x84) encBusy)) = some ⟨.illegalCommand, 0, []⟩ := by decide
/-- R104's example: in `"abXabYab"` at 262 the closer of two equal matches, 259, wins. -/
theorem test_search_tie :
    longestMatch 256 (ByteMemory.writeList [] 256 [0x61, 0x62, 0x58, 0x61, 0x62, 0x59, 0x61, 0x62]) 262 2 = (2, 259) := by
  decide +kernel
/-- R123's example, with a low half of 4 zero bytes: the chain of `"ab"` is 6, 4. -/
theorem test_chain :
    chainFrom (buildIndex (ByteMemory.writeList [] 4 [0x61, 0x62, 0x61, 0x62]) 7).2 8
      ((buildIndex (ByteMemory.writeList [] 4 [0x61, 0x62, 0x61, 0x62]) 7).1.read 0x6162) = [6, 4] := by decide
/-- R87's example: `current_byte = 0x80`, `bit_index = 7`, field 0x61 of 8 bits: emits 0xB0, 1 bit pending. -/
theorem test_pushStep :
    ((({ Enc.afterNew 8 4 false 0 with currentByte := 0x80, bitIndex := 7 }).pushLoad 0x61 8).pushStep 1).map
      (fun (r : Enc × List Byte) => (r.2, r.1.outgoingBits, r.1.outgoingBitsCount, r.1.bitIndex)) = some ([0xB0], 1, 1, 8) := by decide
/-- R90's example: 0x80 with 7 free bits gives 0xFF. -/
theorem test_flushPad :
    (({ Enc.afterNew 8 4 false 0 with currentByte := 0x80, bitIndex := 7 }).flushPad 1).2 = ([0xFF], true) := by decide

/-! ### Witnesses: for every statement with hypotheses, states and operands that meet them -/

theorem memory_reset : State.reset.MemoryCanonical := by constructor <;> decide
theorem memory_encFull : (encIn .notFull 256 false).MemoryCanonical := by constructor <;> decide
theorem memory_encIn (st : EncState) (n : Nat) (fin : Bool) : (encIn st n fin).MemoryCanonical := by
  constructor <;> simp [encIn, State.reset, Enc.afterNew, Dec.powerOn, Memory.wf]
theorem memory_encLast : (encLast false [0x61, 0x62, 0x61, 0x62]).MemoryCanonical := by constructor <;> decide
theorem memory_decWith (bytes : List Byte) : (decWith bytes).MemoryCanonical := by
  constructor
  · simp [decWith, State.reset, Enc.powerOn, Memory.wf]
  · simp [decWith, State.reset, Enc.powerOn, Memory.wf]
  · simp [decWith, State.reset, Enc.powerOn, Memory.wf]
  · simp [decWith, Dec.afterNew, Memory.wf]
  · exact Memory.writeList_wf (by decide) _ _

theorem sound_encBusy : encBusy.enc.Sound := by constructor <;> decide
theorem sound_encLast : (encLast false [0x61, 0x62, 0x61, 0x62]).enc.Sound := by constructor <;> decide
theorem sound_encLast_a : (encLast false (List.replicate 8 0x61)).enc.Sound := by constructor <;> decide
theorem sound_encIndexed : (encLast true [0x61, 0x62, 0x61, 0x62]).enc.Sound := by constructor <;> decide
theorem sound_encFull : (encIn .notFull 256 false).enc.Sound := by constructor <;> decide
theorem sound_encNotFull : (encIn .notFull 255 false).enc.Sound := by constructor <;> decide
theorem sound_encFilled : (encIn .filled 256 false).enc.Sound := by constructor <;> decide
theorem sound_encSearch : (encIn .search 256 false).enc.Sound := by constructor <;> decide
theorem sound_encSearchEnd : (encIn .search 0 true).enc.Sound := by constructor <;> decide
theorem sound_encTag : (encIn .yieldTagBit 1 true).enc.Sound := by constructor <;> decide
theorem sound_encLiteral : (encIn .yieldLiteral 1 true).enc.Sound := by constructor <;> decide
theorem sound_encSave : (encIn .saveBacklog 256 false).enc.Sound := by constructor <;> decide
theorem sound_encSaveLast : (encIn .saveBacklog 0 true).enc.Sound := by constructor <;> decide
theorem sound_encFlush : (encIn .flushBits 0 true).enc.Sound := by constructor <;> decide
theorem sound_encDone : (encIn .done 0 true).enc.Sound := by constructor <;> decide

/-- ENC with the match `(2, pos 256)` found at 258 in a block of 256, about to push `st`'s field. -/
def encMatch (st : EncState) : State :=
  { State.reset with enc := { Enc.afterNew 8 4 false 0 with
      state := st, inputSize := 256, matchScanIndex := 2, matchLength := 2, matchPos := 256 } }

theorem sound_encMatchTag : (encMatch .yieldTagBit).enc.Sound := by constructor <;> decide
theorem sound_encMatchIndex : (encMatch .yieldBackRefIndex).enc.Sound := by constructor <;> decide
theorem sound_encMatchLength : (encMatch .yieldBackRefLength).enc.Sound := by constructor <;> decide

/-- ENC with a match at distance `N` and of the longest length, the tag already placed. -/
def encFar (st : EncState) : State :=
  { State.reset with enc := { Enc.afterNew 8 4 false 0 with
      state := st, inputSize := 256, matchScanIndex := 0, matchLength := 15, matchPos := 0, bitIndex := 7 } }

theorem sound_encFarIndex : (encFar .yieldBackRefIndex).enc.Sound := by constructor <;> decide
theorem sound_encFarLength : (encFar .yieldBackRefLength).enc.Sound := by constructor <;> decide

theorem sound_decWith_empty : (decWith []).dec.Sound := by constructor <;> decide
theorem sound_decWith : (decWith [0xB0, 0x80, 0x17]).dec.Sound := by constructor <;> decide
theorem sound_decTokens : (decWith [0xB0, 0xD8, 0x80, 0x21]).dec.Sound := by constructor <;> decide
theorem sound_decLeft_six : (decLeft 0xFF 6).dec.Sound := by constructor <;> decide
theorem sound_decLeft_zero : (decLeft 0xFE 7).dec.Sound := by constructor <;> decide
theorem sound_decLeft_eight : (decLeft 0xFF 8).dec.Sound := by constructor <;> decide
theorem sound_decCopying : decCopying.dec.Sound := by constructor <;> decide

/-- DEC at `W`, `L` in the state `st` with `bits` one-bits left. -/
def decAt (W L : Nat) (st : DecState) (bits : Nat) : State :=
  { State.reset with dec := { Dec.afterNew W L 16 0 with
      state := st, currentByte := 0xFF, bitIndex := bits, distance := 1 } }

theorem sound_decAt_tag : (decAt 8 4 .tagBit 1).dec.Sound := by constructor <;> decide
theorem sound_decAt_indexHigh : (decAt 15 14 .backrefIndexMSB 7).dec.Sound := by constructor <;> decide
theorem sound_decAt_indexLow : (decAt 8 4 .backrefIndexLSB 8).dec.Sound := by constructor <;> decide
theorem sound_decAt_indexLow_seven : (decAt 8 4 .backrefIndexLSB 7).dec.Sound := by constructor <;> decide
theorem sound_decAt_countHigh : (decAt 15 14 .backrefCountMSB 6).dec.Sound := by constructor <;> decide
theorem sound_decAt_countHigh_five : (decAt 15 14 .backrefCountMSB 5).dec.Sound := by constructor <;> decide
theorem sound_decAt_countLow : (decAt 8 4 .backrefCountLSB 4).dec.Sound := by constructor <;> decide
theorem sound_decAt_countLow_three : (decAt 8 4 .backrefCountLSB 3).dec.Sound := by constructor <;> decide
theorem sound_decAt_countLow_wide : (decAt 15 9 .backrefCountLSB 8).dec.Sound := by constructor <;> decide

theorem between_decTokens : (decWith [0xB0, 0xD8, 0x80, 0x21]).dec.betweenTokens := ⟨by decide, sound_decTokens, by decide⟩

/-! Encodings and steps -/

/-- Both neighbours of the legal words, and the reserved bits. -/
theorem witness_IllegalWordChangesNothing :
    (asked (Request.bare 0x04) encBusy).inputs = [.command (Request.bare 0x04)] ∧
    ∀ w ∈ ([0x04, 0x7F, 0x84, 0xFF] : List Byte),
      w ∉ ([0x00, 0x01, 0x02, 0x03, 0x80, 0x81, 0x82, 0x83] : List Byte) ∧ w.extractLsb' 2 5 ≠ 0 := by decide
theorem witness_DecodeEncodeRoundTrip :
    (Instr.bref 32767 16383).wellFormed 15 14 = true ∧ (Instr.bref 32767 16383).isToken = true := by decide
theorem witness_DecodedTokenHasItsBits :
    decodeToken 8 4 (byteBits 0x7F ++ byteBits 0xFF) = .ok (.bref 255 15, List.replicate 3 true) := by decide
theorem witness_StepRunsDecodedCommand :
    (asked (Request.bare 0x82) encBusy).inputs = [.command (Request.bare 0x82)] ∧
    decodeCommand (Request.bare 0x82) = .ok (.decPoll 0) ∧
    (Instr.decPoll 65535).operandInRange = true ∧ (Instr.decPoll 65536).operandInRange = false ∧
    decodeCommand ⟨0x82, 0, [], 65536⟩ = .ok (.decPoll 65536) ∧ State.reset.inputs = [] := by decide
theorem witness_StepRunsDecodedToken :
    (decWith [0x7F, 0x87]).dec.usable = true ∧ (decWith [0x7F, 0x87]).dec.state = .tagBit ∧
    decodeToken (decWith [0x7F, 0x87]).dec.W (decWith [0x7F, 0x87]).dec.L (decWith [0x7F, 0x87]).dec.unreadBits =
      .ok (.bref 255 0, List.replicate 3 true) := by decide

/-! NEW, SINK, FINISH -/

/-- The widest and the narrowest legal word, and the first word beyond each bound. -/
theorem witness_EncNewConstructsOrRefuses :
    (∀ cfg ∈ ([0x48, 0x1EF] : List CfgWord), 8 ≤ cfg.toNat % 16 ∧ 4 ≤ cfg.toNat / 16 % 16 ∧
      cfg.toNat / 16 % 16 < cfg.toNat % 16 ∧ cfg.toNat / 512 % 128 = 0 ∧ cfg.toNat / 65536 = 0) ∧
    ∀ cfg ∈ ([0x47, 0x38, 0x88, 0x248, 0x10048] : List CfgWord), ¬ (8 ≤ cfg.toNat % 16 ∧ 4 ≤ cfg.toNat / 16 % 16 ∧
      cfg.toNat / 16 % 16 < cfg.toNat % 16 ∧ cfg.toNat / 512 % 128 = 0 ∧ cfg.toNat / 65536 = 0) := by simp
theorem witness_DecNewConstructsOrRefuses :
    (∀ cfg ∈ ([0x10048, 0xFFFF00EF] : List CfgWord), 8 ≤ cfg.toNat % 16 ∧ 4 ≤ cfg.toNat / 16 % 16 ∧
      cfg.toNat / 16 % 16 < cfg.toNat % 16 ∧ cfg.toNat / 256 % 256 = 0 ∧ cfg.toNat / 65536 ≠ 0) ∧
    ∀ cfg ∈ ([0x10047, 0x10038, 0x10088, 0x10148, 0x48] : List CfgWord), ¬ (8 ≤ cfg.toNat % 16 ∧
      4 ≤ cfg.toNat / 16 % 16 ∧ cfg.toNat / 16 % 16 < cfg.toNat % 16 ∧ cfg.toNat / 256 % 256 = 0 ∧
      cfg.toNat / 65536 ≠ 0) := by simp
theorem witness_RefusedNewFrame :
    (∃ t, exec (.encNew 0x88) encBusy = .next t ∧ t.response = some ⟨.invalidParameter, 0, []⟩) ∧
    (∃ t, exec (.decNew 0x48) decCopying = .next t ∧ t.response = some ⟨.invalidParameter, 0, []⟩) :=
  ⟨answer_some (by decide), answer_some (by decide)⟩
/-- Each of the four cases: unusable, finishing, full, and one place free. -/
theorem witness_EncSinkTakesWhatFits :
    (State.reset.MemoryCanonical ∧ State.reset.enc.usable = false) ∧
    ((encIn .done 0 true).MemoryCanonical ∧ (encIn .done 0 true).enc.usable = true ∧
      (encIn .done 0 true).enc.finishing = true) ∧
    ((encIn .notFull 256 false).MemoryCanonical ∧ (encIn .notFull 256 false).enc.usable = true ∧
      (encIn .notFull 256 false).enc.finishing = false ∧ 2 ^ 8 ≤ (encIn .notFull 256 false).enc.inputSize) ∧
    ((encIn .notFull 255 false).MemoryCanonical ∧ (encIn .notFull 255 false).enc.usable = true ∧
      (encIn .notFull 255 false).enc.finishing = false ∧ (encIn .notFull 255 false).enc.inputSize < 2 ^ 8) :=
  ⟨⟨memory_reset, by decide⟩, ⟨memory_encIn _ _ _, by decide⟩, ⟨memory_encIn _ _ _, by decide⟩,
    ⟨memory_encIn _ _ _, by decide⟩⟩
/-- DEC with `n` of its 16 input bytes taken. -/
def decHolding (n : Nat) (done : Bool) : State :=
  { State.reset with dec := { Dec.afterNew 8 4 16 0 with inputSize := n, doneReported := done } }
theorem memory_decHolding (n : Nat) (done : Bool) : (decHolding n done).MemoryCanonical := by
  constructor <;> simp [decHolding, State.reset, Enc.powerOn, Dec.afterNew, Memory.wf]
theorem witness_DecSinkTakesWhatFits :
    (State.reset.MemoryCanonical ∧ State.reset.dec.usable = false) ∧
    ((decHolding 0 true).MemoryCanonical ∧ (decHolding 0 true).dec.usable = true ∧
      (decHolding 0 true).dec.doneReported = true) ∧
    ((decHolding 16 false).MemoryCanonical ∧ (decHolding 16 false).dec.usable = true ∧
      (decHolding 16 false).dec.doneReported = false ∧ (decHolding 16 false).dec.ibs ≤ (decHolding 16 false).dec.inputSize) ∧
    ((decHolding 15 false).MemoryCanonical ∧ (decHolding 15 false).dec.usable = true ∧
      (decHolding 15 false).dec.doneReported = false ∧ (decHolding 15 false).dec.inputSize < (decHolding 15 false).dec.ibs) :=
  ⟨⟨memory_reset, by decide⟩, ⟨memory_decHolding _ _, by decide⟩, ⟨memory_decHolding _ _, by decide⟩,
    ⟨memory_decHolding _ _, by decide⟩⟩
/-- The first list fills the last place; the second finds the unit full. -/
theorem witness_SinkInPartsIsSinkOfWhole :
    ((encIn .notFull 255 false).enc.usable = true ∧ (encIn .notFull 255 false).enc.finishing = false ∧
      (encIn .notFull 255 false).enc.inputSize + [0x61].length ≤ 2 ^ (encIn .notFull 255 false).enc.W ∧
      ∃ t u, exec (.encSink [0x61]) (encIn .notFull 255 false) = .next t ∧ t.response = some ⟨.ok, 1, []⟩ ∧
        exec (.encSink [0x62]) t = .next u ∧ u.response = some ⟨.full, 0, []⟩) ∧
    ((decHolding 14 false).dec.usable = true ∧ (decHolding 14 false).dec.doneReported = false ∧
      (decHolding 14 false).dec.inputSize + [0x61].length ≤ (decHolding 14 false).dec.ibs ∧
      ∃ t u, exec (.decSink [0x61]) (decHolding 14 false) = .next t ∧ t.response = some ⟨.ok, 1, []⟩ ∧
        exec (.decSink [0x62]) t = .next u ∧ u.response = some ⟨.ok, 1, []⟩) :=
  ⟨⟨by decide, by decide, by decide, answers_some (by decide)⟩, ⟨by decide, by decide, by decide, answers_some (by decide)⟩⟩
theorem witness_EncSinkFullDuringBlock :
    (encIn .saveBacklog 256 false).enc.Sound ∧ (encIn .saveBacklog 256 false).enc.usable = true ∧
    (encIn .saveBacklog 256 false).enc.finishing = false ∧ (encIn .saveBacklog 256 false).enc.state ≠ .notFull :=
  ⟨sound_encSave, by decide⟩
theorem witness_EncFinishSetsFinishing :
    State.reset.enc.usable = false ∧
    ((encIn .done 0 true).enc.usable = true ∧ (encIn .done 0 true).enc.state = .done) ∧
    (encBusy.enc.usable = true ∧ encBusy.enc.state ≠ .done) := by decide
/-- One bit fewer than the state pulls, all ones (the end); as many as it pulls, or a 0 among fewer (not the end); in
YieldBackref, which pulls nothing, never. -/
theorem witness_DecFinishDetectsEnd :
    (State.reset.dec.usable = false) ∧
    ((decWith []).dec.Sound ∧ wants (decWith []) = (some 1, 0)) ∧
    ((decAt 8 4 .tagBit 1).dec.Sound ∧ wants (decAt 8 4 .tagBit 1) = (some 1, 1)) ∧
    ((decLeft 0xFE 7).dec.Sound ∧ wants (decLeft 0xFE 7) = (some 8, 7)) ∧
    ((decLeft 0xFF 8).dec.Sound ∧ wants (decLeft 0xFF 8) = (some 8, 8)) ∧
    ((decAt 15 14 .backrefIndexMSB 7).dec.Sound ∧ wants (decAt 15 14 .backrefIndexMSB 7) = (some 7, 7)) ∧
    ((decAt 8 4 .backrefIndexLSB 7).dec.Sound ∧ wants (decAt 8 4 .backrefIndexLSB 7) = (some 8, 7)) ∧
    ((decAt 15 14 .backrefCountMSB 5).dec.Sound ∧ wants (decAt 15 14 .backrefCountMSB 5) = (some 6, 5)) ∧
    ((decAt 8 4 .backrefCountLSB 3).dec.Sound ∧ wants (decAt 8 4 .backrefCountLSB 3) = (some 4, 3)) ∧
    ((decAt 15 9 .backrefCountLSB 8).dec.Sound ∧ wants (decAt 15 9 .backrefCountLSB 8) = (some 8, 8)) ∧
    (decCopying.dec.Sound ∧ wants decCopying = (none, 0)) :=
  ⟨by decide, ⟨sound_decWith_empty, by decide⟩, ⟨sound_decAt_tag, by decide⟩, ⟨sound_decLeft_zero, by decide⟩,
    ⟨sound_decLeft_eight, by decide⟩, ⟨sound_decAt_indexHigh, by decide⟩, ⟨sound_decAt_indexLow_seven, by decide⟩,
    ⟨sound_decAt_countHigh_five, by decide⟩, ⟨sound_decAt_countLow_three, by decide⟩,
    ⟨sound_decAt_countLow_wide, by decide⟩, ⟨sound_decCopying, by decide⟩⟩

/-! Errors, flags, independence -/

/-- Both units latched. -/
def latched : State :=
  { State.reset with
    enc := { Enc.afterNew 8 4 false 0 with finishing := true, fault := true }
    dec := { Dec.afterNew 8 4 16 0 with doneReported := true, fault := true } }
theorem witness_UnusableUnitRespondsMisuse :
    State.reset.enc.cfgValid = false ∧ State.reset.dec.cfgValid = false ∧
    latched.enc.fault = true ∧ latched.dec.fault = true ∧
    ∃ t, exec (.encSink [0x61]) latched = .next t ∧ t.response = some ⟨.misuse, 0, []⟩ :=
  ⟨by decide, by decide, by decide, by decide, answer_some (by decide)⟩
theorem witness_LatchingMisuse :
    ((encIn .done 0 true).enc.usable = true ∧ (encIn .done 0 true).enc.finishing = true ∧
      ∃ t, exec (.encSink []) (encIn .done 0 true) = .next t ∧ t.response = some ⟨.misuse, 0, []⟩) ∧
    ((decHolding 0 true).dec.usable = true ∧ (decHolding 0 true).dec.doneReported = true ∧
      ∃ t, exec (.decSink []) (decHolding 0 true) = .next t ∧ t.response = some ⟨.misuse, 0, []⟩) :=
  ⟨⟨by decide, by decide, answer_some (by decide)⟩, ⟨by decide, by decide, answer_some (by decide)⟩⟩
/-- One instruction of each row that answers a next state. -/
theorem witness_StatusesPerCommand :
    [Instr.encNew 0x48, .encSink [0x61], .encPoll 1, .encFinish, .decNew 0x10048, .decSink [0x61], .decPoll 1, .decFinish,
      .lit 0x61, .bref 0 0].map (fun i => (answer (exec i State.reset)).map Response.status) =
    [some .ok, some .misuse, some .misuse, some .misuse, some .ok, some .misuse, some .misuse, some .misuse,
      some .misuse, some .misuse] := by decide
theorem witness_UnitsAreIndependent :
    (∃ t, exec .encFinish encBusy = .next t ∧ t.response = some ⟨.more, 0, []⟩) ∧ Instr.encFinish.forEnc = true ∧
    (∃ t, exec .decFinish (decLeft 0xFF 6) = .next t ∧ t.response = some ⟨.done, 0, []⟩) ∧
    Instr.decFinish.forEnc = false ∧ ({ encBusy with dec := (decLeft 0xFF 6).dec } : State).enc = encBusy.enc :=
  ⟨answer_some (by decide), by decide, answer_some (by decide), by decide, by decide⟩
theorem witness_FlagsHaveTheirWriters :
    (∃ t, exec .encFinish encBusy = .next t ∧ t.response = some ⟨.more, 0, []⟩) ∧
    (∃ t, exec (.decSink [0xB0]) (decHolding 0 false) = .next t ∧ t.response = some ⟨.ok, 1, []⟩) :=
  ⟨answer_some (by decide), answer_some (by decide)⟩

/-! ENC.POLL -/

theorem witness_EncPollCompletes :
    ((encLast false [0x61, 0x62, 0x61, 0x62]).enc.Sound ∧ (encLast false [0x61, 0x62, 0x61, 0x62]).enc.usable = true) ∧
    ((encLast true [0x61, 0x62, 0x61, 0x62]).enc.Sound ∧ (encLast true [0x61, 0x62, 0x61, 0x62]).enc.usable = true) ∧
    (encBusy.enc.Sound ∧ encBusy.enc.usable = true) :=
  ⟨⟨sound_encLast, by decide⟩, ⟨sound_encIndexed, by decide⟩, ⟨sound_encBusy, by decide⟩⟩
theorem witness_EncPollFrame :
    (encLast false [0x61, 0x62, 0x61, 0x62]).MemoryCanonical ∧ (encLast false [0x61, 0x62, 0x61, 0x62]).enc.Sound ∧
    ∃ t, exec (.encPoll 64) (encLast false [0x61, 0x62, 0x61, 0x62]) = .next t ∧
      t.response = some ⟨.empty, 4, [0xB0, 0xD8, 0x80, 0x21]⟩ :=
  ⟨memory_encLast, sound_encLast, answer_some (by decide +kernel)⟩
/-- P1: `b0 80` and MORE, then the rest. -/
theorem witness_EncPollInPartsIsOnePoll :
    (encLast false (List.replicate 8 0x61)).enc.Sound ∧ (encLast false (List.replicate 8 0x61)).enc.usable = true ∧
    ∃ t u, exec (.encPoll 2) (encLast false (List.replicate 8 0x61)) = .next t ∧
      t.response = some ⟨.more, 2, [0xB0, 0x80]⟩ ∧
      exec (.encPoll 2) t = .next u ∧ u.response = some ⟨.empty, 1, [0x17]⟩ :=
  ⟨sound_encLast_a, by decide, answers_some (by decide +kernel)⟩
theorem witness_EncPollEmptyBeforeFullBlock :
    (encIn .notFull 255 false).enc.Sound ∧ (encIn .notFull 255 false).enc.usable = true ∧
    (encIn .notFull 255 false).enc.state = .notFull ∧ (encIn .notFull 255 false).enc.finishing = false ∧
    (encIn .notFull 255 false).enc.inputSize < 2 ^ (encIn .notFull 255 false).enc.W :=
  ⟨sound_encNotFull, by decide⟩
theorem witness_EncDoneIsTerminal :
    (encIn .done 0 true).enc.Sound ∧ (encIn .done 0 true).enc.usable = true ∧ (encIn .done 0 true).enc.state = .done :=
  ⟨sound_encDone, by decide⟩
/-- A last block of 4 bytes, and a full block that is not the last. -/
theorem witness_EncPollCodesTheBlock :
    ((encLast false [0x61, 0x62, 0x61, 0x62]).MemoryCanonical ∧ (encLast false [0x61, 0x62, 0x61, 0x62]).enc.Sound ∧
      (encLast false [0x61, 0x62, 0x61, 0x62]).enc.usable = true ∧
      (encLast false [0x61, 0x62, 0x61, 0x62]).enc.state = .notFull ∧
      (encLast false [0x61, 0x62, 0x61, 0x62]).enc.finishing = true ∧
      ∃ t, exec (.encPoll 64) (encLast false [0x61, 0x62, 0x61, 0x62]) = .next t ∧
        t.response = some ⟨.empty, 4, [0xB0, 0xD8, 0x80, 0x21]⟩) ∧
    ((encIn .notFull 256 false).MemoryCanonical ∧ (encIn .notFull 256 false).enc.Sound ∧
      (encIn .notFull 256 false).enc.usable = true ∧ (encIn .notFull 256 false).enc.state = .notFull ∧
      (encIn .notFull 256 false).enc.inputSize = 2 ^ 8 ∧
      (answer (exec (.encPoll 64) (encIn .notFull 256 false))).map (fun r => (r.status, r.n)) = some (.empty, 28)) :=
  ⟨⟨memory_encLast, sound_encLast, by decide, by decide, by decide, answer_some (by decide +kernel)⟩,
    ⟨memory_encFull, sound_encFull, by decide, by decide, by decide, by decide +kernel⟩⟩

/-! The micro-steps of ENC -/

/-- Every row of the transitions, and a stop and a stall. -/
theorem witness_EncMicroStepTransitions :
    ((encIn .notFull 255 false).enc.Sound ∧
      micro Enc.state ((encIn .notFull 255 false).enc.microStep 1) = some (.needInput, .notFull)) ∧
    ((encIn .notFull 256 false).enc.Sound ∧
      micro Enc.state ((encIn .notFull 256 false).enc.microStep 1) = some (.continues, .filled)) ∧
    ((encIn .filled 256 false).enc.Sound ∧
      micro Enc.state ((encIn .filled 256 false).enc.microStep 1) = some (.continues, .search)) ∧
    ((encIn .search 0 true).enc.Sound ∧
      micro Enc.state ((encIn .search 0 true).enc.microStep 1) = some (.continues, .saveBacklog)) ∧
    ((encIn .search 256 false).enc.Sound ∧
      micro Enc.state ((encIn .search 256 false).enc.microStep 1) = some (.continues, .yieldTagBit)) ∧
    ((encIn .yieldTagBit 1 true).enc.Sound ∧
      micro Enc.state ((encIn .yieldTagBit 1 true).enc.microStep 1) = some (.continues, .yieldLiteral)) ∧
    ((encMatch .yieldTagBit).enc.Sound ∧
      micro Enc.state ((encMatch .yieldTagBit).enc.microStep 1) = some (.continues, .yieldBackRefIndex)) ∧
    ((encIn .yieldLiteral 1 true).enc.Sound ∧
      micro Enc.state ((encIn .yieldLiteral 1 true).enc.microStep 1) = some (.continues, .saveBacklog) ∧
      micro Enc.state ((encIn .yieldLiteral 1 true).enc.microStep 0) = some (.stall, .yieldLiteral)) ∧
    ((encMatch .yieldBackRefIndex).enc.Sound ∧
      micro Enc.state ((encMatch .yieldBackRefIndex).enc.microStep 1) = some (.continues, .yieldBackRefLength)) ∧
    ((encMatch .yieldBackRefLength).enc.Sound ∧
      micro Enc.state ((encMatch .yieldBackRefLength).enc.microStep 0) = some (.continues, .search)) ∧
    ((encIn .saveBacklog 256 false).enc.Sound ∧
      micro Enc.state ((encIn .saveBacklog 256 false).enc.microStep 1) = some (.continues, .notFull)) ∧
    ((encIn .saveBacklog 0 true).enc.Sound ∧
      micro Enc.state ((encIn .saveBacklog 0 true).enc.microStep 1) = some (.continues, .flushBits)) ∧
    ((encIn .flushBits 0 true).enc.Sound ∧
      micro Enc.state ((encIn .flushBits 0 true).enc.microStep 1) = some (.continues, .done)) ∧
    ((encIn .done 0 true).enc.Sound ∧
      micro Enc.state ((encIn .done 0 true).enc.microStep 1) = some (.finished, .done)) :=
  ⟨⟨sound_encNotFull, by decide⟩, ⟨sound_encFull, by decide⟩, ⟨sound_encFilled, by decide⟩,
    ⟨sound_encSearchEnd, by decide⟩, ⟨sound_encSearch, by decide +kernel⟩, ⟨sound_encTag, by decide⟩,
    ⟨sound_encMatchTag, by decide⟩, ⟨sound_encLiteral, by decide, by decide⟩, ⟨sound_encMatchIndex, by decide⟩,
    ⟨sound_encMatchLength, by decide⟩, ⟨sound_encSave, by decide⟩, ⟨sound_encSaveLast, by decide⟩,
    ⟨sound_encFlush, by decide⟩, ⟨sound_encDone, by decide⟩⟩
/-- A tie (the closest wins), a match of `maxlen`, and none: a lone byte, and `maxlen` below 2. -/
theorem witness_LongestMatchIsClosestLongest :
    256 ≤ 262 ∧
    longestMatch 256 (ByteMemory.writeList [] 256 [0x61, 0x62, 0x58, 0x61, 0x62, 0x59, 0x61, 0x62]) 262 2 = (2, 259) ∧
    longestMatch 256 (ByteMemory.writeList [] 256 [0x61, 0x62]) 256 2 = (0, 0) ∧
    longestMatch 256 [] 256 1 = (0, 0) := by decide +kernel
theorem witness_ChainListsThePositions : 7 ≤ 8 := by decide
/-- A partial block searched at its first byte, and at its last, where `maxlen = 1`. -/
theorem witness_IndexedMatchIsLongestMatch :
    (4 ≤ 256 ∧ 256 ≤ 256 ∧ 256 + 4 ≤ 256 + 4) ∧ (4 ≤ 256 ∧ 256 ≤ 259 ∧ 259 + 1 ≤ 256 + 4) := by decide
/-- A match found in the zero window, and none for a lone last byte. -/
theorem witness_SearchRecordsLongestMatch :
    ((encIn .search 256 false).enc.Sound ∧ (encIn .search 256 false).enc.state = .search ∧
      (encIn .search 256 false).enc.matchScanIndex < (encIn .search 256 false).enc.inputSize) ∧
    ((encIn .search 1 true).enc.Sound ∧ (encIn .search 1 true).enc.state = .search ∧
      (encIn .search 1 true).enc.matchScanIndex < (encIn .search 1 true).enc.inputSize) :=
  ⟨⟨sound_encSearch, by decide⟩, ⟨by constructor <;> decide, by decide⟩⟩
theorem witness_IndexedPollIsLinearPoll :
    (encLast true [0x61, 0x62, 0x61, 0x62]).enc.Sound ∧ (encLast true [0x61, 0x62, 0x61, 0x62]).enc.usable = true ∧
    (encLast true [0x61, 0x62, 0x61, 0x62]).enc.indexed = true ∧
    ∃ t, exec (.encPoll 64) (encLast true [0x61, 0x62, 0x61, 0x62]) = .next t ∧
      t.response = some ⟨.empty, 4, [0xB0, 0xD8, 0x80, 0x21]⟩ :=
  ⟨sound_encIndexed, by decide, by decide, answer_some (by decide +kernel)⟩
/-- The widest field into an accumulator with one free bit: with slots enough it is placed, with one it stalls. -/
theorem witness_PushFieldKeepsTheBits :
    (15 < 2 ^ 15 ∧ ({ Enc.afterNew 15 14 false 0 with currentByte := 0x80, bitIndex := 1 } : Enc).outgoingBitsCount = 0 ∧
      (0x80 : Byte).toNat % 2 ^ 1 = 0) ∧
    (({ Enc.afterNew 15 14 false 0 with currentByte := 0x80, bitIndex := 1 } : Enc).pushField 32767 15 2).2.2 = true ∧
    (({ Enc.afterNew 15 14 false 0 with currentByte := 0x80, bitIndex := 1 } : Enc).pushField 32767 15 1).2.2 = false := by
  decide
theorem witness_FlushPadFillsWithOnes :
    ((Enc.afterNew 8 4 false 0).bitIndex = 8 ∧ (Enc.afterNew 8 4 false 0).currentByte.toNat % 2 ^ 8 = 0) ∧
    ((0x80 : Byte).toNat % 2 ^ 7 = 0 ∧ (0xFE : Byte).toNat % 2 ^ 1 = 0) := by decide
theorem witness_SaveBacklogSlidesTheWindow :
    ((encIn .saveBacklog 256 false).enc.Sound ∧ Memory.wf 0 (encIn .saveBacklog 256 false).enc.buf ∧
      (encIn .saveBacklog 256 false).enc.state = .saveBacklog) ∧
    ((encIn .saveBacklog 0 true).enc.Sound ∧ Memory.wf 0 (encIn .saveBacklog 0 true).enc.buf ∧
      (encIn .saveBacklog 0 true).enc.state = .saveBacklog) :=
  ⟨⟨sound_encSave, by decide⟩, ⟨sound_encSaveLast, by decide⟩⟩
/-- A match at distance 2, and the farthest one, at distance `N` with the longest length, into an accumulator with 7 free
bits. -/
theorem witness_BackrefFieldsFit :
    ((encMatch .yieldBackRefIndex).enc.Sound ∧ (encMatch .yieldBackRefIndex).enc.state = .yieldBackRefIndex ∧
      (encMatch .yieldBackRefIndex).enc.outgoingBitsCount = 0) ∧
    ((encMatch .yieldBackRefLength).enc.Sound ∧ (encMatch .yieldBackRefLength).enc.state = .yieldBackRefLength ∧
      (encMatch .yieldBackRefLength).enc.outgoingBitsCount = 0) ∧
    ((encFar .yieldBackRefIndex).enc.Sound ∧ (encFar .yieldBackRefIndex).enc.state = .yieldBackRefIndex ∧
      (encFar .yieldBackRefIndex).enc.outgoingBitsCount = 0) ∧
    ((encFar .yieldBackRefLength).enc.Sound ∧ (encFar .yieldBackRefLength).enc.state = .yieldBackRefLength ∧
      (encFar .yieldBackRefLength).enc.outgoingBitsCount = 0) :=
  ⟨⟨sound_encMatchIndex, by decide⟩, ⟨sound_encMatchLength, by decide⟩, ⟨sound_encFarIndex, by decide⟩,
    ⟨sound_encFarLength, by decide⟩⟩

/-! DEC -/

/-- One bit too few, exactly enough, and a pull across two bytes. -/
theorem witness_PullReadsTheNextBits :
    ((decLeft 0xFE 7).dec.Sound ∧ (decLeft 0xFE 7).dec.unreadBits.length < 8) ∧
    ((decLeft 0xFF 8).dec.Sound ∧ 8 ≤ (decLeft 0xFF 8).dec.unreadBits.length) ∧
    ((decWith [0xB0, 0x80, 0x17]).dec.Sound ∧ 8 ≤ (decWith [0xB0, 0x80, 0x17]).dec.unreadBits.length) :=
  ⟨⟨sound_decLeft_zero, by decide⟩, ⟨sound_decLeft_eight, by decide⟩, ⟨sound_decWith, by decide⟩⟩
/-- Every row of the transitions, with a stall and an underflow. -/
theorem witness_DecMicroStepTransitions :
    ((decWith []).dec.Sound ∧ micro Dec.state ((decWith []).dec.microStep asPulled 1) = some (.underflow, .tagBit)) ∧
    ((decAt 8 4 .tagBit 1).dec.Sound ∧
      micro Dec.state ((decAt 8 4 .tagBit 1).dec.microStep asPulled 0) = some (.continues, .yieldLiteral)) ∧
    ((decWith [0x7F]).dec.Sound ∧
      micro Dec.state ((decWith [0x7F]).dec.microStep asPulled 0) = some (.continues, .backrefIndexLSB)) ∧
    ((decLeft 0xFF 8).dec.Sound ∧
      micro Dec.state ((decLeft 0xFF 8).dec.microStep asPulled 1) = some (.continues, .tagBit) ∧
      micro Dec.state ((decLeft 0xFF 8).dec.microStep asPulled 0) = some (.stall, .yieldLiteral)) ∧
    ((decAt 15 14 .backrefIndexMSB 7).dec.Sound ∧
      micro Dec.state ((decAt 15 14 .backrefIndexMSB 7).dec.microStep asPulled 0) = some (.continues, .backrefIndexLSB)) ∧
    ((decAt 8 4 .backrefIndexLSB 8).dec.Sound ∧
      micro Dec.state ((decAt 8 4 .backrefIndexLSB 8).dec.microStep asPulled 0) = some (.continues, .backrefCountLSB)) ∧
    ((decAt 15 14 .backrefCountMSB 6).dec.Sound ∧
      micro Dec.state ((decAt 15 14 .backrefCountMSB 6).dec.microStep asPulled 0) = some (.continues, .backrefCountLSB)) ∧
    ((decAt 8 4 .backrefCountLSB 4).dec.Sound ∧
      micro Dec.state ((decAt 8 4 .backrefCountLSB 4).dec.microStep asPulled 0) = some (.continues, .yieldBackref)) ∧
    (decCopying.dec.Sound ∧
      micro Dec.state (decCopying.dec.microStep asPulled 1) = some (.continues, .yieldBackref)) :=
  ⟨⟨sound_decWith_empty, by decide⟩, ⟨sound_decAt_tag, by decide⟩, ⟨by constructor <;> decide, by decide⟩,
    ⟨sound_decLeft_eight, by decide, by decide⟩, ⟨sound_decAt_indexHigh, by decide⟩, ⟨sound_decAt_indexLow, by decide⟩,
    ⟨sound_decAt_countHigh, by decide⟩, ⟨sound_decAt_countLow, by decide⟩, ⟨sound_decCopying, by decide⟩⟩
theorem witness_DecPollCompletes :
    ((decWith [0xB0, 0x80, 0x17]).dec.Sound ∧ (decWith [0xB0, 0x80, 0x17]).dec.usable = true) ∧
    (decCopying.dec.Sound ∧ decCopying.dec.usable = true) :=
  ⟨⟨sound_decWith, by decide⟩, ⟨sound_decCopying, by decide⟩⟩
theorem witness_DecPollFrame :
    (decWith [0xB0, 0x80, 0x17]).MemoryCanonical ∧ (decWith [0xB0, 0x80, 0x17]).dec.Sound ∧
    (decWith [0xB0, 0x80, 0x17]).dec.usable = true ∧
    ∃ t, exec (.decPoll 4) (decWith [0xB0, 0x80, 0x17]) = .next t ∧
      t.response = some ⟨.more, 4, [0x61, 0x61, 0x61, 0x61]⟩ :=
  ⟨memory_decWith _, sound_decWith, by decide, answer_some (by decide +kernel)⟩
theorem witness_DecPollInPartsIsOnePoll :
    (decWith [0xB0, 0x80, 0x17]).dec.Sound ∧ (decWith [0xB0, 0x80, 0x17]).dec.usable = true ∧
    ∃ t u, exec (.decPoll 4) (decWith [0xB0, 0x80, 0x17]) = .next t ∧
      t.response = some ⟨.more, 4, [0x61, 0x61, 0x61, 0x61]⟩ ∧
      exec (.decPoll 8) t = .next u ∧ u.response = some ⟨.empty, 4, [0x61, 0x61, 0x61, 0x61]⟩ :=
  ⟨sound_decWith, by decide, answers_some (by decide +kernel)⟩

/-! The tokens -/

theorem witness_LitTokenEmitsItsByte :
    (decWith [0xB0, 0xD8, 0x80, 0x21]).MemoryCanonical ∧ (decWith [0xB0, 0xD8, 0x80, 0x21]).dec.betweenTokens ∧
    9 ≤ (decWith [0xB0, 0xD8, 0x80, 0x21]).dec.unreadBits.length :=
  ⟨memory_decWith _, between_decTokens, by decide⟩
/-- The largest index and count at `W = 8`, `L = 4`. -/
theorem witness_BrefTokenCopiesFromTheWindow :
    (decWith [0xB0, 0xD8, 0x80, 0x21]).MemoryCanonical ∧ (decWith [0xB0, 0xD8, 0x80, 0x21]).dec.betweenTokens ∧
    255 < 2 ^ (decWith [0xB0, 0xD8, 0x80, 0x21]).dec.W ∧ 15 < 2 ^ (decWith [0xB0, 0xD8, 0x80, 0x21]).dec.L ∧
    1 + 8 + 4 ≤ (decWith [0xB0, 0xD8, 0x80, 0x21]).dec.unreadBits.length :=
  ⟨memory_decWith _, between_decTokens, by decide⟩
theorem witness_TokenOutOfPlace :
    (Instr.lit 0x61).isToken = true ∧ State.reset.dec.usable = false ∧
    decCopying.dec.usable = true ∧ decCopying.dec.state ≠ .tagBit := by decide
/-- The literal `a` of `b0 d8 80 21`, then the rest of the stream. -/
theorem witness_DecPollRunsTheNextToken :
    (decWith [0xB0, 0xD8, 0x80, 0x21]).dec.betweenTokens ∧
    (∃ rest, decodeToken 8 4 (decWith [0xB0, 0xD8, 0x80, 0x21]).dec.unreadBits = .ok (.lit 0x61, rest)) ∧
    ∃ t u, exec (.lit 0x61) (decWith [0xB0, 0xD8, 0x80, 0x21]) = .next t ∧ t.response = some ⟨.empty, 1, [0x61]⟩ ∧
      exec (.decPoll 7) t = .next u ∧ u.response = some ⟨.empty, 3, [0x62, 0x61, 0x62]⟩ :=
  ⟨between_decTokens, ⟨_, rfl⟩, answers_some (by decide +kernel)⟩
/-- `b0 d8 80 21`: two literals, a backref of distance 2 and length 2, one bit of padding. -/
theorem witness_DecPollExpandsTheStream :
    (decWith [0xB0, 0xD8, 0x80, 0x21]).MemoryCanonical ∧ (decWith [0xB0, 0xD8, 0x80, 0x21]).dec.betweenTokens ∧
    (∀ i ∈ [Instr.lit 0x61, .lit 0x62, .bref 1 0], i.isToken = true ∧ i.wellFormed 8 4 = true) ∧
    (decWith [0xB0, 0xD8, 0x80, 0x21]).dec.unreadBits =
      [Instr.lit 0x61, .lit 0x62, .bref 1 0].flatMap (tokenBits 8 4) ++ List.replicate 1 true ∧
    (expandTokens (decWith [0xB0, 0xD8, 0x80, 0x21]).dec.history [.lit 0x61, .lit 0x62, .bref 1 0]).length < 5 :=
  ⟨memory_decWith _, between_decTokens, by decide, by decide, by decide +kernel⟩

/-- ENC with `abab` sunk and finished, DEC after NEW. -/
def bothNew : State := { encLast false [0x61, 0x62, 0x61, 0x62] with dec := (decWith []).dec }
theorem witness_BlockRoundTrips :
    bothNew.MemoryCanonical ∧ bothNew.enc.Sound ∧ bothNew.enc.usable = true ∧ bothNew.enc.state = .notFull ∧
    bothNew.enc.finishing = true ∧ bothNew.dec.betweenTokens ∧ bothNew.dec.W = bothNew.enc.W ∧
    bothNew.dec.L = bothNew.enc.L ∧ bothNew.enc.bufBytes 0 (2 ^ bothNew.enc.W) = bothNew.dec.history ∧
    bothNew.enc.pendingBits = [] ∧ bothNew.dec.unreadBits = [] ∧ bothNew.enc.inputSize < 5 ∧
    ∃ t u v, exec (.encPoll 64) bothNew = .next t ∧ t.response = some ⟨.empty, 4, [0xB0, 0xD8, 0x80, 0x21]⟩ ∧
      exec (.decSink [0xB0, 0xD8, 0x80, 0x21]) t = .next u ∧ u.response = some ⟨.ok, 4, []⟩ ∧
      exec (.decPoll 5) u = .next v ∧ v.response = some ⟨.empty, 4, [0x61, 0x62, 0x61, 0x62]⟩ :=
  ⟨by constructor <;> decide, sound_encLast, by decide, by decide, by decide, ⟨by decide, sound_decWith_empty, by decide⟩,
    by decide, by decide, by decide +kernel, by decide, by decide, by decide, answers_chain (by decide +kernel)⟩

/-! Invariants -/

/-- Both units configured and at work: ENC in the middle of a field, DEC in the middle of a copy. -/
def bothBusy : State := { encBusy with dec := decCopying.dec, inputs := [.command ⟨0x02, 0, [], 4⟩] }
theorem witness_sound : bothBusy.Sound where
  memory := by constructor <;> decide
  enc := fun _ => sound_encBusy
  dec := fun _ => sound_decCopying
  response := fun _ h => by cases h
theorem witness_StepKeepsSound : bothBusy.Sound ∧ (got (step bothBusy)).isSome = true := ⟨witness_sound, by decide +kernel⟩
theorem witness_SoundStepNeverFaults :
    bothBusy.Sound ∧ (asked ⟨0x02, 0, [], 65536⟩ bothBusy).Sound ∧
    step (asked ⟨0x02, 0, [], 65536⟩ bothBusy) = .refused .operandOutOfRange :=
  ⟨witness_sound, ⟨⟨witness_sound.memory.1, witness_sound.memory.2, witness_sound.memory.3, witness_sound.memory.4,
    witness_sound.memory.5⟩, witness_sound.enc, witness_sound.dec, witness_sound.response⟩, rfl⟩

end Sys2Proof.Tests
end

section
/-! SUPPORT. The POLL loop answers within its bound, and the pulls of a sound DEC (R93, R116, R149). -/

namespace Sys2Proof.Machine

/-- A POLL answers within any bound above the measure, when every micro-step answers, keeps `P` and, where the loop goes
on, brings the measure down (R116, R149). -/
theorem pollLoop_answers {σ : Type} {micro : Nat → σ → Except Fault (Turn σ)} {bound : Fault} {P : σ → Prop}
    {measure : Nat → σ → Nat}
    (hmicro : ∀ room u, P u → ∃ t, micro room u = .ok t ∧ P t.unit ∧
      (t.outcome = .continues → measure (room - t.out.length) t.unit < measure room u)) :
    ∀ {left room : Nat} {u : σ}, P u → measure room u < left →
      ∃ u' out st, pollLoop micro bound left room u = .ok (u', out, st) ∧ P u' := by
  intro left
  induction left with
  | zero => intro room u _ hlt; omega
  | succ left ih =>
    intro room u hu hlt
    obtain ⟨t, ht, hP, hdown⟩ := hmicro room u hu
    cases hst : t.outcome.pollStatus with
    | some st => exact ⟨t.unit, t.out, st, by simp [pollLoop, ht, hst], hP⟩
    | none =>
      have hc : t.outcome = .continues := by
        cases ho : t.outcome <;> simp [ho, Micro.pollStatus] at hst ⊢
      obtain ⟨u', out, st, hrec, hP'⟩ := ih hP (Nat.lt_of_lt_of_le (hdown hc) (Nat.le_of_lt_succ hlt))
      exact ⟨u', t.out ++ out, st, by simp [pollLoop, ht, hst, hrec], hP'⟩

/-- What legal parameters say of `W` and `L` (R5, R6). -/
theorem legalParameters_iff {W L : Nat} : legalParameters W L = true ↔ 8 ≤ W ∧ W ≤ 15 ∧ 4 ≤ L ∧ L < W := by
  simp [legalParameters, and_assoc]

/-- The ranges of DEC's registers as inequalities (R33 to R37). -/
theorem Dec.inRange_iff (d : Dec) : d.inRange = true ↔
    d.inputSize ≤ d.ibs ∧ d.inputIndex ≤ d.ibs - 1 ∧ d.headIndex ≤ d.N - 1 ∧ d.indexAcc.toNat ≤ d.N - 1 ∧
    d.distance ≤ d.N ∧ d.countAcc.toNat ≤ 2 ^ d.L - 1 ∧ d.outputCount ≤ 2 ^ d.L + 1 ∧ d.outputIndex ≤ 2 ^ d.L + 1 ∧
    d.bitIndex ≤ 8 := by
  simp [Dec.inRange, and_assoc]

/-- The window of DEC is not empty (R9). -/
theorem Dec.N_pos (d : Dec) : 0 < d.N := Nat.two_pow_pos d.W

/-- A sound unit is committed (R17). -/
theorem Dec.commit_of_sound {t : Turn Dec} (h : t.unit.Sound) : Dec.commit t = .ok t := if_pos h.ranges

/-- Soundness does not depend on which unread bits a sound pair of cursors leaves. -/
theorem Dec.Sound.withCursors {d : Dec} (h : d.Sound) {size index bits : Nat} (byte : Byte) (hbits : bits ≤ 8)
    (hsize : size ≤ d.ibs) (hcur : index < size ∨ (index = 0 ∧ size = 0)) :
    { d with inputSize := size, inputIndex := index, currentByte := byte, bitIndex := bits }.Sound := by
  obtain ⟨-, -, hhead, hindex, hdist, hcount, hoc, hoi, -⟩ := (Dec.inRange_iff _).1 h.ranges
  exact { h with
    ranges := (Dec.inRange_iff _).2 ⟨hsize, by simp only; omega, hhead, hindex, hdist, hcount, hoc, hoi, hbits⟩
    cursors := hcur }

/-- DEC after a pull of `w` bits: sound, in the same state and with the same parameters, `w` bits fewer unread (R93). -/
structure Dec.Pulled (w : Nat) (d d' : Dec) : Prop where
  sound : d'.Sound
  state : d'.state = d.state
  W : d'.W = d.W
  L : d'.L = d.L
  avail : d'.avail + w = d.avail

/-- With a bit unread, the load before a pulled bit answers and leaves a bit in `current_byte` (R93). -/
theorem Dec.load_answers {d : Dec} (h : d.Sound) (ha : 1 ≤ d.avail) :
    ∃ d', (if d.bitIndex = 0 then d.loadByte else .ok d) = .ok d' ∧ Dec.Pulled 0 d d' ∧ 1 ≤ d'.bitIndex := by
  obtain ⟨hsize, -⟩ := (Dec.inRange_iff _).1 h.ranges
  have hcur := h.cursors
  have hcap := h.capacity
  unfold Dec.avail at ha
  by_cases hb : d.bitIndex = 0
  · have hi : d.inputIndex < d.ibs := by omega
    rw [if_pos hb, Dec.loadByte, if_pos hi]
    by_cases hl : d.inputIndex + 1 = d.inputSize
    · exact ⟨_, if_pos hl, ⟨h.withCursors _ (by omega) (by omega) (.inr ⟨rfl, rfl⟩), rfl, rfl, rfl,
        by simp only [Dec.avail]; omega⟩, by simp⟩
    · exact ⟨_, if_neg hl, ⟨h.withCursors _ (by omega) hsize (.inl (by omega)), rfl, rfl, rfl,
        by simp only [Dec.avail]; omega⟩, by simp⟩
  · exact ⟨d, if_neg hb, ⟨h, rfl, rfl, rfl, rfl⟩, by omega⟩

/-- A pull of no more bits than are unread answers a number of that width onto the bits before (R93). -/
theorem Dec.pullBits_answers {w v : Nat} {d : Dec} (h : d.Sound) (ha : w ≤ d.avail) :
    ∃ r d', Dec.pullBits w v d = .ok (r, d') ∧ r < (v + 1) * 2 ^ w ∧ Dec.Pulled w d d' := by
  induction w generalizing v d with
  | zero => exact ⟨v, d, rfl, by simp, h, rfl, rfl, rfl, rfl⟩
  | succ w ih =>
    obtain ⟨d₁, hload, hd₁, hbit⟩ := Dec.load_answers h (by omega)
    obtain ⟨hsize, -, -, -, -, -, -, -, hbits⟩ := (Dec.inRange_iff _).1 hd₁.sound.ranges
    have hs₂ : { d₁ with bitIndex := d₁.bitIndex - 1 }.Sound :=
      hd₁.sound.withCursors d₁.currentByte (by omega) hsize hd₁.sound.cursors
    have ha₂ : { d₁ with bitIndex := d₁.bitIndex - 1 }.avail + 1 = d.avail := by
      have := hd₁.avail
      simp only [Dec.avail] at this ⊢
      omega
    obtain ⟨r, d', hpull, hr, hd'⟩ :=
      ih (v := 2 * v + (d₁.currentByte.getLsbD (d₁.bitIndex - 1)).toNat) hs₂ (by omega)
    refine ⟨r, d', by simp [Dec.pullBits, hload, hpull], ?_, hd'.sound, hd'.state.trans hd₁.state,
      hd'.W.trans hd₁.W, hd'.L.trans hd₁.L, by have := hd'.avail; omega⟩
    have hb := Bool.toNat_le (d₁.currentByte.getLsbD (d₁.bitIndex - 1))
    calc r < _ := hr
      _ ≤ (2 * (v + 1)) * 2 ^ w := Nat.mul_le_mul_right _ (by omega)
      _ = (v + 1) * 2 ^ (w + 1) := by ring

/-- The number of micro-steps left in the token DEC is inside, at most, the present one included (log 7). -/
def Dec.tokenStepsLeft (d : Dec) : Nat :=
  match d.state with
  | .tagBit => 2 ^ d.L + 6
  | .yieldLiteral => 1
  | .backrefIndexMSB => 2 ^ d.L + 5
  | .backrefIndexLSB => 2 ^ d.L + 4
  | .backrefCountMSB => 2 ^ d.L + 3
  | .backrefCountLSB => 2 ^ d.L + 2
  | .yieldBackref => d.outputCount

/-- What a micro-step of a sound DEC leaves: a sound unit under the same parameters, and where it continues less to do,
both for the POLL (slots and bits, R149) and for the token. -/
structure Dec.Follows (room : Nat) (d : Dec) (t : Turn Dec) : Prop where
  sound : t.unit.Sound
  W : t.unit.W = d.W
  L : t.unit.L = d.L
  pollShrinks : t.outcome = .continues → room - t.out.length + t.unit.avail < room + d.avail
  tokenShrinks : t.outcome = .continues → t.unit.state ≠ .tagBit → t.unit.tokenStepsLeft < d.tokenStepsLeft

/-- A micro-step that ends the POLL with nothing changed. -/
theorem Dec.Follows.stop {room : Nat} {d : Dec} {r : Micro} (h : d.Sound) (hr : r ≠ .continues) :
    Dec.Follows room d (.stop d r) :=
  ⟨h, rfl, rfl, fun hc => absurd hc hr, fun hc => absurd hc hr⟩

/-- `field` gives every pulling state, under the parameters `W` and `L`, a number of the width it pulls (R141). -/
def FitsPulls (W L : Nat) (field : DecState → Nat → Nat) : Prop :=
  ∀ (d : Dec) (w v : Nat), d.W = W → d.L = L → d.pullWidth = some w → v < 2 ^ w → field d.state v < 2 ^ w

/-- A pulling state goes on from a sound DEC when what it does with the field does (R133). -/
theorem Dec.pulling_follows {w room : Nat} {field : DecState → Nat → Nat} {d : Dec}
    {next : Nat → Dec → Except Fault (Turn Dec)} (h : d.Sound) (hf : FitsPulls d.W d.L field)
    (hw : d.pullWidth = some w)
    (hnext : ∀ r d', r < 2 ^ w → Dec.Pulled w d d' → ∃ t, next r d' = .ok t ∧ Dec.Follows room d t) :
    ∃ t, d.pulling w field next = .ok t ∧ Dec.Follows room d t := by
  by_cases ha : d.avail < w
  · exact ⟨.stop d .underflow, by simp [Dec.pulling, Dec.pull, ha], .stop h (by decide)⟩
  · obtain ⟨v, d', hpull, hv, hd'⟩ := Dec.pullBits_answers (v := 0) h (Nat.le_of_not_lt ha)
    obtain ⟨t, ht, hfollows⟩ := hnext (field d.state v) d' (hf d w v rfl rfl hw (by simpa using hv)) hd'
    exact ⟨t, by simp [Dec.pulling, Dec.pull, ha, hpull, ht], hfollows⟩

/-- A state that only pulls, and then moves on within the token. -/
theorem Dec.Pulled.go {w room : Nat} {d d' e : Dec} (hp : Dec.Pulled w d d') (hw : 1 ≤ w) (he : e.Sound)
    (hW : e.W = d'.W) (hL : e.L = d'.L) (ha : e.avail = d'.avail) (ht : e.tokenStepsLeft < d.tokenStepsLeft) :
    ∃ t, Except.ok (ε := Fault) (Turn.go e) = .ok t ∧ Dec.Follows room d t :=
  ⟨_, rfl, he, hW.trans hp.W, hL.trans hp.L,
    fun _ => by have := hp.avail; simp only [Turn.go, List.length_nil]; omega, fun _ _ => ht⟩

/-- The low byte joins a field whose low byte is free (R137, R139). -/
theorem Reg16.toNat_or_ofNat {x : Reg16} {r : Nat} (hx : x.toNat % 256 = 0) (hr : r < 256) :
    (x ||| BitVec.ofNat 16 r).toNat = x.toNat + r := by
  have hor := Nat.two_pow_add_eq_or_of_lt (i := 8) hr (x.toNat / 256)
  have hx' : 2 ^ 8 * (x.toNat / 256) = x.toNat := by omega
  rw [hx'] at hor
  rw [BitVec.toNat_or, BitVec.toNat_ofNat, Nat.mod_eq_of_lt (by omega), hor]

/-- The bits above the low byte of a field of at most 15 bits (R136, R138). -/
theorem Reg16.toNat_ofNat_shiftLeft {r n : Nat} (hn : 8 < n) (hn' : n ≤ 15) (hr : r < 2 ^ (n - 8)) :
    (BitVec.ofNat 16 r <<< 8).toNat = 256 * r ∧ 256 * r ≤ 2 ^ n - 1 := by
  have hpow := Nat.pow_sub_mul_pow 2 (Nat.le_of_lt hn)
  have hle : 2 ^ n ≤ 2 ^ 15 := Nat.pow_le_pow_right (by omega) hn'
  refine ⟨?_, by omega⟩
  rw [BitVec.toNat_shiftLeft, BitVec.toNat_ofNat, Nat.shiftLeft_eq]
  omega

/-- A multiple of 256 below `2^n` leaves room for a low byte. -/
theorem add_byte_lt_two_pow {x r n : Nat} (hn : 8 ≤ n) (hx : x % 256 = 0) (hlt : x ≤ 2 ^ n - 1) (hr : r < 256) :
    x + r ≤ 2 ^ n - 1 := by
  have hpow := Nat.pow_sub_mul_pow 2 hn
  have := Nat.two_pow_pos n
  omega

end Sys2Proof.Machine
end

section
/-! SUPPORT. The micro-steps of a sound DEC: each answers, keeps the decoder sound, and brings the POLL and the token
closer to their ends (R133 to R140, R149). -/

namespace Sys2Proof.Machine

section
variable {field : DecState → Nat → Nat} {d : Dec}

/-- TagBit goes on (R134). -/
theorem Dec.stepTagBit_follows (h : d.Sound) (hf : FitsPulls d.W d.L field) (room : Nat) (hst : d.state = .tagBit) :
    ∃ t, d.stepTagBit field = .ok t ∧ Dec.Follows room d t := by
  refine Dec.pulling_follows h hf (by simp [Dec.pullWidth, hst]) fun r d' _ hp => ?_
  have hs := hp.sound
  obtain ⟨hsize, hinput, hhead, -, hdist, hcount, hoc, hoi, hbits⟩ := (Dec.inRange_iff _).1 hs.ranges
  by_cases hr : r = 1
  · rw [if_pos hr]
    refine hp.go (by decide) ?_ rfl rfl rfl (by simp [Dec.tokenStepsLeft, hst])
    exact { hs with
      indexHigh := nofun, indexLow := nofun, countHigh := nofun, countLow := nofun
      distanceHeld := by simp, copying := nofun }
  · rw [if_neg hr]
    have hranges := (Dec.inRange_iff { d' with indexAcc := 0 }).2
      ⟨hsize, hinput, hhead, Nat.zero_le _, hdist, hcount, hoc, hoi, hbits⟩
    by_cases hW : 8 < d'.W
    · rw [if_pos hW]
      refine hp.go (by decide) ?_ rfl rfl rfl (by simp [Dec.tokenStepsLeft, hst, hp.L])
      exact { hs with
        ranges := hranges
        indexHigh := fun _ => hW, indexLow := nofun, countHigh := nofun, countLow := nofun
        distanceHeld := by simp, copying := nofun }
    · rw [if_neg hW]
      refine hp.go (by decide) ?_ rfl rfl rfl (by simp [Dec.tokenStepsLeft, hst, hp.L])
      exact { hs with
        ranges := hranges
        indexHigh := nofun, indexLow := fun _ => rfl, countHigh := nofun, countLow := nofun
        distanceHeld := by simp, copying := nofun }

/-- BackrefIndexMSB goes on (R136). -/
theorem Dec.stepBackrefIndexMSB_follows (h : d.Sound) (hf : FitsPulls d.W d.L field) (room : Nat)
    (hst : d.state = .backrefIndexMSB) :
    ∃ t, d.stepBackrefIndexMSB field = .ok t ∧ Dec.Follows room d t := by
  have hW := h.indexHigh hst
  refine Dec.pulling_follows h hf (by simp [Dec.pullWidth, hst]) fun r d' hr hp => ?_
  have hs := hp.sound
  obtain ⟨hsize, hinput, hhead, -, hdist, hcount, hoc, hoi, hbits⟩ := (Dec.inRange_iff _).1 hs.ranges
  obtain ⟨-, hW15, -⟩ := legalParameters_iff.1 h.legal
  obtain ⟨hacc, hle⟩ := Reg16.toNat_ofNat_shiftLeft hW hW15 hr
  refine hp.go (by omega) ?_ rfl rfl rfl (by simp [Dec.tokenStepsLeft, hst, hp.L])
  exact { hs with
    ranges := (Dec.inRange_iff _).2 ⟨hsize, hinput, hhead, by simp only [hacc, Dec.N, hp.W, hle], hdist, hcount, hoc,
      hoi, hbits⟩
    indexHigh := nofun, indexLow := fun _ => by simp only [hacc]; omega
    countHigh := nofun, countLow := nofun
    distanceHeld := by simp, copying := nofun }

/-- BackrefIndexLSB goes on: the index is below `N`, so the distance is at most `N` (R137). -/
theorem Dec.stepBackrefIndexLSB_follows (h : d.Sound) (hf : FitsPulls d.W d.L field) (room : Nat)
    (hst : d.state = .backrefIndexLSB) :
    ∃ t, d.stepBackrefIndexLSB field = .ok t ∧ Dec.Follows room d t := by
  refine Dec.pulling_follows h hf (by simp [Dec.pullWidth, hst]) fun r d' hr hp => ?_
  have hs := hp.sound
  obtain ⟨hsize, hinput, hhead, hindex, -, -, hoc, hoi, hbits⟩ := (Dec.inRange_iff _).1 hs.ranges
  obtain ⟨hW8, -⟩ := legalParameters_iff.1 hs.legal
  have hlow := hs.indexLow (hp.state.trans hst)
  have hor := Reg16.toNat_or_ofNat hlow hr
  have hle : d'.indexAcc.toNat + r ≤ d'.N - 1 := add_byte_lt_two_pow hW8 hlow hindex hr
  have hN := d'.N_pos
  have hranges (st : DecState) := (Dec.inRange_iff { d' with
      indexAcc := d'.indexAcc ||| BitVec.ofNat 16 r, distance := (d'.indexAcc ||| BitVec.ofNat 16 r).toNat + 1
      countAcc := 0, state := st }).2
    ⟨hsize, hinput, hhead, by rw [hor]; exact hle, by show _ + 1 ≤ d'.N; omega, Nat.zero_le _, hoc, hoi, hbits⟩
  by_cases hL : 8 < d'.L
  · simp only [if_pos hL]
    refine hp.go (by decide) ?_ rfl rfl rfl (by simp [Dec.tokenStepsLeft, hst, hp.L])
    exact { hs with
      ranges := hranges _
      indexHigh := nofun, indexLow := nofun, countHigh := fun _ => hL, countLow := nofun
      distanceHeld := fun _ => rfl, copying := nofun }
  · simp only [if_neg hL]
    refine hp.go (by decide) ?_ rfl rfl rfl (by simp [Dec.tokenStepsLeft, hst, hp.L])
    exact { hs with
      ranges := hranges _
      indexHigh := nofun, indexLow := nofun, countHigh := nofun, countLow := fun _ => ⟨rfl, fun _ => rfl⟩
      distanceHeld := fun _ => rfl, copying := nofun }

/-- BackrefCountMSB goes on (R138). -/
theorem Dec.stepBackrefCountMSB_follows (h : d.Sound) (hf : FitsPulls d.W d.L field) (room : Nat)
    (hst : d.state = .backrefCountMSB) :
    ∃ t, d.stepBackrefCountMSB field = .ok t ∧ Dec.Follows room d t := by
  have hL := h.countHigh hst
  refine Dec.pulling_follows h hf (by simp [Dec.pullWidth, hst]) fun r d' hr hp => ?_
  have hs := hp.sound
  obtain ⟨hsize, hinput, hhead, hindex, hdist, -, hoc, hoi, hbits⟩ := (Dec.inRange_iff _).1 hs.ranges
  obtain ⟨-, hW15, -, hLW⟩ := legalParameters_iff.1 h.legal
  obtain ⟨hacc, hle⟩ := Reg16.toNat_ofNat_shiftLeft hL (by omega) hr
  refine hp.go (by omega) ?_ rfl rfl rfl (by simp [Dec.tokenStepsLeft, hst, hp.L])
  exact { hs with
    ranges := (Dec.inRange_iff _).2 ⟨hsize, hinput, hhead, hindex, hdist, by simp only [hacc, hp.L, hle], hoc,
      hoi, hbits⟩
    indexHigh := nofun, indexLow := nofun
    countHigh := nofun, countLow := fun _ => ⟨by simp only [hacc]; omega, fun hle => by simp only [hp.L] at hle; omega⟩
    distanceHeld := fun _ => hs.distanceHeld (.inl (hp.state.trans hst)), copying := nofun }

/-- BackrefCountLSB goes on: the count is below `2^L`, so the length is at most `2^L + 1` (R139). -/
theorem Dec.stepBackrefCountLSB_follows (h : d.Sound) (hf : FitsPulls d.W d.L field) (room : Nat)
    (hst : d.state = .backrefCountLSB) :
    ∃ t, d.stepBackrefCountLSB field = .ok t ∧ Dec.Follows room d t := by
  obtain ⟨-, -, hL4, -⟩ := legalParameters_iff.1 h.legal
  refine Dec.pulling_follows h hf (by simp [Dec.pullWidth, hst]) fun r d' hr hp => ?_
  have hs := hp.sound
  obtain ⟨hsize, hinput, hhead, hindex, hdist, hcount, -, -, hbits⟩ := (Dec.inRange_iff _).1 hs.ranges
  obtain ⟨hlow, hzero⟩ := hs.countLow (hp.state.trans hst)
  have hr8 : r < 256 := Nat.lt_of_lt_of_le hr (Nat.pow_le_pow_right (n := 2) (by decide) (Nat.min_le_right d.L 8))
  have hor := Reg16.toNat_or_ofNat hlow hr8
  have hpos := Nat.two_pow_pos d'.L
  have hle : d'.countAcc.toNat + r ≤ 2 ^ d'.L - 1 := by
    rcases Nat.lt_or_ge 8 d'.L with hL | hL
    · exact add_byte_lt_two_pow (by omega) hlow hcount hr8
    · rw [← hp.L, Nat.min_eq_left hL] at hr
      rw [hzero hL]
      show 0 + r ≤ _
      omega
  refine hp.go (by omega) ?_ rfl rfl rfl (by simp only [Dec.tokenStepsLeft, hst, hor, ← hp.L]; omega)
  exact { hs with
    ranges := (Dec.inRange_iff _).2 ⟨hsize, hinput, hhead, hindex, hdist, by rw [hor]; exact hle, by
      simp only [hor]; omega, Nat.zero_le _, hbits⟩
    indexHigh := nofun, indexLow := nofun, countHigh := nofun, countLow := nofun
    distanceHeld := fun _ => hs.distanceHeld (.inr (.inl (hp.state.trans hst)))
    copying := fun _ => ⟨by simp, by simp⟩ }

/-- Emitting a byte answers and leaves the history inside `WIN` (R34, R135, R140). -/
theorem Dec.emitByte_sound (h : d.Sound) (b : Byte) :
    ∃ win head, d.emitByte b = .ok { d with win := win, headIndex := head } ∧
      { d with win := win, headIndex := head }.Sound := by
  obtain ⟨hsize, hinput, hhead, hindex, hdist, hcount, hoc, hoi, hbits⟩ := (Dec.inRange_iff _).1 h.ranges
  have hN := d.N_pos
  have hlt : d.headIndex < d.N := by omega
  refine ⟨_, _, Dec.emitByte_of_lt b hlt, { h with
    ranges := (Dec.inRange_iff _).2 ⟨hsize, hinput, ?_, hindex, hdist, hcount, hoc, hoi, hbits⟩
    winInside := Memory.write_below h.winInside hlt b }⟩
  exact Nat.le_sub_one_of_lt (Nat.mod_lt _ hN)

/-- YieldLiteral goes on: it stalls, or a slot and eight bits are used up (R135). -/
theorem Dec.stepYieldLiteral_follows (h : d.Sound) (hf : FitsPulls d.W d.L field) (room : Nat)
    (hst : d.state = .yieldLiteral) :
    ∃ t, d.stepYieldLiteral field room = .ok t ∧ Dec.Follows room d t := by
  by_cases hroom : room = 0
  · exact ⟨_, if_pos hroom, .stop h (by decide)⟩
  · rw [Dec.stepYieldLiteral, if_neg hroom]
    refine Dec.pulling_follows h hf (by simp [Dec.pullWidth, hst]) fun r d' _ hp => ?_
    obtain ⟨win, head, hemit, hs⟩ := Dec.emitByte_sound hp.sound (BitVec.ofNat 8 r)
    have havail := hp.avail
    rw [hemit]
    refine ⟨_, rfl, ?_, hp.W, hp.L, fun _ => ?_, fun _ hne => absurd rfl hne⟩
    · exact { hs with
        indexHigh := nofun, indexLow := nofun, countHigh := nofun, countLow := nofun
        distanceHeld := by simp, copying := nofun }
    · simp only [Dec.avail, List.length_singleton] at havail ⊢
      omega

/-- YieldBackref goes on: it stalls, or a slot and one of the copies are used up (R140). -/
theorem Dec.stepYieldBackref_follows (h : d.Sound) (room : Nat) (hst : d.state = .yieldBackref) :
    ∃ t, d.stepYieldBackref room = .ok t ∧ Dec.Follows room d t := by
  by_cases hroom : room = 0
  · exact ⟨_, if_pos hroom, .stop h (by decide)⟩
  · obtain ⟨hleft, hsum⟩ := h.copying hst
    obtain ⟨win, head, hemit, hs⟩ := Dec.emitByte_sound h (d.win.read d.copySource)
    obtain ⟨hsize, hinput, hhead, hindex, hdist, hcount, hoc, hoi, hbits⟩ := (Dec.inRange_iff _).1 hs.ranges
    have hpos := Nat.two_pow_pos d.L
    simp only at hcount hoc
    simp only [Dec.stepYieldBackref, if_neg hroom, if_neg (show ¬ d.outputCount = 0 by omega), ByteMemory.readWin,
      accessAt_of_lt _ _ d.copySource_lt, hemit]
    refine ⟨_, rfl, ?_, rfl, rfl, fun _ => ?_, fun _ hne => ?_⟩
    · have hranges (st : DecState) := (Dec.inRange_iff { d with
          win := win, headIndex := head, outputCount := d.outputCount - 1, outputIndex := d.outputIndex + 1
          state := st }).2
          ⟨hsize, hinput, hhead, hindex, hdist, hcount, by simp only; omega, by simp only; omega, hbits⟩
      by_cases hlast : d.outputCount - 1 = 0
      · simp only [if_pos hlast]
        exact { hs with
          ranges := hranges _
          indexHigh := nofun, indexLow := nofun, countHigh := nofun, countLow := nofun
          distanceHeld := by simp, copying := nofun }
      · simp only [if_neg hlast]
        exact { hs with
          ranges := hranges _
          indexHigh := nofun, indexLow := nofun, countHigh := nofun, countLow := nofun
          distanceHeld := fun _ => hs.distanceHeld (.inr (.inr hst))
          copying := fun _ => ⟨by simp only; omega, by simp only; omega⟩ }
    · simp only [Dec.avail, List.length_singleton]
      omega
    · by_cases hlast : d.outputCount - 1 = 0
      · simp [hlast] at hne
      · simp only [Dec.tokenStepsLeft, if_neg hlast, hst]
        omega

/-- Every micro-step of a sound DEC answers, keeps it sound, and leaves less to do where it continues (R15, R17, R133,
R149). -/
theorem Dec.microStep_follows (h : d.Sound) (hf : FitsPulls d.W d.L field) (room : Nat) :
    ∃ t, d.microStep field room = .ok t ∧ Dec.Follows room d t := by
  have haction : ∃ t, d.stateAction field room = .ok t ∧ Dec.Follows room d t := by
    unfold Dec.stateAction
    cases hst : d.state with
    | tagBit => exact Dec.stepTagBit_follows h hf room hst
    | yieldLiteral => exact Dec.stepYieldLiteral_follows h hf room hst
    | backrefIndexMSB => exact Dec.stepBackrefIndexMSB_follows h hf room hst
    | backrefIndexLSB => exact Dec.stepBackrefIndexLSB_follows h hf room hst
    | backrefCountMSB => exact Dec.stepBackrefCountMSB_follows h hf room hst
    | backrefCountLSB => exact Dec.stepBackrefCountLSB_follows h hf room hst
    | yieldBackref => exact Dec.stepYieldBackref_follows h room hst
  obtain ⟨t, ht, hfollows⟩ := haction
  exact ⟨t, by simp only [Dec.microStep, ht, Dec.commit_of_sound hfollows.sound], hfollows⟩

/-- In a POLL a field is the number pulled, which has the width pulled. -/
theorem fitsPulls_asPulled (W L : Nat) : FitsPulls W L asPulled := fun _ _ _ _ _ _ hv => hv

/-- DEC.POLL of a sound decoder answers within its bound, and leaves it sound (R149). -/
theorem Dec.poll_answers (h : d.Sound) (capacity : Nat) :
    ∃ d' out st, d.poll capacity = .ok (d', out, st) ∧ d'.Sound := by
  refine pollLoop_answers (measure := fun room u => room + u.avail) (fun room u hu => ?_) h ?_
  · obtain ⟨t, ht, hfollows⟩ := Dec.microStep_follows hu (fitsPulls_asPulled u.W u.L) room
    exact ⟨t, ht, hfollows.sound, hfollows.pollShrinks⟩
  · obtain ⟨hsize, -, -, -, -, -, -, -, hbits⟩ := (Dec.inRange_iff _).1 h.ranges
    simp only [Dec.avail, Dec.pollBound]
    omega

/-- A token never needs more micro-steps than its bound (log 7). -/
theorem Dec.tokenStepsLeft_lt_tokenBound (h : d.Sound) : d.tokenStepsLeft < d.tokenBound := by
  obtain ⟨-, -, -, -, -, -, hoc, -⟩ := (Dec.inRange_iff _).1 h.ranges
  unfold Dec.tokenStepsLeft Dec.tokenBound
  split <;> omega

/-- A sound decoder under the parameters `W` and `L`. -/
def Dec.SoundUnder (W L : Nat) (d : Dec) : Prop := d.Sound ∧ d.W = W ∧ d.L = L

/-- Every micro-step of a token answers, and leaves less of the token to do where it continues (log 7). -/
theorem Dec.tokenMicroStep_answers {W L : Nat} (hf : FitsPulls W L field) (room : Nat) (d : Dec)
    (h : d.SoundUnder W L) :
    ∃ t, d.tokenMicroStep field room = .ok t ∧ t.unit.SoundUnder W L ∧
      (t.outcome = .continues → t.unit.tokenStepsLeft < d.tokenStepsLeft) := by
  obtain ⟨hs, rfl, rfl⟩ := h
  obtain ⟨t, ht, hfollows⟩ := Dec.microStep_follows hs hf room
  have hunder : t.unit.SoundUnder d.W d.L := ⟨hfollows.sound, hfollows.W, hfollows.L⟩
  by_cases hend : t.outcome = .continues ∧ t.unit.state = .tagBit
  · exact ⟨{ t with outcome := .underflow }, by simp only [Dec.tokenMicroStep, ht, if_pos hend], hunder, nofun⟩
  · exact ⟨t, by simp only [Dec.tokenMicroStep, ht, if_neg hend], hunder,
      fun hc => hfollows.tokenShrinks hc fun htag => hend ⟨hc, htag⟩⟩

/-- The run of one token from a sound decoder answers within its bound, and leaves it sound (log 7). -/
theorem Dec.tokenRun_answers (h : d.Sound) (hf : FitsPulls d.W d.L field) (capacity : Nat) :
    ∃ d' out st, pollLoop (Dec.tokenMicroStep field) (.microStepBound .dec) d.tokenBound capacity d =
      .ok (d', out, st) ∧ d'.Sound := by
  obtain ⟨d', out, st, hrun, hs, -⟩ := pollLoop_answers (bound := .microStepBound .dec) (room := capacity)
    (measure := fun _ => Dec.tokenStepsLeft) (Dec.tokenMicroStep_answers hf) ⟨h, rfl, rfl⟩
    (Dec.tokenStepsLeft_lt_tokenBound h)
  exact ⟨d', out, st, hrun, hs⟩

end

/-- The bits above the low byte of a number of `n` bits (R67, R141). -/
theorem shiftRight_byte_lt {x n : Nat} (hx : x < 2 ^ n) : x >>> 8 < 2 ^ (n - 8) := by
  rw [Nat.shiftRight_eq_div_pow, Nat.div_lt_iff_lt_mul (by decide), ← Nat.pow_add]
  exact Nat.lt_of_lt_of_le hx (Nat.pow_le_pow_right (by decide) (by omega))

/-- The fields of a well-formed token fit the pulls of its states (R66, R67, R141). -/
theorem fitsPulls_tokenField {W L : Nat} {i : Instr} (hwf : i.wellFormed W L = true) (hi : i.isToken = true) :
    FitsPulls W L (tokenField i L) := by
  rintro d w v rfl rfl hw hv
  unfold Dec.pullWidth at hw
  cases i with
  | lit b =>
    cases hst : d.state <;> rw [hst] at hw <;> cases hw
    case tagBit.refl => exact Nat.one_lt_two_pow (by decide)
    case yieldLiteral.refl => exact b.isLt
    all_goals exact hv
  | bref index count =>
    obtain ⟨hindex, hcount⟩ : index < 2 ^ d.W ∧ count < 2 ^ d.L := by simpa [Instr.wellFormed] using hwf
    cases hst : d.state <;> rw [hst] at hw <;> cases hw
    case tagBit.refl => exact Nat.two_pow_pos 1
    case yieldLiteral.refl => exact hv
    case backrefIndexMSB.refl => exact shiftRight_byte_lt hindex
    case backrefIndexLSB.refl => exact Nat.mod_lt _ (by decide)
    case backrefCountMSB.refl => exact shiftRight_byte_lt hcount
    case backrefCountLSB.refl => exact Nat.mod_lt _ (Nat.two_pow_pos _)
  | _ => cases hi
end Sys2Proof.Machine
end

section
/-! SUPPORT. The search of a sound ENC: the index lies inside its memories, the walk along it reads inside `NEXT`, and a
match is a candidate of `p` (R30, R103 to R106, R123, R125). -/

namespace Sys2Proof.Machine

/-- A read gives the default or a listed entry. -/
theorem Memory.read_eq_or_mem {α : Type} (d : α) (m : Memory α) (a : Nat) :
    Memory.read d m a = d ∨ (a, Memory.read d m a) ∈ m := by
  induction m with
  | nil => exact .inl rfl
  | cons c m ih =>
    obtain ⟨k, v⟩ := c
    unfold Memory.read
    split
    · next hk => exact .inr (by simp [hk])
    · split
      · exact .inl rfl
      · exact ih.imp_right (List.mem_cons_of_mem _)

/-- A position read from an index memory is one of the positions it may hold (R121). -/
theorem LinkMemory.read_lt {m : LinkMemory} {n a q : Nat} (h : LinkMemory.positionsBelow n m)
    (hr : m.read a = some q) : q < n := by
  rcases Memory.read_eq_or_mem none m a with hnone | hmem
  · rw [LinkMemory.read, hnone] at hr
    cases hr
  · rw [show Memory.read none m a = some q from hr] at hmem
    simpa using h _ hmem

/-- Writing an allowed position, or NONE, keeps the positions allowed (R121). -/
theorem LinkMemory.write_positionsBelow {m : LinkMemory} {n : Nat} {v : Option Nat}
    (h : LinkMemory.positionsBelow n m) (hv : ∀ q, v = some q → q < n) (a : Nat) :
    LinkMemory.positionsBelow n (m.write a v) := fun c hc => by
  rcases Memory.mem_write hc with ⟨rfl, -⟩ | hc
  · cases v with
    | none => rfl
    | some q => simpa using hv q rfl
  · exact h c hc

/-- A key of the index is two bytes (R122). -/
theorem prefix2_lt (buf : ByteMemory) (i : Nat) : prefix2 buf i < 65536 := by
  have h1 := (buf.read i).isLt
  have h2 := (buf.read (i + 1)).isLt
  unfold prefix2
  omega

/-- The index of the positions below `n` lies inside its memories and holds only such positions (R30, R123). -/
theorem buildIndex_inside (buf : ByteMemory) {n size : Nat} (hn : n ≤ size) :
    (Memory.below 65536 (buildIndex buf n).1 ∧ LinkMemory.positionsBelow size (buildIndex buf n).1) ∧
    (Memory.below size (buildIndex buf n).2 ∧ LinkMemory.positionsBelow size (buildIndex buf n).2) := by
  induction n with
  | zero => simp [buildIndex]
  | succ n ih =>
    obtain ⟨⟨hhead, hheadPos⟩, hnext, hnextPos⟩ := ih (by omega)
    refine ⟨⟨Memory.write_below hhead (prefix2_lt buf n) _, LinkMemory.write_positionsBelow hheadPos ?_ _⟩,
      Memory.write_below hnext hn _,
      LinkMemory.write_positionsBelow hnextPos (fun _ => LinkMemory.read_lt hheadPos) _⟩
    rintro q ⟨⟩
    exact hn

/-- A match has at most the length that was asked for (R104). -/
theorem matchLen_le (buf : ByteMemory) (q p left k : Nat) : matchLen buf q p left k ≤ k + left := by
  induction left generalizing k with
  | zero => exact Nat.le_refl k
  | succ left ih =>
    unfold matchLen
    split
    · have := ih (k + 1)
      omega
    · omega

/-- A best match so far: none, or at most `maxlen` bytes at a candidate of `p` (R104, R125). -/
def IsCandidate (N p maxlen : Nat) (best : Nat × Nat) : Prop :=
  best.1 = 0 ∨ (best.1 ≤ maxlen ∧ p - N ≤ best.2 ∧ best.2 < p)

/-- Looking at one more candidate of the window keeps to the candidates (R125). -/
theorem tryCandidate_isCandidate {buf : ByteMemory} {N p maxlen q : Nat} {best : Nat × Nat} (hq : p - N ≤ q)
    (h : IsCandidate N p maxlen best) : IsCandidate N p maxlen (tryCandidate buf p maxlen q best) := by
  have hk := matchLen_le buf q p maxlen 0
  unfold tryCandidate
  split
  · simp only
    split
    · exact .inr ⟨by simp only; omega, hq, by assumption⟩
    · exact h
  · exact h

/-- A step of the linear scan looks at one candidate, and ends where the match has full length (R104). -/
theorem scanFrom_succ (buf : ByteMemory) {p maxlen low n : Nat} (hn : low + n < p) (best : Nat × Nat) :
    scanFrom buf p maxlen low (n + 1) best =
      if (tryCandidate buf p maxlen (low + n) best).1 = maxlen then tryCandidate buf p maxlen (low + n) best
      else scanFrom buf p maxlen low n (tryCandidate buf p maxlen (low + n) best) := by
  simp only [scanFrom, tryCandidate, if_pos hn]

/-- The linear scan keeps to the candidates (R104). -/
theorem scanFrom_isCandidate {buf : ByteMemory} {N p maxlen n : Nat} {best : Nat × Nat} (hn : p - N + n ≤ p)
    (h : IsCandidate N p maxlen best) : IsCandidate N p maxlen (scanFrom buf p maxlen (p - N) n best) := by
  induction n generalizing best with
  | zero => exact h
  | succ n ih =>
    have hbest := tryCandidate_isCandidate (buf := buf) (Nat.le_add_right (p - N) n) h
    rw [scanFrom_succ buf (by omega)]
    split
    · exact hbest
    · exact ih (by omega) hbest

/-- The walk along chains of positions of `BUF` never reads outside `NEXT`, and keeps to the candidates (R15, R125). -/
theorem walkChain_answers {N : Nat} {buf : ByteMemory} {next : LinkMemory} {p maxlen : Nat}
    (hnext : LinkMemory.positionsBelow (2 * N) next) {left : Nat} {entry : Option Nat} {best : Nat × Nat}
    (hentry : ∀ q, entry = some q → q < 2 * N) (h : IsCandidate N p maxlen best) :
    ∃ best', walkChain N buf next p maxlen left entry best = .ok best' ∧ IsCandidate N p maxlen best' := by
  induction left generalizing entry best with
  | zero => exact ⟨best, rfl, h⟩
  | succ left ih =>
    cases entry with
    | none => exact ⟨best, rfl, h⟩
    | some q =>
      rw [walkChain_step N buf next p maxlen left q best (hentry q rfl)]
      split
      · exact ⟨best, rfl, h⟩
      · next hq =>
        have hbest := tryCandidate_isCandidate (buf := buf) (Nat.le_of_not_lt hq) h
        split
        · exact ⟨_, rfl, hbest⟩
        · exact ih (fun _ => LinkMemory.read_lt hnext) hbest

/-- A match that counts is a candidate of at least two bytes (R105). -/
theorem IsCandidate.atLeastTwo {N p maxlen : Nat} {best : Nat × Nat} (h : IsCandidate N p maxlen best) :
    IsCandidate N p maxlen (atLeastTwo best) := by
  unfold Machine.atLeastTwo
  split
  · exact h
  · exact .inl rfl

/-- The search of a sound encoder answers no match or a candidate, whichever search `INDEXED` selects (R103 to R106,
R125). -/
theorem Enc.findMatch_answers {e : Enc} (h : e.Sound) (maxlen : Nat) :
    ∃ found, e.findMatch e.position maxlen = .ok found ∧ IsCandidate e.N e.position maxlen found := by
  have hstart : IsCandidate e.N e.position maxlen (0, 0) := .inl rfl
  unfold Enc.findMatch
  split
  · unfold indexedMatch
    split
    · exact ⟨_, rfl, hstart⟩
    · obtain ⟨best, hwalk, hbest⟩ := walkChain_answers (buf := e.buf) h.nextInside.2 (left := chainCap e.N)
        (fun _ => LinkMemory.read_lt h.headInside.2) hstart
      exact ⟨_, by rw [hwalk]; rfl, hbest.atLeastTwo⟩
  · exact ⟨_, rfl, (scanFrom_isCandidate (by unfold Enc.position; omega) hstart).atLeastTwo⟩

end Sys2Proof.Machine
end

section
/-! SUPPORT. The micro-steps of a sound ENC: each answers, keeps the encoder sound, and brings the POLL closer to its
end (R86 to R90, R100 to R114, R116). -/

namespace Sys2Proof.Machine

/-- The ranges of ENC's registers as propositions (R23 to R28). -/
theorem Enc.inRange_iff (e : Enc) : e.inRange = true ↔
    e.inputSize ≤ e.N ∧ e.matchScanIndex ≤ e.N ∧ (e.matchLength = 0 ∨ 2 ≤ e.matchLength ∧ e.matchLength ≤ e.M) ∧
    e.matchPos ≤ 2 * e.N - 1 ∧ e.outgoingBitsCount ≤ 15 ∧ 1 ≤ e.bitIndex ∧ e.bitIndex ≤ 8 := by
  simp [Enc.inRange, and_assoc]

/-- The window of ENC is not empty (R9). -/
theorem Enc.N_pos (e : Enc) : 0 < e.N := Nat.two_pow_pos e.W

/-- A sound unit is committed (R17). -/
theorem Enc.commit_of_sound {t : Turn Enc} (h : t.unit.Sound) : Enc.commit t = .ok t := if_pos h.ranges

/-- What a sound encoder's accumulator holds: the unsent bits in the low bits of `outgoing_bits`, the placed bits in the
high bits of `current_byte` (R27, R28). -/
structure Enc.AccumulatorSound (e : Enc) : Prop where
  count : e.outgoingBitsCount ≤ 15
  bitIndex : 1 ≤ e.bitIndex ∧ e.bitIndex ≤ 8
  outgoing : e.outgoingBits.toNat < 2 ^ e.outgoingBitsCount
  partialByte : e.currentByte.toNat % 2 ^ e.bitIndex = 0

/-- The accumulator of a sound encoder is sound (R23 to R28). -/
theorem Enc.Sound.accumulator {e : Enc} (h : e.Sound) : e.AccumulatorSound := by
  obtain ⟨-, -, -, -, hcount, hbit⟩ := (Enc.inRange_iff e).1 h.ranges
  exact ⟨hcount, hbit, h.outgoing, h.partialByte⟩

/-- Starting a field of at most 15 bits that fit keeps the accumulator sound (R86). -/
theorem Enc.AccumulatorSound.pushLoad {e : Enc} {v w : Nat} (h : e.AccumulatorSound) (hv : v < 2 ^ w) (hw : w ≤ 15) :
    (e.pushLoad v w).AccumulatorSound := by
  rcases Enc.pushLoad_cases v w e with ⟨-, heq⟩ | ⟨-, heq⟩ <;> rw [heq]
  · exact ⟨hw, h.bitIndex, Nat.lt_of_le_of_lt (Nat.mod_le _ _) hv, h.partialByte⟩
  · exact h

/-- Bits placed above the lowest `k` leave those clear. -/
theorem Byte.or_mod_two_pow {b : Byte} {k n bits : Nat} (hk : k ≤ n) (hn : n ≤ 8) (hb : b.toNat % 2 ^ n = 0) :
    (b ||| BitVec.ofNat 8 (bits <<< k)).toNat % 2 ^ k = 0 := by
  have hclear : b.toNat % 2 ^ k = 0 :=
    Nat.mod_eq_zero_of_dvd ((Nat.pow_dvd_pow 2 hk).trans (Nat.dvd_of_mod_eq_zero hb))
  have hplaced : bits <<< k % 2 ^ 8 % 2 ^ k = 0 := by
    rw [Nat.mod_mod_of_dvd _ (Nat.pow_dvd_pow 2 (hk.trans hn)), Nat.shiftLeft_eq, Nat.mul_mod_left]
  rw [BitVec.toNat_or, BitVec.toNat_ofNat, Nat.or_mod_two_pow, hclear, hplaced, Nat.or_self]

/-- A PushStep keeps the accumulator sound (R87). -/
theorem Enc.AccumulatorSound.pushStep {room : Nat} {e e' : Enc} {out : List Byte} (h : e.AccumulatorSound)
    (hstep : e.pushStep room = some (e', out)) : e'.AccumulatorSound := by
  obtain ⟨hcount, ⟨hbit, hbit'⟩, -, hpartial⟩ := h
  have houtgoing : ∀ count, (BitVec.ofNat 16 (e.outgoingBits.toNat % 2 ^ count)).toNat < 2 ^ count := fun count =>
    Nat.lt_of_le_of_lt (Nat.mod_le _ _) (Nat.mod_lt _ (Nat.two_pow_pos _))
  unfold Enc.pushStep at hstep
  simp only at hstep
  split at hstep
  · cases hstep
  · split at hstep
    · cases hstep
      exact ⟨by simp only; omega, ⟨by simp, Nat.le_refl 8⟩, houtgoing _, rfl⟩
    · cases hstep
      exact ⟨by simp only; omega, ⟨by simp only; omega, by simp only; omega⟩, houtgoing _,
        Byte.or_mod_two_pow (Nat.sub_le _ _) hbit' hpartial⟩

/-- The loop of PushField keeps the accumulator sound, and DONE leaves no bit pending (R88). -/
theorem Enc.AccumulatorSound.pushLoop {left room : Nat} {e : Enc} (h : e.AccumulatorSound) :
    (Enc.pushLoop left room e).1.AccumulatorSound ∧
    ((Enc.pushLoop left room e).2.2 = true → (Enc.pushLoop left room e).1.outgoingBitsCount = 0) := by
  induction left generalizing room e with
  | zero => exact ⟨h, by simp [Enc.pushLoop]⟩
  | succ left ih =>
    unfold Enc.pushLoop
    split
    · next hcount => exact ⟨h, fun _ => hcount⟩
    · split
      · exact ⟨h, nofun⟩
      · next e' out hstep => exact ih (h.pushStep hstep)

/-- PushField changes the accumulator only (R86 to R88). -/
theorem Enc.pushField_frame (v w room : Nat) (e : Enc) :
    { (e.pushField v w room).1 with
      outgoingBits := e.outgoingBits, outgoingBitsCount := e.outgoingBitsCount
      currentByte := e.currentByte, bitIndex := e.bitIndex } = e := by
  have hload : { e.pushLoad v w with
      outgoingBits := e.outgoingBits, outgoingBitsCount := e.outgoingBitsCount
      currentByte := e.currentByte, bitIndex := e.bitIndex } = e := by
    rcases Enc.pushLoad_cases v w e with ⟨-, heq⟩ | ⟨-, heq⟩ <;> rw [heq]
  have hloop := Enc.pushLoop_frame ((e.pushLoad v w).outgoingBitsCount + 1) room (e.pushLoad v w)
  rw [← hloop] at hload
  exact hload

/-- An encoder of which only the accumulator has changed, and soundly so, is sound. -/
theorem Enc.Sound.withAccumulator {e e' : Enc} (h : e.Sound)
    (hframe : { e' with
      outgoingBits := e.outgoingBits, outgoingBitsCount := e.outgoingBitsCount
      currentByte := e.currentByte, bitIndex := e.bitIndex } = e)
    (hacc : e'.AccumulatorSound) (hpending : e.state.isYield = false → e'.outgoingBitsCount = 0)
    (hflushed : e.state = .done → e'.bitIndex = 8) : e'.Sound := by
  obtain ⟨hcount, ⟨hbit, hbit'⟩, houtgoing, hpartial⟩ := hacc
  rw [← hframe] at h hpending hflushed
  obtain ⟨hsize, hmsi, hlength, hpos, -⟩ := (Enc.inRange_iff _).1 h.ranges
  exact { h with
    ranges := (Enc.inRange_iff _).2 ⟨hsize, hmsi, hlength, hpos, hcount, hbit, hbit'⟩
    pending := hpending, outgoing := houtgoing, partialByte := hpartial, flushed := hflushed }

/-- The most micro-steps that a POLL can still continue with (R116): four states per token, and at least two bytes in a
backref. -/
def Enc.stepsLeft (e : Enc) : Nat :=
  match e.state with
  | .notFull => if e.inputSize = e.N ∨ e.finishing = true then 3 * e.inputSize + 5 else 0
  | .filled => 3 * e.inputSize + 4
  | .search => 3 * (e.inputSize - e.matchScanIndex) + 3
  | .yieldTagBit => 3 * (e.inputSize - e.matchScanIndex) + 2
  | .yieldLiteral => 3 * (e.inputSize - e.matchScanIndex) + 1
  | .yieldBackRefIndex => 3 * (e.inputSize - e.matchScanIndex) + 1
  | .yieldBackRefLength => 3 * (e.inputSize - e.matchScanIndex)
  | .saveBacklog => 2
  | .flushBits => 1
  | .done => 0

/-- What a micro-step of a sound ENC leaves: a sound unit, and fewer steps where it continues. -/
structure Enc.Follows (e : Enc) (t : Turn Enc) : Prop where
  sound : t.unit.Sound
  shrinks : t.outcome = .continues → t.unit.stepsLeft < e.stepsLeft

/-- ENC after a PushField: sound, and the same but for the accumulator (R88). -/
structure Enc.Pushed (e e' : Enc) : Prop where
  sound : e'.Sound
  state : e'.state = e.state
  inputSize : e'.inputSize = e.inputSize
  matchScanIndex : e'.matchScanIndex = e.matchScanIndex
  matchLength : e'.matchLength = e.matchLength

/-- PushField of a field that fits, in a Yield state, keeps the encoder sound, and DONE leaves no bit pending (R88). -/
theorem Enc.pushField_pushed {e : Enc} {v w : Nat} (h : e.Sound) (hyield : e.state.isYield = true) (hv : v < 2 ^ w)
    (hw : w ≤ 15) (room : Nat) :
    Enc.Pushed e (e.pushField v w room).1 ∧
    ((e.pushField v w room).2.2 = true → (e.pushField v w room).1.outgoingBitsCount = 0) := by
  have hframe := Enc.pushField_frame v w room e
  obtain ⟨hacc, hdone⟩ := (h.accumulator.pushLoad hv hw).pushLoop
    (left := (e.pushLoad v w).outgoingBitsCount + 1) (room := room)
  have hsound := h.withAccumulator hframe hacc (by simp [hyield]) (fun hst => by simp [hst, EncState.isYield] at hyield)
  exact ⟨⟨hsound, (congrArg Enc.state hframe :), (congrArg Enc.inputSize hframe :),
    (congrArg Enc.matchScanIndex hframe :), (congrArg Enc.matchLength hframe :)⟩, hdone⟩

/-- A Yield state of a sound ENC goes on where what follows its field does (R88). -/
theorem Enc.yieldField_follows {e : Enc} {v w : Nat} {next : Enc → Enc} (h : e.Sound) (hyield : e.state.isYield = true)
    (hv : v < 2 ^ w) (hw : w ≤ 15) (room : Nat)
    (hnext : ∀ e', Enc.Pushed e e' → e'.outgoingBitsCount = 0 → (next e').Sound ∧ (next e').stepsLeft < e.stepsLeft) :
    Enc.Follows e (e.yieldField v w room next) := by
  obtain ⟨hpushed, hdone⟩ := Enc.pushField_pushed h hyield hv hw room
  rcases Enc.yieldField_cases v w room e next with ⟨hd, heq⟩ | ⟨-, heq⟩ <;> rw [heq]
  · obtain ⟨hsound, hsteps⟩ := hnext _ hpushed (hdone hd)
    exact ⟨hsound, fun _ => hsteps⟩
  · exact ⟨hpushed.sound, nofun⟩

section
variable {e : Enc}

/-- A block that is full, or finished, may be coded (R40, R101). -/
theorem Enc.Sound.toFilled (h : e.Sound) (hst : e.state = .notFull) (hfull : e.finishing = false → e.inputSize = e.N) :
    { e with state := .filled }.Sound :=
  have hpending := h.pending (by rw [hst]; rfl)
  { h with
    indexFresh := by simp [EncState.isYield]
    fullBlock := fun hfin _ => hfull hfin
    searching := nofun, yielding := nofun, matchInside := nofun, literal := nofun, backref := by simp
    pending := fun _ => hpending, flushing := by simp, flushed := nofun }

/-- The coding of a block starts with an index that is this block's where there is one (R102, R123). -/
theorem Enc.Sound.toFirstSearch (h : e.Sound) (hst : e.state = .filled) {head next : LinkMemory}
    (hhead : Memory.below 65536 head ∧ LinkMemory.positionsBelow (2 * e.N) head)
    (hnext : Memory.below (2 * e.N) next ∧ LinkMemory.positionsBelow (2 * e.N) next)
    (habsent : e.indexed = false → head = [] ∧ next = [])
    (hfresh : e.indexed = true → (head, next) = buildIndex e.buf (e.N + e.inputSize - 1)) :
    { e with matchScanIndex := 0, head := head, next := next, state := .search }.Sound :=
  have hpending := h.pending (by rw [hst]; rfl)
  have hfull := fun hfin => h.fullBlock hfin (by simp [hst])
  have ⟨hsize, _, hrest⟩ := (Enc.inRange_iff e).1 h.ranges
  { h with
    ranges := (Enc.inRange_iff _).2 ⟨hsize, Nat.zero_le _, hrest⟩
    headInside := hhead, nextInside := hnext, indexAbsent := habsent, indexFresh := fun hindexed _ => hfresh hindexed
    fullBlock := fun hfin _ => hfull hfin
    searching := fun _ => Nat.zero_le _
    yielding := nofun, matchInside := nofun, literal := nofun, backref := by simp
    pending := fun _ => hpending, flushing := by simp, flushed := nofun }

/-- Search records no match, or one inside the lookahead at a candidate of `p` (R103 to R106). -/
theorem Enc.Sound.toYieldTagBit (h : e.Sound) (hst : e.state = .search) (hmsi : e.matchScanIndex < e.inputSize)
    {len pos : Nat} (hpos : pos ≤ 2 * e.N - 1)
    (hmatch : len = 0 ∨ 2 ≤ len ∧ len ≤ min e.M (e.inputSize - e.matchScanIndex) ∧ e.position - e.N ≤ pos ∧
      pos < e.position) :
    { e with matchLength := len, matchPos := pos, state := .yieldTagBit }.Sound :=
  have hpending := h.pending (by rw [hst]; rfl)
  have hfull := fun hfin => h.fullBlock hfin (by simp [hst])
  have hfresh := fun hindexed => h.indexFresh hindexed (.inl hst)
  have ⟨hsize, hscan, _, _, hacc⟩ := (Enc.inRange_iff e).1 h.ranges
  { h with
    ranges := (Enc.inRange_iff _).2 ⟨hsize, hscan,
      hmatch.imp_right fun ⟨h2, hlen, _⟩ => ⟨h2, hlen.trans (Nat.min_le_left _ _)⟩, hpos, hacc⟩
    indexFresh := fun hindexed _ => hfresh hindexed
    fullBlock := fun hfin _ => hfull hfin
    searching := nofun
    yielding := fun _ => hmsi
    matchInside := fun _ h2 => by
      obtain ⟨-, hlen, hcandidate⟩ := hmatch.resolve_left (Nat.ne_of_gt (Nat.lt_of_lt_of_le (by decide) h2))
      exact ⟨by simp only; omega, hcandidate⟩
    literal := nofun, backref := by simp
    pending := fun _ => hpending, flushing := by simp, flushed := nofun }

/-- A token under way moves on to another of its fields, one that fits its match (R107, R110). -/
theorem Enc.Sound.toYield (h : e.Sound) (hyield : e.state.isYield = true) {st : EncState} (hst : st.isYield = true)
    (hliteral : st = .yieldLiteral → e.matchLength = 0)
    (hbackref : st = .yieldBackRefIndex ∨ st = .yieldBackRefLength → 2 ≤ e.matchLength) :
    { e with state := st }.Sound :=
  have hfull := fun hfin => h.fullBlock hfin (by rintro hnot; simp [hnot, EncState.isYield] at hyield)
  { h with
    indexFresh := fun hindexed _ => h.indexFresh hindexed (.inr hyield)
    fullBlock := fun hfin _ => hfull hfin
    searching := by rintro rfl; simp [EncState.isYield] at hst
    yielding := fun _ => h.yielding hyield
    matchInside := fun _ => h.matchInside hyield
    literal := hliteral, backref := hbackref
    pending := by simp [hst]
    flushing := by rintro (rfl | rfl) <;> simp [EncState.isYield] at hst
    flushed := by rintro rfl; simp [EncState.isYield] at hst }

/-- Between two tokens of a block, with no bit of a field pending, `match_scan_index` may move up to the end of the
block (R103, R109). -/
theorem Enc.Sound.toAfterToken (h : e.Sound) (hst : e.state = .search ∨ e.state.isYield = true)
    (hpending : e.outgoingBitsCount = 0) {msi : Nat} (hmsi : msi ≤ e.inputSize) :
    { e with matchScanIndex := msi, state := Enc.afterToken msi e.inputSize }.Sound := by
  have hfull := fun hfin => h.fullBlock hfin (by rintro hnot; simp [hnot, EncState.isYield] at hst)
  have hfresh := fun hindexed => h.indexFresh hindexed hst
  obtain ⟨hsize, -, hrest⟩ := (Enc.inRange_iff e).1 h.ranges
  have hranges := (Enc.inRange_iff { e with matchScanIndex := msi }).2 ⟨hsize, hmsi.trans hsize, hrest⟩
  unfold Enc.afterToken
  split
  · exact { h with
      ranges := hranges
      indexFresh := by simp [EncState.isYield]
      fullBlock := fun hfin _ => hfull hfin
      searching := nofun, yielding := nofun, matchInside := nofun, literal := nofun, backref := by simp
      pending := fun _ => hpending, flushing := by simp, flushed := nofun }
  · exact { h with
      ranges := hranges
      indexFresh := fun hindexed _ => hfresh hindexed
      fullBlock := fun hfin _ => hfull hfin
      searching := fun _ => hmsi
      yielding := nofun, matchInside := nofun, literal := nofun, backref := by simp
      pending := fun _ => hpending, flushing := by simp, flushed := nofun }

/-- After a token at most three steps are left for each byte of the block, and three more (R109). -/
theorem Enc.stepsLeft_afterToken (e : Enc) (msi : Nat) :
    { e with matchScanIndex := msi, state := Enc.afterToken msi e.inputSize }.stepsLeft ≤
      3 * (e.inputSize - msi) + 3 := by
  unfold Enc.afterToken
  split <;> simp [Enc.stepsLeft]

/-- The window becomes the block just coded, and the lookahead is empty (R113). -/
theorem Enc.Sound.toBacklogSaved (h : e.Sound) (hst : e.state = .saveBacklog) :
    { e with
      buf := Memory.slide e.N e.buf, inputSize := 0
      state := if e.finishing then .flushBits else .notFull }.Sound := by
  have hpending := h.pending (by rw [hst]; rfl)
  obtain ⟨-, hrest⟩ := (Enc.inRange_iff e).1 h.ranges
  have hranges := (Enc.inRange_iff { e with inputSize := 0 }).2 ⟨Nat.zero_le _, hrest⟩
  by_cases hfin : e.finishing = true
  · simp only [if_pos hfin]
    exact { h with
      ranges := hranges
      bufInside := Memory.slide_below h.bufInside
      indexFresh := by simp [EncState.isYield]
      fullBlock := fun hnot => by simp [hfin] at hnot
      searching := nofun, yielding := nofun, matchInside := nofun, literal := nofun, backref := by simp
      pending := fun _ => hpending, flushing := fun _ => hfin, flushed := nofun }
  · simp only [if_neg hfin]
    exact { h with
      ranges := hranges
      bufInside := Memory.slide_below h.bufInside
      indexFresh := by simp [EncState.isYield]
      fullBlock := fun _ hne => absurd rfl hne
      searching := nofun, yielding := nofun, matchInside := nofun, literal := nofun, backref := by simp
      pending := fun _ => hpending, flushing := by simp, flushed := nofun }

/-- NotFull goes on (R101). -/
theorem Enc.stepNotFull_follows (h : e.Sound) (hst : e.state = .notFull) :
    ∃ t, e.stepNotFull = .ok t ∧ Enc.Follows e t := by
  unfold Enc.stepNotFull
  split
  · next hfull =>
    refine ⟨_, rfl, h.toFilled hst fun hfin => ?_, fun _ => by simp [Turn.go, Enc.stepsLeft, hst, hfull]⟩
    exact hfull.resolve_right (by simp [hfin])
  · exact ⟨_, rfl, h, nofun⟩

/-- Filled goes on: the index of the block lies inside its memories (R102, R123). -/
theorem Enc.stepFilled_follows (h : e.Sound) (hst : e.state = .filled) :
    ∃ t, e.stepFilled = .ok t ∧ Enc.Follows e t := by
  obtain ⟨hsize, -⟩ := (Enc.inRange_iff e).1 h.ranges
  have hN := e.N_pos
  have hsteps : 3 * (e.inputSize - 0) + 3 < e.stepsLeft := by simp [Enc.stepsLeft, hst]
  unfold Enc.stepFilled
  by_cases hindexed : e.indexed = true
  · rw [if_pos hindexed, if_pos (by omega)]
    obtain ⟨hhead, hnext⟩ := buildIndex_inside e.buf (show e.N + e.inputSize - 1 ≤ 2 * e.N by omega)
    exact ⟨_, rfl, h.toFirstSearch hst hhead hnext (by simp [hindexed]) fun _ => rfl, fun _ => hsteps⟩
  · rw [if_neg hindexed]
    exact ⟨_, rfl, h.toFirstSearch hst h.headInside h.nextInside h.indexAbsent (fun hyes => absurd hyes hindexed),
      fun _ => hsteps⟩

/-- Search goes on, to the next token or to the end of the block (R103 to R106). -/
theorem Enc.stepSearch_follows (h : e.Sound) (hst : e.state = .search) :
    ∃ t, e.stepSearch = .ok t ∧ Enc.Follows e t := by
  obtain ⟨hsize, -, -, hpos, -⟩ := (Enc.inRange_iff e).1 h.ranges
  unfold Enc.stepSearch
  by_cases hend : e.inputSize ≤ e.matchScanIndex
  · have hafter := h.toAfterToken (.inl hst) (h.pending (by rw [hst]; rfl)) (h.searching hst)
    rw [Enc.afterToken, if_pos hend] at hafter
    rw [if_pos hend]
    exact ⟨_, rfl, hafter, fun _ => by simp [Turn.go, Enc.stepsLeft, hst]⟩
  · have hmsi := Nat.lt_of_not_le hend
    have hmaxlen := Nat.min_le_right e.M (e.inputSize - e.matchScanIndex)
    rw [if_neg hend, if_pos (by unfold Enc.position; omega)]
    obtain ⟨found, hfind, hfound⟩ := Enc.findMatch_answers h (min e.M (e.inputSize - e.matchScanIndex))
    rw [hfind]
    by_cases hmatch : 2 ≤ found.1
    · have hcandidate := hfound.resolve_left (by omega)
      have hpos' : found.2 ≤ 2 * e.N - 1 := by
        have := hcandidate.2.2
        unfold Enc.position at this
        omega
      simp only [if_pos hmatch]
      exact ⟨_, rfl, h.toYieldTagBit hst hmsi hpos' (.inr ⟨hmatch, hcandidate⟩),
        fun _ => by simp [Turn.go, Enc.stepsLeft, hst]⟩
    · simp only [if_neg hmatch]
      exact ⟨_, rfl, h.toYieldTagBit hst hmsi hpos (.inl rfl), fun _ => by simp [Turn.go, Enc.stepsLeft, hst]⟩

/-- YieldTagBit goes on (R107). -/
theorem Enc.stepYieldTagBit_follows (h : e.Sound) (hst : e.state = .yieldTagBit) (room : Nat) :
    ∃ t, e.stepYieldTagBit room = .ok t ∧ Enc.Follows e t := by
  have hyield : e.state.isYield = true := by rw [hst]; rfl
  obtain ⟨-, -, hlength, -⟩ := (Enc.inRange_iff e).1 h.ranges
  unfold Enc.stepYieldTagBit
  split
  · next hzero =>
    refine ⟨_, rfl, Enc.yieldField_follows h hyield (by decide) (by decide) room fun e' hp _ => ⟨?_, ?_⟩⟩
    · exact hp.sound.toYield (hp.state ▸ hyield) rfl (fun _ => hp.matchLength.trans hzero) (by simp)
    · simp [Enc.stepsLeft, hst, hp.inputSize, hp.matchScanIndex]
  · next hne =>
    refine ⟨_, rfl, Enc.yieldField_follows h hyield (by decide) (by decide) room fun e' hp _ => ⟨?_, ?_⟩⟩
    · exact hp.sound.toYield (hp.state ▸ hyield) rfl nofun (fun _ => by rw [hp.matchLength]; omega)
    · simp [Enc.stepsLeft, hst, hp.inputSize, hp.matchScanIndex]

/-- YieldLiteral goes on: `p` is inside `BUF` (R108). -/
theorem Enc.stepYieldLiteral_follows (h : e.Sound) (hst : e.state = .yieldLiteral) (room : Nat) :
    ∃ t, e.stepYieldLiteral room = .ok t ∧ Enc.Follows e t := by
  have hyield : e.state.isYield = true := by rw [hst]; rfl
  have hmsi := h.yielding hyield
  obtain ⟨hsize, -⟩ := (Enc.inRange_iff e).1 h.ranges
  rw [Enc.stepYieldLiteral, if_pos (by unfold Enc.position; omega)]
  refine ⟨_, rfl, Enc.yieldField_follows h hyield (BitVec.isLt _) (by decide) room fun e' hp hcount => ?_⟩
  have hmsi' := hp.matchScanIndex
  have hsize' := hp.inputSize
  refine ⟨hp.sound.toAfterToken (.inr (hp.state ▸ hyield)) hcount (by omega),
    Nat.lt_of_le_of_lt (Enc.stepsLeft_afterToken e' _) ?_⟩
  simp only [Enc.stepsLeft, hst]
  omega

/-- YieldBackRefIndex goes on: the distance fits its `W` bits (R110). -/
theorem Enc.stepYieldBackRefIndex_follows (h : e.Sound) (hst : e.state = .yieldBackRefIndex) (room : Nat) :
    ∃ t, e.stepYieldBackRefIndex room = .ok t ∧ Enc.Follows e t := by
  have hyield : e.state.isYield = true := by rw [hst]; rfl
  have htwo := h.backref (.inl hst)
  obtain ⟨-, hlow, hhigh⟩ := h.matchInside hyield htwo
  obtain ⟨-, hW, -⟩ := legalParameters_iff.1 h.legal
  have hfits : e.position - e.matchPos - 1 < e.N := by have := e.N_pos; omega
  rw [Enc.stepYieldBackRefIndex, if_pos (by omega)]
  refine ⟨_, rfl, Enc.yieldField_follows h hyield hfits hW room fun e' hp _ => ⟨?_, ?_⟩⟩
  · exact hp.sound.toYield (hp.state ▸ hyield) rfl nofun (fun _ => by rw [hp.matchLength]; exact htwo)
  · simp [Enc.stepsLeft, hst, hp.inputSize, hp.matchScanIndex]

/-- YieldBackRefLength goes on: the length fits its `L` bits, and the match lies inside the lookahead (R111). -/
theorem Enc.stepYieldBackRefLength_follows (h : e.Sound) (hst : e.state = .yieldBackRefLength) (room : Nat) :
    ∃ t, e.stepYieldBackRefLength room = .ok t ∧ Enc.Follows e t := by
  have hyield : e.state.isYield = true := by rw [hst]; rfl
  have htwo := h.backref (.inr hst)
  obtain ⟨hinside, -⟩ := h.matchInside hyield htwo
  obtain ⟨-, hW, -, hLW⟩ := legalParameters_iff.1 h.legal
  obtain ⟨-, -, hlength, -⟩ := (Enc.inRange_iff e).1 h.ranges
  have hM : e.matchLength ≤ e.M := (hlength.resolve_left (by omega)).2
  have hfits : e.matchLength - 2 < 2 ^ e.L := by unfold Enc.M at hM; omega
  rw [Enc.stepYieldBackRefLength, if_pos ⟨htwo, hM⟩]
  refine ⟨_, rfl, Enc.yieldField_follows h hyield hfits (by omega) room fun e' hp hcount => ?_⟩
  have hmsi' := hp.matchScanIndex
  have hsize' := hp.inputSize
  have hlength' := hp.matchLength
  refine ⟨hp.sound.toAfterToken (.inr (hp.state ▸ hyield)) hcount (by omega),
    Nat.lt_of_le_of_lt (Enc.stepsLeft_afterToken e' _) ?_⟩
  simp only [Enc.stepsLeft, hst]
  omega

/-- SaveBacklog goes on (R113). -/
theorem Enc.stepSaveBacklog_follows (h : e.Sound) (hst : e.state = .saveBacklog) :
    ∃ t, e.stepSaveBacklog = .ok t ∧ Enc.Follows e t := by
  refine ⟨_, rfl, h.toBacklogSaved hst, fun _ => ?_⟩
  have hsteps : e.stepsLeft = 2 := by simp [Enc.stepsLeft, hst]
  rw [hsteps]
  by_cases hfin : e.finishing = true
  · simp [Turn.go, Enc.stepsLeft, hfin]
  · have hwaits : ¬ (0 = e.N ∨ e.finishing = true) := by simp [Nat.ne_of_lt e.N_pos, hfin]
    have hidle : (if 0 = e.N ∨ e.finishing = true then 3 * 0 + 5 else 0) < 2 := by simp [hwaits]
    simp only [Turn.go, Enc.stepsLeft, if_neg hfin]
    exact hidle

/-- Everything FlushPad can do to a sound accumulator: stall with nothing changed, or empty it (R90). -/
theorem Enc.AccumulatorSound.flushPad_cases (h : e.AccumulatorSound) (room : Nat) :
    e.flushPad room = (e, [], false) ∨
    ∃ out, e.flushPad room = ({ e with currentByte := 0, bitIndex := 8 }, out, true) := by
  unfold Enc.flushPad
  split
  · next hbit =>
    have hpartial := h.partialByte
    have hbyte : e.currentByte = 0 := by
      rw [hbit, Nat.mod_eq_of_lt e.currentByte.isLt] at hpartial
      exact BitVec.eq_of_toNat_eq hpartial
    exact .inr ⟨[], by rw [← hbyte, ← hbit]⟩
  · split
    · exact .inl rfl
    · exact .inr ⟨_, rfl⟩

/-- With the accumulator empty the stream is at its end (R114). -/
theorem Enc.Sound.toDone (h : e.Sound) (hst : e.state = .flushBits) :
    { e with currentByte := 0, bitIndex := 8, state := .done }.Sound :=
  have hpending := h.pending (by rw [hst]; rfl)
  have hfin := h.flushing (.inl hst)
  have ⟨hsize, hmsi, hlength, hpos, hcount, _⟩ := (Enc.inRange_iff e).1 h.ranges
  { h with
    ranges := (Enc.inRange_iff _).2 ⟨hsize, hmsi, hlength, hpos, hcount, by simp, Nat.le_refl 8⟩
    indexFresh := by simp [EncState.isYield]
    fullBlock := fun hnot => by simp [hfin] at hnot
    searching := nofun, yielding := nofun, matchInside := nofun, literal := nofun, backref := by simp
    pending := fun _ => hpending, partialByte := rfl, flushing := fun _ => hfin, flushed := fun _ => rfl }

/-- FlushBits goes on: it stalls, or ends the stream (R114). -/
theorem Enc.stepFlushBits_follows (h : e.Sound) (hst : e.state = .flushBits) (room : Nat) :
    ∃ t, e.stepFlushBits room = .ok t ∧ Enc.Follows e t := by
  unfold Enc.stepFlushBits
  rcases h.accumulator.flushPad_cases room with heq | ⟨out, heq⟩ <;> rw [heq]
  · exact ⟨_, rfl, h, nofun⟩
  · exact ⟨_, rfl, h.toDone hst, fun _ => by simp [Enc.stepsLeft, hst]⟩

/-- Every micro-step of a sound ENC answers, keeps it sound, and leaves fewer steps where it continues (R15, R17, R100,
R116). -/
theorem Enc.microStep_follows (h : e.Sound) (room : Nat) : ∃ t, e.microStep room = .ok t ∧ Enc.Follows e t := by
  have haction : ∃ t, e.stateAction room = .ok t ∧ Enc.Follows e t := by
    unfold Enc.stateAction
    cases hst : e.state with
    | notFull => exact Enc.stepNotFull_follows h hst
    | filled => exact Enc.stepFilled_follows h hst
    | search => exact Enc.stepSearch_follows h hst
    | yieldTagBit => exact Enc.stepYieldTagBit_follows h hst room
    | yieldLiteral => exact Enc.stepYieldLiteral_follows h hst room
    | yieldBackRefIndex => exact Enc.stepYieldBackRefIndex_follows h hst room
    | yieldBackRefLength => exact Enc.stepYieldBackRefLength_follows h hst room
    | saveBacklog => exact Enc.stepSaveBacklog_follows h hst
    | flushBits => exact Enc.stepFlushBits_follows h hst room
    | done => exact ⟨_, rfl, h, nofun⟩
  obtain ⟨t, ht, hfollows⟩ := haction
  exact ⟨t, by simp only [Enc.microStep, ht, Enc.commit_of_sound hfollows.sound], hfollows⟩

/-- A sound encoder has fewer steps left than the bound of its POLL (R116). -/
theorem Enc.stepsLeft_lt_pollBound (h : e.Sound) : e.stepsLeft < e.pollBound := by
  obtain ⟨hsize, -⟩ := (Enc.inRange_iff e).1 h.ranges
  have hN := e.N_pos
  unfold Enc.stepsLeft Enc.pollBound
  split
  · split <;> omega
  all_goals omega

/-- ENC.POLL of a sound encoder answers within its bound, and leaves it sound (R116). -/
theorem Enc.poll_answers (h : e.Sound) (capacity : Nat) :
    ∃ e' out st, e.poll capacity = .ok (e', out, st) ∧ e'.Sound := by
  refine pollLoop_answers (measure := fun _ => Enc.stepsLeft) (fun room u hu => ?_) h (Enc.stepsLeft_lt_pollBound h)
  obtain ⟨t, ht, hfollows⟩ := Enc.microStep_follows hu room
  exact ⟨t, ht, hfollows.sound, hfollows.shrinks⟩

end

end Sys2Proof.Machine
end

section
/-! PROOFS. From a sound state every instruction that is accepted answers (O52). -/

namespace Sys2Proof

/-- No command word decodes to a token (R76). -/
theorem decodeCommand_isToken {r : Request} {i : Instr} (h : decodeCommand r = .ok i) : i.isToken = false := by
  unfold decodeCommand at h
  split at h <;> cases h <;> rfl

/-- A decoded token is a token, and its fields fit `W` and `L` bits (R66, R67). -/
theorem decodeToken_wellFormed {W L : Nat} {bits rest : List Bool} {i : Instr}
    (h : decodeToken W L bits = .ok (i, rest)) : i.isToken = true ∧ i.wellFormed W L = true := by
  unfold decodeToken at h
  split at h
  · cases h
  · split at h
    · cases h
    · cases h
      exact ⟨rfl, rfl⟩
  · next tail =>
    split at h
    · cases h
    · cases h
      have hindex := bitsValue_lt (tail.take W)
      have hcount := bitsValue_lt ((tail.drop W).take L)
      rw [List.length_take_of_le (by omega)] at hindex
      rw [List.length_take_of_le (by rw [List.length_drop]; omega)] at hcount
      exact ⟨rfl, by simp [Instr.wellFormed, hindex, hcount]⟩

namespace Machine

/-- Accepting an input keeps the state sound (R11). -/
theorem State.Sound.setInputs {s : State} (h : s.Sound) (is : List Input) : (s.setInputs is).Sound :=
  ⟨⟨h.memory.buf, h.memory.head, h.memory.next, h.memory.win, h.memory.inb⟩, h.enc, h.dec, h.response⟩

/-- The encoder of a sound state is sound where it is not turned away as unusable (R154, R156). -/
theorem State.Sound.enc_of_usable {s : State} (h : s.Sound) (hu : ¬ (!s.enc.usable) = true) : s.enc.Sound :=
  h.enc ((Enc.usable_iff _).1 (by simpa only [Bool.not_eq_true', Bool.not_eq_false] using hu)).1

/-- The decoder of a sound state is sound where it is not turned away as unusable (R154, R156). -/
theorem State.Sound.dec_of_usable {s : State} (h : s.Sound) (hu : ¬ (!s.dec.usable) = true) : s.dec.Sound :=
  h.dec ((Dec.usable_iff _).1 (by simpa only [Bool.not_eq_true', Bool.not_eq_false] using hu)).1

section
variable {s : State}

/-- ENC.NEW answers in every state (R96). -/
theorem execEncNew_answers (cfg : CfgWord) (s : State) : ∃ t, execEncNew cfg s = .next t := by
  unfold execEncNew
  split <;> exact ⟨_, rfl⟩

/-- DEC.NEW answers in every state (R129). -/
theorem execDecNew_answers (cfg : CfgWord) (s : State) : ∃ t, execDecNew cfg s = .next t := by
  unfold execDecNew
  split <;> exact ⟨_, rfl⟩

/-- ENC.SINK answers in every state (R97). -/
theorem execEncSink_answers (src : List Byte) (s : State) : ∃ t, execEncSink src s = .next t := by
  unfold execEncSink
  dsimp only
  split_ifs <;> exact ⟨_, rfl⟩

/-- DEC.SINK answers in every state (R130). -/
theorem execDecSink_answers (src : List Byte) (s : State) : ∃ t, execDecSink src s = .next t := by
  unfold execDecSink
  dsimp only
  split_ifs <;> exact ⟨_, rfl⟩

/-- ENC.FINISH answers in every state (R99). -/
theorem execEncFinish_answers (s : State) : ∃ t, execEncFinish s = .next t := by
  unfold execEncFinish
  split <;> exact ⟨_, rfl⟩

/-- DEC.FINISH answers from a sound state: AllOnes reads inside `INB` (R15, R132). -/
theorem execDecFinish_answers (h : s.Sound) : ∃ t, execDecFinish s = .next t := by
  unfold execDecFinish
  by_cases hu : (!s.dec.usable) = true
  · exact ⟨_, if_pos hu⟩
  · obtain ⟨hsize, -⟩ := (Dec.inRange_iff _).1 (h.dec_of_usable hu).ranges
    rw [if_neg hu]
    split
    · exact ⟨_, rfl⟩
    · rw [if_neg (Nat.not_lt.2 hsize)]
      split_ifs <;> exact ⟨_, rfl⟩

/-- ENC.POLL answers from a sound state (R116). -/
theorem execEncPoll_answers (h : s.Sound) (capacity : Nat) : ∃ t, execEncPoll capacity s = .next t := by
  unfold execEncPoll
  by_cases hu : (!s.enc.usable) = true
  · exact ⟨_, if_pos hu⟩
  · obtain ⟨e, out, st, hpoll, -⟩ := Enc.poll_answers (h.enc_of_usable hu) capacity
    rw [if_neg hu, hpoll]
    exact ⟨_, rfl⟩

/-- DEC.POLL answers from a sound state (R149). -/
theorem execDecPoll_answers (h : s.Sound) (capacity : Nat) : ∃ t, execDecPoll capacity s = .next t := by
  unfold execDecPoll
  by_cases hu : (!s.dec.usable) = true
  · exact ⟨_, if_pos hu⟩
  · obtain ⟨d, out, st, hpoll, -⟩ := Dec.poll_answers (h.dec_of_usable hu) capacity
    rw [if_neg hu, hpoll]
    exact ⟨_, rfl⟩

/-- The run of one token answers from a sound state (log 7). -/
theorem runToken_answers (h : s.Sound) {field : DecState → Nat → Nat} (hf : FitsPulls s.dec.W s.dec.L field) :
    ∃ t, runToken field s = .next t := by
  unfold runToken
  by_cases hu : (!s.dec.usable) = true
  · exact ⟨_, if_pos hu⟩
  · obtain ⟨d, out, st, hrun, -⟩ := Dec.tokenRun_answers (h.dec_of_usable hu) hf Config.maxOperand
    rw [if_neg hu, hrun]
    exact ⟨_, rfl⟩

/-- Every command answers from a sound state. -/
theorem exec_command_answers (h : s.Sound) {i : Instr} (hi : i.isToken = false) : ∃ t, exec i s = .next t := by
  cases i with
  | encNew cfg => exact execEncNew_answers cfg s
  | encSink src => exact execEncSink_answers src s
  | encPoll capacity => exact execEncPoll_answers h capacity
  | encFinish => exact execEncFinish_answers s
  | decNew cfg => exact execDecNew_answers cfg s
  | decSink src => exact execDecSink_answers src s
  | decPoll capacity => exact execDecPoll_answers h capacity
  | decFinish => exact execDecFinish_answers h
  | lit b => cases hi
  | bref index count => cases hi

/-- Executing a token is `execToken` (logs 7, 8). -/
theorem exec_token {i : Instr} (hi : i.isToken = true) (s : State) : exec i s = execToken i s := by
  cases i with
  | lit b => rfl
  | bref index count => rfl
  | _ => cases hi

/-- Between tokens a well-formed token answers from a sound state (log 7). -/
theorem exec_token_answers (h : s.Sound) {i : Instr} (hi : i.isToken = true)
    (hwf : i.wellFormed s.dec.W s.dec.L = true) (htag : s.dec.state = .tagBit) : ∃ t, exec i s = .next t := by
  rw [exec_token hi, execToken, if_neg (fun hmid => hmid.2 htag)]
  exact runToken_answers h (fitsPulls_tokenField hwf hi)

/-- The fetched token is well formed, and DEC is between tokens (R66, R67). -/
theorem fetchToken_some {d : Dec} {i : Instr} (h : fetchToken d = some i) :
    d.state = .tagBit ∧ i.isToken = true ∧ i.wellFormed d.W d.L = true := by
  unfold fetchToken at h
  split at h
  · next hready =>
    split at h
    · next hdecode =>
      cases h
      exact ⟨hready.2, decodeToken_wellFormed hdecode⟩
    · cases h
  · cases h

/-- A token step answers from a sound state (log 7). -/
theorem acceptToken_answers (h : s.Sound) : ∃ t, acceptToken s = .next t := by
  unfold acceptToken
  split
  · next i hfetch =>
    obtain ⟨htag, hi, hwf⟩ := fetchToken_some hfetch
    exact exec_token_answers h hi hwf htag
  · exact runToken_answers h (fitsPulls_asPulled _ _)

/-- A command step answers from a sound state, or its operand is refused (R77, R78; log 6). -/
theorem acceptCommand_answers_or_refuses (h : s.Sound) (r : Request) :
    (∃ t, acceptCommand r s = .next t) ∨
    (acceptCommand r s = .refused .operandOutOfRange ∧ ∃ i, decodeCommand r = .ok i ∧ i.operandInRange = false) := by
  unfold acceptCommand
  split
  · exact .inl ⟨_, rfl⟩
  · next i hdecode =>
    by_cases hrange : i.operandInRange = true
    · rw [if_pos hrange]
      exact .inl (exec_command_answers h (decodeCommand_isToken hdecode))
    · rw [if_neg hrange]
      exact .inr ⟨rfl, i, hdecode, by simpa using hrange⟩

end

/-- Settles O52: the units' micro-steps keep soundness and come to an end within the bounds, so every instruction
that is accepted answers. -/
theorem soundStepNeverFaults : Obligations.SoundStepNeverFaults := by
  unfold Obligations.SoundStepNeverFaults
  intro s h
  unfold step
  split
  · exact .inl ⟨s, rfl⟩
  · next r rest hinputs =>
    refine (acceptCommand_answers_or_refuses (h.setInputs rest) r).imp_right ?_
    rintro ⟨hrefused, i, hdecode, hrange⟩
    exact ⟨hrefused, r, rest, i, hinputs, hdecode, hrange⟩
  · next rest _ => exact .inl (acceptToken_answers (h.setInputs rest))

end Machine
end Sys2Proof
end

section
/-! PROOFS. The two units are independent (O21). -/

namespace Sys2Proof.Machine

/-- The outcome with its next state, where there is one, changed by `f`. -/
def mapNext (f : State → State) : Host.Outcome State Fault Refusal → Host.Outcome State Fault Refusal
  | .next t => .next (f t)
  | .fault r => .fault r
  | .refused r => .refused r

/-- The ENC and the response of a state, with another decoder and other inputs beside them. -/
def State.besideEnc (s : State) (d : Dec) (is : List Input) : State := { s with dec := d, inputs := is }

/-- The DEC and the response of a state, with another encoder and other inputs beside them. -/
def State.besideDec (s : State) (e : Enc) (is : List Input) : State := { s with enc := e, inputs := is }

/-- What is beside ENC, and the response before, a command of ENC neither reads nor changes (R12). -/
def ActsOnEnc (f : State → Host.Outcome State Fault Refusal) : Prop :=
  ∀ (s : State) (d : Dec) (is : List Input) (r : Option Response),
    f { enc := s.enc, dec := d, inputs := is, response := r } = mapNext (State.besideEnc · d is) (f s)

/-- What is beside DEC, and the response before, a command of DEC neither reads nor changes (R12). -/
def ActsOnDec (f : State → Host.Outcome State Fault Refusal) : Prop :=
  ∀ (s : State) (e : Enc) (is : List Input) (r : Option Response),
    f { enc := e, dec := s.dec, inputs := is, response := r } = mapNext (State.besideDec · e is) (f s)

/-- ENC.NEW acts on ENC alone (R96). -/
theorem execEncNew_actsOnEnc (cfg : CfgWord) : ActsOnEnc (execEncNew cfg) := by
  intro s d is r
  unfold execEncNew
  split_ifs <;> rfl

/-- ENC.SINK acts on ENC alone (R97). -/
theorem execEncSink_actsOnEnc (src : List Byte) : ActsOnEnc (execEncSink src) := by
  intro s d is r
  unfold execEncSink
  dsimp only
  split_ifs <;> rfl

/-- ENC.POLL runs ENC's FSM alone (R98). -/
theorem execEncPoll_actsOnEnc (capacity : Nat) : ActsOnEnc (execEncPoll capacity) := by
  intro s d is r
  unfold execEncPoll
  dsimp only
  split_ifs
  · rfl
  · cases s.enc.poll capacity <;> rfl

/-- ENC.FINISH acts on ENC alone (R99). -/
theorem execEncFinish_actsOnEnc : ActsOnEnc execEncFinish := by
  intro s d is r
  unfold execEncFinish
  dsimp only
  split_ifs <;> rfl

/-- DEC.NEW acts on DEC alone (R129). -/
theorem execDecNew_actsOnDec (cfg : CfgWord) : ActsOnDec (execDecNew cfg) := by
  intro s e is r
  unfold execDecNew
  split_ifs <;> rfl

/-- DEC.SINK acts on DEC alone (R130). -/
theorem execDecSink_actsOnDec (src : List Byte) : ActsOnDec (execDecSink src) := by
  intro s e is r
  unfold execDecSink
  dsimp only
  split_ifs <;> rfl

/-- DEC.POLL runs DEC's FSM alone (R131). -/
theorem execDecPoll_actsOnDec (capacity : Nat) : ActsOnDec (execDecPoll capacity) := by
  intro s e is r
  unfold execDecPoll
  dsimp only
  split_ifs
  · rfl
  · cases s.dec.poll capacity <;> rfl

/-- DEC.FINISH acts on DEC alone (R132). -/
theorem execDecFinish_actsOnDec : ActsOnDec execDecFinish := by
  intro s e is r
  unfold execDecFinish
  dsimp only
  cases s.dec.pullWidth with
  | none => split_ifs <;> rfl
  | some w =>
    dsimp only
    split_ifs <;> rfl

/-- The run of one token is of DEC alone (log 7). -/
theorem runToken_actsOnDec (field : DecState → Nat → Nat) : ActsOnDec (runToken field) := by
  intro s e is r
  unfold runToken
  dsimp only
  split_ifs
  · rfl
  · cases pollLoop (Dec.tokenMicroStep field) (.microStepBound .dec) s.dec.tokenBound Config.maxOperand s.dec <;> rfl

/-- A token, refused or run, acts on DEC alone (logs 7, 8). -/
theorem execToken_actsOnDec (i : Instr) : ActsOnDec (execToken i) := by
  intro s e is r
  unfold execToken
  dsimp only
  split_ifs
  · rfl
  · exact runToken_actsOnDec _ s e is r

/-- Every instruction of ENC acts on ENC alone (R12, R168). -/
theorem exec_actsOnEnc {i : Instr} (hi : i.forEnc = true) : ActsOnEnc (exec i) := by
  cases i with
  | encNew cfg => exact execEncNew_actsOnEnc cfg
  | encSink src => exact execEncSink_actsOnEnc src
  | encPoll capacity => exact execEncPoll_actsOnEnc capacity
  | encFinish => exact execEncFinish_actsOnEnc
  | _ => cases hi

/-- Every other instruction acts on DEC alone (R12, R168). -/
theorem exec_actsOnDec {i : Instr} (hi : i.forEnc = false) : ActsOnDec (exec i) := by
  cases i with
  | decNew cfg => exact execDecNew_actsOnDec cfg
  | decSink src => exact execDecSink_actsOnDec src
  | decPoll capacity => exact execDecPoll_actsOnDec capacity
  | decFinish => exact execDecFinish_actsOnDec
  | lit b => exact execToken_actsOnDec (.lit b)
  | bref index count => exact execToken_actsOnDec (.bref index count)
  | _ => cases hi

/-- What acts on ENC alone answers alike in every state with the same ENC. -/
theorem ActsOnEnc.next {f : State → Host.Outcome State Fault Refusal} (hf : ActsOnEnc f) {s t : State}
    (h : f s = .next t) {s' : State} (hsame : s'.enc = s.enc) : f s' = .next (t.besideEnc s'.dec s'.inputs) := by
  have hother := hf s s'.dec s'.inputs s'.response
  rwa [h, ← hsame] at hother

/-- What acts on DEC alone answers alike in every state with the same DEC. -/
theorem ActsOnDec.next {f : State → Host.Outcome State Fault Refusal} (hf : ActsOnDec f) {s t : State}
    (h : f s = .next t) {s' : State} (hsame : s'.dec = s.dec) : f s' = .next (t.besideDec s'.enc s'.inputs) := by
  have hother := hf s s'.enc s'.inputs s'.response
  rwa [h, ← hsame] at hother

/-- Settles O21: an instruction commutes with replacing what is beside its own unit; with the state's own surroundings
that is the frame, with another state's it is the independence. -/
theorem unitsAreIndependent : Obligations.UnitsAreIndependent := by
  unfold Obligations.UnitsAreIndependent
  intro i s s' t h
  cases hi : i.forEnc with
  | true =>
    have hacts := exec_actsOnEnc hi
    have hframe : t = t.besideEnc s.dec s.inputs := Host.Outcome.next.inj (h.symm.trans (hacts.next h rfl))
    exact ⟨(congrArg State.inputs hframe :), fun _ => ⟨(congrArg State.dec hframe :),
      fun hsame => ⟨_, hacts.next h hsame, rfl, rfl⟩⟩, nofun⟩
  | false =>
    have hacts := exec_actsOnDec hi
    have hframe : t = t.besideDec s.enc s.inputs := Host.Outcome.next.inj (h.symm.trans (hacts.next h rfl))
    exact ⟨(congrArg State.inputs hframe :), nofun, fun _ => ⟨(congrArg State.enc hframe :),
      fun hsame => ⟨_, hacts.next h hsame, rfl, rfl⟩⟩⟩

end Sys2Proof.Machine
end

section
/-! SUPPORT. What a micro-step can do, said once: it keeps the unit's configuration and flags, changes the memories only
in the named ways, and emits no more bytes than it has slots (R17, R38, R39, R100, R113, R123, R133). -/

namespace Sys2Proof.Machine

section
variable {σ : Type} {micro : Nat → σ → Except Fault (Turn σ)} {bound : Fault}

/-- Induction over a POLL that answers: from the micro-step that ends it, backwards over those that continue (R98,
R131). -/
theorem pollLoop_induction {R : Nat → σ → List Byte → Status → σ → Prop}
    (hlast : ∀ room u t st, micro room u = .ok t → t.outcome.pollStatus = some st → R room u t.out st t.unit)
    (hmore : ∀ room u t rest st u', micro room u = .ok t → R (room - t.out.length) t.unit rest st u' →
      R room u (t.out ++ rest) st u') :
    ∀ {left room : Nat} {u u' : σ} {out : List Byte} {st : Status},
      pollLoop micro bound left room u = .ok (u', out, st) → R room u out st u' := by
  intro left
  induction left with
  | zero => intro _ _ _ _ _ h; cases h
  | succ left ih =>
    intro room u u' out st h
    obtain ⟨left', t, hleft, ht, hcase⟩ := pollLoop_ok h
    obtain rfl : left = left' := by omega
    rcases hcase with ⟨hst, rfl, rfl⟩ | ⟨-, rest, hrest, rfl⟩
    · exact hlast room u t st ht hst
    · exact hmore room u t rest st u' ht (ih hrest)

/-- The outputs of a POLL are at most its slots, when those of every micro-step are (R98, R131). -/
theorem pollLoop_length (hmicro : ∀ room u t, micro room u = .ok t → t.out.length ≤ room) {left room : Nat} {u u' : σ}
    {out : List Byte} {st : Status} (h : pollLoop micro bound left room u = .ok (u', out, st)) : out.length ≤ room := by
  refine pollLoop_induction (R := fun room _ out _ _ => out.length ≤ room) (fun room u t _ ht _ => hmicro room u t ht)
    (fun room u t rest _ _ ht hrest => ?_) h
  have hstep := hmicro room u t ht
  rw [List.length_append]
  omega

/-- A relation between a unit, the bytes emitted and the unit after them holds of a POLL, when it holds of every
micro-step and of two runs in a row. -/
theorem pollLoop_relates {R : σ → List Byte → σ → Prop} (htrans : ∀ {u v w a b}, R u a v → R v b w → R u (a ++ b) w)
    (hmicro : ∀ room u t, micro room u = .ok t → R u t.out t.unit) {left room : Nat} {u u' : σ} {out : List Byte}
    {st : Status} (h : pollLoop micro bound left room u = .ok (u', out, st)) : R u out u' :=
  pollLoop_induction (R := fun _ u out _ u' => R u out u') (fun room u t _ ht _ => hmicro room u t ht)
    (fun room u t _ _ _ ht hrest => htrans (hmicro room u t ht) hrest) h

/-- A micro-step that ends a POLL makes it respond EMPTY or MORE (R98, R131). -/
theorem Micro.pollStatus_some {r : Micro} {st : Status} (h : r.pollStatus = some st) : st = .empty ∨ st = .more := by
  cases r <;> cases h
  case stall.refl => exact .inr rfl
  all_goals exact .inl rfl

/-- A POLL that answers responds EMPTY or MORE (R98, R131). -/
theorem pollLoop_status {left room : Nat} {u u' : σ} {out : List Byte} {st : Status}
    (h : pollLoop micro bound left room u = .ok (u', out, st)) : st = .empty ∨ st = .more :=
  pollLoop_induction (R := fun _ _ _ st _ => st = .empty ∨ st = .more) (fun _ _ _ _ _ hst => Micro.pollStatus_some hst)
    (fun _ _ _ _ _ _ _ hrest => hrest) h

end

/-- The configuration registers and flags of ENC, and the model's counter: what no micro-step writes (R18, R22, R32). -/
def Enc.configuration (e : Enc) : Bool × Nat × Nat × Bool × Bool × Bool × Nat :=
  (e.cfgValid, e.W, e.L, e.indexed, e.fault, e.finishing, e.draws)

/-- The configuration registers and flags of DEC, and the model's counter: what no micro-step writes (R19, R32, R44). -/
def Dec.configuration (d : Dec) : Bool × Nat × Nat × Nat × Bool × Bool × Nat :=
  (d.cfgValid, d.W, d.L, d.ibs, d.fault, d.doneReported, d.draws)

/-- Everything a micro-step of ENC can do to the configuration, the memories and the output. -/
structure Enc.Does (room : Nat) (e : Enc) (t : Turn Enc) : Prop where
  configuration : t.unit.configuration = e.configuration
  /-- R113 -/
  buf : t.unit.buf = e.buf ∨ e.state = .saveBacklog ∧ t.unit.buf = Memory.slide e.N e.buf
  /-- R123 -/
  index : (t.unit.head, t.unit.next) = (e.head, e.next) ∨
    (t.unit.head, t.unit.next) = buildIndex e.buf (e.N + e.inputSize - 1)
  length : t.out.length ≤ room

/-- PushField emits no more bytes than it has slots (R87, R88). -/
theorem Enc.pushLoop_length (left room : Nat) (e : Enc) : (Enc.pushLoop left room e).2.1.length ≤ room := by
  induction left generalizing room e with
  | zero => exact Nat.zero_le _
  | succ left ih =>
    unfold Enc.pushLoop
    split
    · exact Nat.zero_le _
    · split
      · exact Nat.zero_le _
      · next e' out hstep =>
        obtain ⟨-, -, hout⟩ := Enc.pushStep_some hstep
        have hrest := ih (room - out.length) e'
        rw [List.length_append]
        rcases hout with ⟨-, hroom, -, -, hlen⟩ | ⟨-, -, rfl⟩
        · omega
        · simpa using hrest

/-- A Yield state emits its field and writes no memory, when what follows the field writes none (R88). -/
theorem Enc.yieldField_does (v w room : Nat) (e : Enc) {next : Enc → Enc}
    (hnext : ∀ e', (next e').configuration = e'.configuration ∧ (next e').buf = e'.buf ∧ (next e').head = e'.head ∧
      (next e').next = e'.next) :
    Enc.Does room e (e.yieldField v w room next) := by
  have hframe := Enc.pushField_frame v w room e
  have hlen : (e.pushField v w room).2.1.length ≤ room := Enc.pushLoop_length _ _ _
  have hcfg : (e.pushField v w room).1.configuration = e.configuration := (congrArg Enc.configuration hframe :)
  have hbuf : (e.pushField v w room).1.buf = e.buf := (congrArg Enc.buf hframe :)
  have hhead : (e.pushField v w room).1.head = e.head := (congrArg Enc.head hframe :)
  have hlinks : (e.pushField v w room).1.next = e.next := (congrArg Enc.next hframe :)
  rcases Enc.yieldField_cases v w room e next with ⟨-, heq⟩ | ⟨-, heq⟩ <;> rw [heq]
  · obtain ⟨hcfg', hbuf', hhead', hlinks'⟩ := hnext (e.pushField v w room).1
    exact ⟨hcfg'.trans hcfg, .inl (hbuf'.trans hbuf),
      .inl (Prod.ext (hhead'.trans hhead) (hlinks'.trans hlinks)), hlen⟩
  · exact ⟨hcfg, .inl hbuf, .inl (Prod.ext hhead hlinks), hlen⟩

/-- FlushPad empties the accumulator or stalls, and emits no more bytes than it has slots (R90). -/
theorem Enc.flushPad_cases (room : Nat) (e : Enc) :
    ∃ out, out.length ≤ room ∧
      (e.flushPad room = (e, out, true) ∨ e.flushPad room = (e, out, false) ∨
       e.flushPad room = ({ e with currentByte := 0, bitIndex := 8 }, out, true)) := by
  unfold Enc.flushPad
  split_ifs
  · exact ⟨[], Nat.zero_le _, .inl rfl⟩
  · exact ⟨[], Nat.zero_le _, .inr (.inl rfl)⟩
  · exact ⟨_, by rw [List.length_singleton]; omega, .inr (.inr rfl)⟩

/-- What the action of each of ENC's states can do (R100). -/
theorem Enc.stateAction_does {room : Nat} {e : Enc} {t : Turn Enc} (h : e.stateAction room = .ok t) :
    Enc.Does room e t := by
  cases hst : e.state <;> simp only [Enc.stateAction, hst] at h
  case notFull =>
    unfold Enc.stepNotFull at h
    split_ifs at h <;> cases h <;> exact ⟨rfl, .inl rfl, .inl rfl, Nat.zero_le _⟩
  case filled =>
    unfold Enc.stepFilled at h
    split_ifs at h <;> cases h
    · exact ⟨rfl, .inl rfl, .inr rfl, Nat.zero_le _⟩
    · exact ⟨rfl, .inl rfl, .inl rfl, Nat.zero_le _⟩
  case search =>
    unfold Enc.stepSearch at h
    dsimp only at h
    split_ifs at h
    · cases h
      exact ⟨rfl, .inl rfl, .inl rfl, Nat.zero_le _⟩
    · split at h
      · cases h
      · split_ifs at h <;> cases h <;> exact ⟨rfl, .inl rfl, .inl rfl, Nat.zero_le _⟩
  case yieldTagBit =>
    unfold Enc.stepYieldTagBit at h
    split_ifs at h <;> cases h <;> exact Enc.yieldField_does _ _ _ _ fun _ => ⟨rfl, rfl, rfl, rfl⟩
  case yieldLiteral =>
    unfold Enc.stepYieldLiteral at h
    split_ifs at h
    cases h
    exact Enc.yieldField_does _ _ _ _ fun _ => ⟨rfl, rfl, rfl, rfl⟩
  case yieldBackRefIndex =>
    unfold Enc.stepYieldBackRefIndex at h
    split_ifs at h
    cases h
    exact Enc.yieldField_does _ _ _ _ fun _ => ⟨rfl, rfl, rfl, rfl⟩
  case yieldBackRefLength =>
    unfold Enc.stepYieldBackRefLength at h
    split_ifs at h
    cases h
    exact Enc.yieldField_does _ _ _ _ fun _ => ⟨rfl, rfl, rfl, rfl⟩
  case saveBacklog =>
    cases h
    exact ⟨rfl, .inr ⟨hst, rfl⟩, .inl rfl, Nat.zero_le _⟩
  case flushBits =>
    unfold Enc.stepFlushBits at h
    obtain ⟨out, hlen, heq | heq | heq⟩ := Enc.flushPad_cases room e <;> rw [heq] at h <;> cases h <;>
      exact ⟨rfl, .inl rfl, .inl rfl, hlen⟩
  case done =>
    cases h
    exact ⟨rfl, .inl rfl, .inl rfl, Nat.zero_le _⟩

/-- What a micro-step of ENC can do (R100). -/
theorem Enc.microStep_does {room : Nat} {e : Enc} {t : Turn Enc} (h : e.microStep room = .ok t) : Enc.Does room e t :=
  Enc.stateAction_does (Enc.microStep_ok h).1

/-- ENC.POLL writes no configuration register and no flag (R18, R22). -/
theorem Enc.poll_configuration {capacity : Nat} {e e' : Enc} {out : List Byte} {st : Status}
    (h : e.poll capacity = .ok (e', out, st)) : e'.configuration = e.configuration :=
  pollLoop_keeps (P := fun u => u.configuration = e.configuration)
    (fun _ _ _ hu ht => (Enc.microStep_does ht).configuration.trans hu) rfl h

/-- `head_index` and `WIN` after the bytes `out` are emitted into a window of `N` bytes (R34, R135, R140). -/
def emitWindow (N head : Nat) (win : ByteMemory) : List Byte → Nat × ByteMemory
  | [] => (head, win)
  | b :: bs => emitWindow N ((head + 1) % N) (win.write head b) bs

/-- Emitting two lists is emitting the first, then the second. -/
theorem emitWindow_append (N head : Nat) (win : ByteMemory) (a b : List Byte) :
    emitWindow N head win (a ++ b) = emitWindow N (emitWindow N head win a).1 (emitWindow N head win a).2 b := by
  induction a generalizing head win with
  | nil => rfl
  | cons x a ih => exact ih _ _

/-- What a run of DEC's FSM that emits `out` leaves alone, and that it writes `WIN` by its emissions only (R34, R39). -/
structure Dec.Runs (d : Dec) (out : List Byte) (d' : Dec) : Prop where
  configuration : d'.configuration = d.configuration
  inb : d'.inb = d.inb
  window : (d'.headIndex, d'.win) = emitWindow d.N d.headIndex d.win out

/-- Two runs in a row are one run. -/
theorem Dec.Runs.trans {d d' d'' : Dec} {a b : List Byte} (h : Dec.Runs d a d') (h' : Dec.Runs d' b d'') :
    Dec.Runs d (a ++ b) d'' := by
  have hW : d'.W = d.W := congrArg (·.2.1) h.configuration
  refine ⟨h'.configuration.trans h.configuration, h'.inb.trans h.inb, ?_⟩
  rw [h'.window, emitWindow_append, ← h.window, Dec.N, hW]
  rfl

/-- A pull moves the input cursors only (R93). -/
theorem Dec.pullBits_frame {w v r : Nat} {d d' : Dec} (h : Dec.pullBits w v d = .ok (r, d')) :
    { d' with
      inputIndex := d.inputIndex, inputSize := d.inputSize
      currentByte := d.currentByte, bitIndex := d.bitIndex } = d := by
  induction w generalizing v d with
  | zero => cases h; rfl
  | succ w ih =>
    unfold Dec.pullBits at h
    split at h
    · cases h
    · next d₁ hload =>
      have hrest := ih h
      have hfirst : { d₁ with
          inputIndex := d.inputIndex, inputSize := d.inputSize
          currentByte := d.currentByte, bitIndex := d.bitIndex } = d := by
        split_ifs at hload
        · exact (Dec.loadByte_ok hload).2.2.2.2
        · cases hload; rfl
      conv_rhs => rw [← hfirst]
      exact congrArg (fun x : Dec => { x with
        inputIndex := d.inputIndex, inputSize := d.inputSize
        currentByte := d.currentByte, bitIndex := d.bitIndex }) hrest

/-- A pull that answers a number moves the input cursors only (R93). -/
theorem Dec.pull_frame {w r : Nat} {d d' : Dec} (h : d.pull w = .ok (some (r, d'))) :
    { d' with
      inputIndex := d.inputIndex, inputSize := d.inputSize
      currentByte := d.currentByte, bitIndex := d.bitIndex } = d := by
  unfold Dec.pull at h
  split at h
  · cases h
  · split at h
    · cases h
    · next hbits => cases h; exact Dec.pullBits_frame hbits

/-- A pull is a run that emits nothing (R93). -/
theorem Dec.Runs.of_pull {w r : Nat} {d d' : Dec} (h : d.pull w = .ok (some (r, d'))) : Dec.Runs d [] d' := by
  have hframe := Dec.pull_frame h
  exact ⟨(congrArg Dec.configuration hframe :), (congrArg Dec.inb hframe :),
    (congrArg (fun x : Dec => (x.headIndex, x.win)) hframe :)⟩

/-- Nothing done is a run that emits nothing. -/
theorem Dec.Runs.refl (d : Dec) : Dec.Runs d [] d := ⟨rfl, rfl, rfl⟩

/-- An emission is a run that emits its byte, also when other registers are written after it (R135, R140). -/
theorem Dec.Runs.of_emitByte {b : Byte} {d e d' : Dec} (h : d.emitByte b = .ok e)
    (hcfg : d'.configuration = e.configuration) (hinb : d'.inb = e.inb)
    (hwindow : (d'.headIndex, d'.win) = (e.headIndex, e.win)) : Dec.Runs d [b] d' := by
  obtain ⟨-, rfl⟩ := Dec.emitByte_ok h
  exact ⟨hcfg, hinb, hwindow⟩

/-- A pulling state runs from where its pull leaves it (R133). -/
theorem Dec.pulling_runs {w room : Nat} {field : DecState → Nat → Nat} {d : Dec}
    {next : Nat → Dec → Except Fault (Turn Dec)} {t : Turn Dec} (h : d.pulling w field next = .ok t)
    (hnext : ∀ r d', next r d' = .ok t → Dec.Runs d' t.out t.unit ∧ t.out.length ≤ room) :
    Dec.Runs d t.out t.unit ∧ t.out.length ≤ room := by
  rcases Dec.pulling_ok h with ⟨-, rfl⟩ | ⟨v, d', hpull, ht⟩
  · exact ⟨.refl d, Nat.zero_le _⟩
  · obtain ⟨hruns, hlen⟩ := hnext _ _ ht
    exact ⟨(Dec.Runs.of_pull hpull).trans hruns, hlen⟩

/-- A state that pulls, and then writes registers of the token only, is a run that emits nothing (R133). -/
theorem Dec.pulling_go_runs {w room : Nat} {field : DecState → Nat → Nat} {d : Dec} {next : Nat → Dec → Dec}
    {t : Turn Dec} (h : d.pulling w field (fun r d' => .ok (.go (next r d'))) = .ok t)
    (hnext : ∀ r d', Dec.Runs d' [] (next r d')) : Dec.Runs d t.out t.unit ∧ t.out.length ≤ room :=
  Dec.pulling_runs h fun r d' ht => by
    cases ht
    exact ⟨hnext r d', Nat.zero_le _⟩

/-- The action of each of DEC's states is a run that emits no more bytes than it has slots (R133). -/
theorem Dec.stateAction_runs {field : DecState → Nat → Nat} {room : Nat} {d : Dec} {t : Turn Dec}
    (h : d.stateAction field room = .ok t) : Dec.Runs d t.out t.unit ∧ t.out.length ≤ room := by
  cases hst : d.state <;> simp only [Dec.stateAction, hst] at h
  case tagBit =>
    refine Dec.pulling_runs h fun r d' ht => ?_
    split_ifs at ht <;> cases ht <;> exact ⟨⟨rfl, rfl, rfl⟩, Nat.zero_le _⟩
  case yieldLiteral =>
    unfold Dec.stepYieldLiteral at h
    split at h
    · cases h
      exact ⟨.refl d, Nat.zero_le _⟩
    · refine Dec.pulling_runs h fun r d' ht => ?_
      split at ht
      · cases ht
      · next hemit =>
        cases ht
        exact ⟨.of_emitByte hemit rfl rfl rfl, by rw [List.length_singleton]; omega⟩
  case backrefIndexMSB => exact Dec.pulling_go_runs h fun _ _ => ⟨rfl, rfl, rfl⟩
  case backrefIndexLSB => exact Dec.pulling_go_runs h fun _ _ => ⟨rfl, rfl, rfl⟩
  case backrefCountMSB => exact Dec.pulling_go_runs h fun _ _ => ⟨rfl, rfl, rfl⟩
  case backrefCountLSB => exact Dec.pulling_go_runs h fun _ _ => ⟨rfl, rfl, rfl⟩
  case yieldBackref =>
    unfold Dec.stepYieldBackref at h
    split at h
    · cases h
      exact ⟨.refl d, Nat.zero_le _⟩
    · split at h
      · cases h
      · split at h
        · cases h
        · split at h
          · cases h
          · next hemit =>
            cases h
            exact ⟨.of_emitByte hemit rfl rfl rfl, by rw [List.length_singleton]; omega⟩

/-- A micro-step of DEC is a run that emits no more bytes than it has slots (R133). -/
theorem Dec.microStep_runs {field : DecState → Nat → Nat} {room : Nat} {d : Dec} {t : Turn Dec}
    (h : d.microStep field room = .ok t) : Dec.Runs d t.out t.unit ∧ t.out.length ≤ room :=
  Dec.stateAction_runs (Dec.microStep_ok h).1

/-- A micro-step of a token is a micro-step of DEC, but for how it ends (log 7). -/
theorem Dec.tokenMicroStep_runs {field : DecState → Nat → Nat} {room : Nat} {d : Dec} {t : Turn Dec}
    (h : d.tokenMicroStep field room = .ok t) : Dec.Runs d t.out t.unit ∧ t.out.length ≤ room := by
  unfold Dec.tokenMicroStep at h
  split at h
  · cases h
  · next ht =>
    have hruns := Dec.microStep_runs ht
    split_ifs at h <;> cases h <;> exact hruns

/-- DEC.POLL is a run that emits its output (R131). -/
theorem Dec.poll_runs {capacity : Nat} {d d' : Dec} {out : List Byte} {st : Status}
    (h : d.poll capacity = .ok (d', out, st)) : Dec.Runs d out d' :=
  pollLoop_relates (R := Dec.Runs) Dec.Runs.trans (fun _ _ _ ht => (Dec.microStep_runs ht).1) h

/-- The run of one token emits its output (log 7). -/
theorem Dec.tokenRun_runs {field : DecState → Nat → Nat} {bound : Fault} {left room : Nat} {d d' : Dec}
    {out : List Byte} {st : Status} (h : pollLoop (Dec.tokenMicroStep field) bound left room d = .ok (d', out, st)) :
    Dec.Runs d out d' :=
  pollLoop_relates (R := Dec.Runs) Dec.Runs.trans (fun _ _ _ ht => (Dec.tokenMicroStep_runs ht).1) h

/-- A run of DEC keeps the configuration and `done_reported` (R19, R32). -/
theorem Dec.Runs.flags {d d' : Dec} {out : List Byte} (h : Dec.Runs d out d') :
    d'.cfgValid = d.cfgValid ∧ d'.W = d.W ∧ d'.L = d.L ∧ d'.ibs = d.ibs ∧ d'.doneReported = d.doneReported := by
  have hcfg := h.configuration
  simp only [Dec.configuration, Prod.mk.injEq] at hcfg
  obtain ⟨hvalid, hW, hL, hibs, -, hdone, -⟩ := hcfg
  exact ⟨hvalid, hW, hL, hibs, hdone⟩

end Sys2Proof.Machine
end

section
/-! SUPPORT. Fields bit by bit: which bits of its number a field reads, and how it splits. -/

namespace Sys2Proof

/-- A field depends on the low `w` bits of its number only (R14). -/
theorem fieldBits_congr {w v v' : Nat} (h : ∀ i < w, v.testBit i = v'.testBit i) : fieldBits w v = fieldBits w v' := by
  induction w with
  | zero => rfl
  | succ w ih => rw [fieldBits, fieldBits, h w (Nat.lt_succ_self w), ih fun i hi => h i (Nat.lt_succ_of_lt hi)]

/-- A field is its high bits, then its low bits (R14). -/
theorem fieldBits_add (a b v : Nat) : fieldBits (a + b) v = fieldBits a (v >>> b) ++ fieldBits b v := by
  induction a with
  | zero => rw [Nat.zero_add]; rfl
  | succ a ih => rw [Nat.succ_add, fieldBits, fieldBits, ih, Nat.testBit_shiftRight, Nat.add_comm b a, List.cons_append]

/-- A field of a number cut to at least its width. -/
theorem fieldBits_mod {w n : Nat} (h : w ≤ n) (v : Nat) : fieldBits w (v % 2 ^ n) = fieldBits w v :=
  fieldBits_congr fun i hi => by simp [Nat.testBit_mod_two_pow]; omega

end Sys2Proof
end

section
/-! SUPPORT. The bit accumulator keeps the bit string: what is emitted and what is left pending are what was pending and
the field that is pushed (R86 to R89). -/

namespace Sys2Proof.Machine

/-- Below the partial byte's placed bits every bit is clear (R28). -/
theorem Enc.AccumulatorSound.testBit_currentByte {e : Enc} (h : e.AccumulatorSound) {i : Nat} (hi : i < e.bitIndex) :
    e.currentByte.toNat.testBit i = false := by
  have hbit : (e.currentByte.toNat % 2 ^ e.bitIndex).testBit i = false := by rw [h.partialByte, Nat.zero_testBit]
  simpa [Nat.testBit_mod_two_pow, hi] using hbit

/-- Placing `k` bits below the placed bits of `current_byte` appends them (R87). -/
theorem Enc.AccumulatorSound.fieldBits_place {e : Enc} (h : e.AccumulatorSound) {k bits : Nat} (hk : k ≤ e.bitIndex)
    (hbits : bits < 2 ^ k) :
    fieldBits (8 - (e.bitIndex - k))
        ((e.currentByte ||| BitVec.ofNat 8 (bits <<< (e.bitIndex - k))).toNat >>> (e.bitIndex - k)) =
      fieldBits (8 - e.bitIndex) (e.currentByte.toNat >>> e.bitIndex) ++ fieldBits k bits := by
  obtain ⟨-, hle⟩ := h.bitIndex
  rw [show 8 - (e.bitIndex - k) = (8 - e.bitIndex) + k by omega, fieldBits_add, ← Nat.shiftRight_add,
    Nat.sub_add_cancel hk]
  congr 1
  · refine fieldBits_congr fun i hi => ?_
    have hclear : bits.testBit (k + i) = false :=
      Nat.testBit_lt_two_pow (Nat.lt_of_lt_of_le hbits (Nat.pow_le_pow_right (by decide) (Nat.le_add_right k i)))
    rw [Nat.testBit_shiftRight, Nat.testBit_shiftRight, BitVec.toNat_or, Nat.testBit_or, BitVec.toNat_ofNat,
      Nat.testBit_mod_two_pow, Nat.testBit_shiftLeft, show e.bitIndex + i - (e.bitIndex - k) = k + i by omega, hclear]
    simp
  · refine fieldBits_congr fun i hi => ?_
    rw [Nat.testBit_shiftRight, BitVec.toNat_or, Nat.testBit_or, BitVec.toNat_ofNat, Nat.testBit_mod_two_pow,
      Nat.testBit_shiftLeft, h.testBit_currentByte (by omega), Nat.add_sub_cancel_left]
    simp
    omega

/-- A PushStep emits and leaves pending the bits that were pending (R87). -/
theorem Enc.AccumulatorSound.pushStep_bits {room : Nat} {e e' : Enc} {out : List Byte} (h : e.AccumulatorSound)
    (hstep : e.pushStep room = some (e', out)) : out.flatMap byteBits ++ e'.pendingBits = e.pendingBits := by
  unfold Enc.pushStep at hstep
  simp only at hstep
  split at hstep
  · cases hstep
  · generalize hk : min e.outgoingBitsCount e.bitIndex = k at hstep
    have hplace := h.fieldBits_place (k := k) (by omega)
      (Nat.mod_lt (e.outgoingBits.toNat >>> (e.outgoingBitsCount - k)) (Nat.two_pow_pos k))
    have hrest : fieldBits (e.outgoingBitsCount - k)
        (BitVec.ofNat 16 (e.outgoingBits.toNat % 2 ^ (e.outgoingBitsCount - k))).toNat =
          fieldBits (e.outgoingBitsCount - k) e.outgoingBits.toNat := by
      have := h.count
      rw [BitVec.toNat_ofNat, fieldBits_mod (by omega), fieldBits_mod (Nat.le_refl _)]
    have hfield : fieldBits e.outgoingBitsCount e.outgoingBits.toNat =
        fieldBits k (e.outgoingBits.toNat >>> (e.outgoingBitsCount - k) % 2 ^ k) ++
          fieldBits (e.outgoingBitsCount - k) e.outgoingBits.toNat := by
      rw [fieldBits_mod (Nat.le_refl k), ← fieldBits_add,
        show k + (e.outgoingBitsCount - k) = e.outgoingBitsCount by omega]
    split at hstep <;> cases hstep
    · next hfull =>
      rw [hfull] at hplace
      simp only [Enc.pendingBits, hrest, hfield, ← List.append_assoc, ← hplace, hfull]
      simp [byteBits, fieldBits]
    · simp only [Enc.pendingBits, hrest, hfield, ← List.append_assoc, ← hplace, List.flatMap_nil, List.nil_append]

/-- The loop of PushField emits and leaves pending the bits that were pending (R88). -/
theorem Enc.AccumulatorSound.pushLoop_bits {left room : Nat} {e : Enc} (h : e.AccumulatorSound) :
    (Enc.pushLoop left room e).2.1.flatMap byteBits ++ (Enc.pushLoop left room e).1.pendingBits = e.pendingBits := by
  induction left generalizing room e with
  | zero => rfl
  | succ left ih =>
    unfold Enc.pushLoop
    split
    · rfl
    · split
      · rfl
      · next e' out hstep =>
        rw [List.flatMap_append, List.append_assoc, ih (h.pushStep hstep), h.pushStep_bits hstep]

/-- With no field in progress PushLoad appends the field to the pending bits (R86). -/
theorem Enc.pushLoad_bits {e : Enc} (hnone : e.outgoingBitsCount = 0) {w : Nat} (hw : w ≤ 15) (v : Nat) :
    (e.pushLoad v w).pendingBits = e.pendingBits ++ fieldBits w v := by
  rw [Enc.pushLoad, if_pos hnone]
  simp only [Enc.pendingBits, hnone, fieldBits, List.append_nil, BitVec.toNat_ofNat]
  rw [fieldBits_mod (by omega)]

/-- PushField with no field in progress: the bits emitted and left pending are those pending before, then the field's
(R88, R89). -/
theorem Enc.AccumulatorSound.pushField_bits {e : Enc} (h : e.AccumulatorSound) (hnone : e.outgoingBitsCount = 0)
    {v w : Nat} (hv : v < 2 ^ w) (hw : w ≤ 15) (room : Nat) :
    (e.pushField v w room).2.1.flatMap byteBits ++ (e.pushField v w room).1.pendingBits =
      e.pendingBits ++ fieldBits w v :=
  (h.pushLoad hv hw).pushLoop_bits.trans (Enc.pushLoad_bits hnone hw v)

/-- A Yield state with no field in progress emits and leaves pending the bits pending before, then its field's, when
what follows the field leaves the accumulator alone (R88, R89). -/
theorem Enc.Sound.yieldField_bits {e : Enc} (h : e.Sound) (hnone : e.outgoingBitsCount = 0) {v w : Nat} (hv : v < 2 ^ w)
    (hw : w ≤ 15) (room : Nat) {next : Enc → Enc} (hnext : ∀ e', (next e').pendingBits = e'.pendingBits) :
    (e.yieldField v w room next).out.flatMap byteBits ++ (e.yieldField v w room next).unit.pendingBits =
      e.pendingBits ++ fieldBits w v := by
  have hbits := h.accumulator.pushField_bits hnone hv hw room
  rcases Enc.yieldField_cases v w room e next with ⟨-, heq⟩ | ⟨-, heq⟩ <;> rw [heq]
  · simp only [hnext, hbits]
  · exact hbits

end Sys2Proof.Machine
end

section
/-! PROOFS. What the two backref states push, and that it fits (O38). -/

namespace Sys2Proof.Machine

/-- In YieldBackRefIndex the match lies at most `N` bytes back (R41, R110). -/
theorem Enc.Sound.backref_index {e : Enc} (h : e.Sound) (hst : e.state = .yieldBackRefIndex) :
    e.matchPos < e.position ∧ e.position ≤ e.matchPos + e.N := by
  obtain ⟨-, hlow, hhigh⟩ := h.matchInside (by rw [hst]; rfl) (h.backref (.inl hst))
  exact ⟨hhigh, by omega⟩

/-- In YieldBackRefLength the match has from 2 to `M` bytes, all inside the lookahead (R41, R111). -/
theorem Enc.Sound.backref_length {e : Enc} (h : e.Sound) (hst : e.state = .yieldBackRefLength) :
    2 ≤ e.matchLength ∧ e.matchLength ≤ e.M ∧ e.matchScanIndex + e.matchLength ≤ e.inputSize := by
  have htwo := h.backref (.inr hst)
  obtain ⟨-, -, hlength, -⟩ := (Enc.inRange_iff e).1 h.ranges
  exact ⟨htwo, (hlength.resolve_left (by omega)).2, (h.matchInside (by rw [hst]; rfl) htwo).1⟩

/-- A micro-step of YieldBackRefIndex pushes the distance minus one (R110). -/
theorem Enc.microStep_backref_index {e : Enc} (h : e.Sound) (hst : e.state = .yieldBackRefIndex)
    (hnone : e.outgoingBitsCount = 0) (room : Nat) :
    ∃ t, e.microStep room = .ok t ∧ t.out.flatMap byteBits ++ t.unit.pendingBits =
      e.pendingBits ++ fieldBits e.W (e.position - e.matchPos - 1) := by
  obtain ⟨hhigh, hlow⟩ := h.backref_index hst
  obtain ⟨-, hW, -⟩ := legalParameters_iff.1 h.legal
  have hfits : e.position - e.matchPos - 1 < 2 ^ e.W := by
    unfold Enc.N at hlow
    omega
  obtain ⟨t, ht, -⟩ := Enc.microStep_follows h room
  have haction := (Enc.microStep_ok ht).1
  rw [Enc.stateAction, hst] at haction
  simp only [Enc.stepYieldBackRefIndex, if_pos (And.intro hhigh hlow)] at haction
  cases haction
  exact ⟨_, ht, h.yieldField_bits hnone hfits hW room fun _ => rfl⟩

/-- A micro-step of YieldBackRefLength pushes the length minus two (R111). -/
theorem Enc.microStep_backref_length {e : Enc} (h : e.Sound) (hst : e.state = .yieldBackRefLength)
    (hnone : e.outgoingBitsCount = 0) (room : Nat) :
    ∃ t, e.microStep room = .ok t ∧ t.out.flatMap byteBits ++ t.unit.pendingBits =
      e.pendingBits ++ fieldBits e.L (e.matchLength - 2) := by
  obtain ⟨htwo, hM, -⟩ := h.backref_length hst
  obtain ⟨-, hW, -, hLW⟩ := legalParameters_iff.1 h.legal
  have hfits : e.matchLength - 2 < 2 ^ e.L := by
    unfold Enc.M at hM
    omega
  obtain ⟨t, ht, -⟩ := Enc.microStep_follows h room
  have haction := (Enc.microStep_ok ht).1
  rw [Enc.stateAction, hst] at haction
  simp only [Enc.stepYieldBackRefLength, if_pos (And.intro htwo hM)] at haction
  cases haction
  exact ⟨_, ht, h.yieldField_bits hnone hfits (by omega) room fun _ => rfl⟩

/-- Settles O38: the match of a sound encoder is a candidate of `p` inside the lookahead, so both fields fit their
widths, and PushField keeps the bit string. -/
theorem backrefFieldsFit : Obligations.BackrefFieldsFit := by
  unfold Obligations.BackrefFieldsFit
  intro room e h
  refine ⟨fun hst => ?_, fun hst => ?_⟩
  · obtain ⟨hhigh, hlow⟩ := h.backref_index hst
    unfold Enc.position Enc.N at hhigh hlow
    exact ⟨by omega, by omega, fun hnone => Enc.microStep_backref_index h hst hnone room⟩
  · obtain ⟨htwo, hM, hinside⟩ := h.backref_length hst
    unfold Enc.M at hM
    exact ⟨htwo, by omega, hinside, fun hnone => Enc.microStep_backref_length h hst hnone room⟩

end Sys2Proof.Machine
end

section
/-! PROOFS. Pull takes the next unconsumed bits (O39). -/

namespace Sys2Proof.Machine

/-- There are as many unread bits as `avail` says (R92). -/
theorem Dec.unreadBits_length (d : Dec) : d.unreadBits.length = d.avail := by
  simp only [Dec.unreadBits, Dec.unreadBytes, Dec.avail, List.length_append, fieldBits_length, List.length_flatMap,
    byteBits_length, List.map_const', List.sum_replicate, List.length_map, List.length_range, smul_eq_mul, Nat.mul_comm]

/-- The unread bytes, where there is one, begin with the one at the cursor (R33). -/
theorem Dec.unreadBytes_cons {d : Dec} (h : d.inputIndex < d.inputSize) :
    d.unreadBytes = d.inb.read d.inputIndex :: { d with inputIndex := d.inputIndex + 1 }.unreadBytes := by
  obtain ⟨n, hn⟩ := Nat.exists_eq_add_of_lt h
  simp only [Dec.unreadBytes]
  rw [show d.inputSize - d.inputIndex = n + 1 by omega, show d.inputSize - (d.inputIndex + 1) = n by omega,
    List.range_succ_eq_map, List.map_cons, List.map_map]
  simp [Function.comp_def, Nat.add_comm, Nat.add_left_comm]

/-- The load before a pulled bit answers where a bit is unread, and leaves the unread bits as they were, a bit of them
in `current_byte` (R93). -/
theorem Dec.load_reads {d : Dec} (h : d.Sound) (ha : 1 ≤ d.avail) :
    ∃ d', (if d.bitIndex = 0 then d.loadByte else .ok d) = .ok d' ∧ d'.Sound ∧ 1 ≤ d'.bitIndex ∧
      d'.unreadBits = d.unreadBits := by
  obtain ⟨d', hload, hpulled, hbit⟩ := Dec.load_answers h ha
  refine ⟨d', hload, hpulled.sound, hbit, ?_⟩
  split_ifs at hload with hzero
  · have hcur : d.inputIndex < d.inputSize := by
      unfold Dec.avail at ha
      omega
    obtain ⟨-, hbyte, height, hcursors, hframe⟩ := Dec.loadByte_ok hload
    have hinb : d'.inb = d.inb := (congrArg Dec.inb hframe :)
    rw [Dec.unreadBits, Dec.unreadBits, hzero, height, hbyte, Dec.unreadBytes_cons hcur, List.flatMap_cons]
    simp only [Dec.unreadBytes, hinb]
    rcases hcursors with ⟨hlast, hindex, hsize⟩ | ⟨-, hindex, hsize⟩ <;> rw [hindex, hsize]
    · simp [fieldBits, byteBits, hlast]
    · simp [fieldBits, byteBits]
  · cases hload
    rfl

/-- The unread bits begin with the highest one left in `current_byte` (R93). -/
theorem Dec.unreadBits_cons {d : Dec} (h : 1 ≤ d.bitIndex) :
    d.unreadBits = d.currentByte.getLsbD (d.bitIndex - 1) :: { d with bitIndex := d.bitIndex - 1 }.unreadBits := by
  obtain ⟨n, hn⟩ := Nat.exists_eq_add_of_le' h
  simp only [Dec.unreadBits, Dec.unreadBytes, hn, fieldBits, Nat.add_sub_cancel, List.cons_append]
  rfl

/-- A pull of no more bits than are unread reads them in order, and leaves sound cursors (R42, R93). -/
theorem Dec.pullBits_reads {w v : Nat} {d : Dec} (h : d.Sound) (ha : w ≤ d.avail) :
    ∃ d', Dec.pullBits w v d = .ok ((d.unreadBits.take w).foldl (fun v b => 2 * v + b.toNat) v, d') ∧
      d'.unreadBits = d.unreadBits.drop w ∧ d'.Sound := by
  induction w generalizing v d with
  | zero => exact ⟨d, rfl, rfl, h⟩
  | succ w ih =>
    obtain ⟨d₁, hload, hs₁, hbit, hbits⟩ := Dec.load_reads h (by omega)
    obtain ⟨hsize, -, -, -, -, -, -, -, hbits₁⟩ := (Dec.inRange_iff _).1 hs₁.ranges
    have hs₂ : { d₁ with bitIndex := d₁.bitIndex - 1 }.Sound :=
      hs₁.withCursors d₁.currentByte (by omega) hsize hs₁.cursors
    rw [Dec.unreadBits_cons hbit] at hbits
    have hlen := congrArg List.length hbits
    rw [List.length_cons, Dec.unreadBits_length, Dec.unreadBits_length] at hlen
    obtain ⟨d', hpull, hrest, hs'⟩ :=
      ih (v := 2 * v + (d₁.currentByte.getLsbD (d₁.bitIndex - 1)).toNat) hs₂ (by omega)
    refine ⟨d', ?_, ?_, hs'⟩
    · simp only [Dec.pullBits, hload, hpull, ← hbits, List.take_succ_cons, List.foldl_cons]
    · rw [hrest, ← hbits, List.drop_succ_cons]

/-- Settles O39: by induction on the bits pulled, each being the first unread one. -/
theorem pullReadsTheNextBits : Obligations.PullReadsTheNextBits := by
  unfold Obligations.PullReadsTheNextBits
  intro w d h _
  have hlen := d.unreadBits_length
  refine ⟨hlen, fun hfew => ?_, fun henough => ?_⟩
  · exact if_pos (hlen ▸ hfew)
  · rw [hlen] at henough
    obtain ⟨d', hbits, hrest, hs'⟩ := Dec.pullBits_reads (v := 0) h henough
    have hpull : d.pull w = .ok (some (bitsValue (d.unreadBits.take w), d')) := by
      rw [Dec.pull, if_neg (Nat.not_lt.2 henough), hbits]
      rfl
    exact ⟨d', hpull, hrest, hs'.cursors, Dec.pull_frame hpull⟩

end Sys2Proof.Machine
end

section
/-! PROOFS. What DEC.POLL leaves unchanged, and what it writes to `WIN` (O42). -/

namespace Sys2Proof.Machine

/-- `head_index` advances by the bytes emitted, modulo `N` (R34). -/
theorem emitWindow_head {N head : Nat} (hhead : head < N) (win : ByteMemory) (out : List Byte) :
    (emitWindow N head win out).1 = (head + out.length) % N := by
  induction out generalizing head win with
  | nil => exact (Nat.mod_eq_of_lt hhead).symm
  | cons b out ih =>
    rw [emitWindow, ih (Nat.mod_lt _ (by omega)), Nat.mod_add_mod, List.length_cons, Nat.add_right_comm, Nat.add_assoc]

/-- Emissions keep the canonical form of `WIN`. -/
theorem emitWindow_wf {win : ByteMemory} (h : Memory.wf 0 win) (N head : Nat) (out : List Byte) :
    Memory.wf 0 (emitWindow N head win out).2 := by
  induction out generalizing head win with
  | nil => exact h
  | cons b out ih => exact ih (Memory.write_wf h head b) _

/-- An index that no emission wrote reads as before (R135, R140). -/
theorem emitWindow_read_other {N : Nat} {win : ByteMemory} (h : Memory.wf 0 win) {head : Nat} (hhead : head < N)
    {out : List Byte} {a : Nat} (ha : ∀ k < out.length, a ≠ (head + k) % N) :
    ByteMemory.read (emitWindow N head win out).2 a = win.read a := by
  induction out generalizing head win with
  | nil => rfl
  | cons b out ih =>
    have hfirst : a ≠ head := by simpa [Nat.mod_eq_of_lt hhead] using ha 0 (by simp)
    refine (ih (Memory.write_wf h head b) (Nat.mod_lt _ (by omega)) fun k hk => ?_).trans
      (Memory.read_write_ne 0 h.1 hfirst b)
    have hnext := ha (k + 1) (by simpa using hk)
    rwa [Nat.mod_add_mod, Nat.add_right_comm, Nat.add_assoc]

/-- Fewer than `N` steps around a ring of `N` entries do not come back (R13). -/
theorem ne_ring_add {N head k : Nat} (hhead : head < N) (hk : 0 < k) (hkN : k < N) : head ≠ (head + k) % N := by
  rcases Nat.lt_or_ge (head + k) N with hlt | hge
  · rw [Nat.mod_eq_of_lt hlt]
    omega
  · rw [Nat.mod_eq_sub_mod hge, Nat.mod_eq_of_lt (by omega)]
    omega

/-- The last `N` bytes emitted are in `WIN`, each where `head_index` stood (R34, R135, R140). -/
theorem emitWindow_read_out {N : Nat} {win : ByteMemory} (h : Memory.wf 0 win) {head : Nat} (hhead : head < N)
    {out : List Byte} {k : Nat} (hk : k < out.length) (hlast : out.length ≤ k + N) :
    out[k]? = some (ByteMemory.read (emitWindow N head win out).2 ((head + k) % N)) := by
  induction out generalizing head win k with
  | nil => simp at hk
  | cons b out ih =>
    have hwf : Memory.wf 0 (win.write head b) := Memory.write_wf h head b
    have hhead' : (head + 1) % N < N := Nat.mod_lt _ (by omega)
    rw [List.length_cons] at hk hlast
    rw [emitWindow]
    cases k with
    | zero =>
      rw [List.getElem?_cons_zero, show (head + 0) % N = head from Nat.mod_eq_of_lt hhead,
        emitWindow_read_other hwf hhead']
      · exact congrArg some (Memory.read_write_same 0 h.1 head b).symm
      · intro j hj
        rw [Nat.mod_add_mod, Nat.add_assoc]
        exact ne_ring_add hhead (by omega) (by omega)
    | succ k =>
      rw [List.getElem?_cons_succ, ih hwf hhead' (by omega) (by omega), Nat.mod_add_mod, Nat.add_right_comm,
        Nat.add_assoc]

/-- The head of a sound decoder is inside its window (R34). -/
theorem Dec.Sound.headIndex_lt {d : Dec} (h : d.Sound) : d.headIndex < d.N := by
  obtain ⟨-, -, hhead, -⟩ := (Dec.inRange_iff d).1 h.ranges
  have := d.N_pos
  omega

/-- Settles O42: DEC.POLL is a run, which writes `WIN` by its emissions only. -/
theorem decPollFrame : Obligations.DecPollFrame := by
  unfold Obligations.DecPollFrame
  intro capacity s t st n out hmem hsound husable hexec hresponse
  rcases execDecPoll_next (hexec : execDecPoll capacity s = .next t) with ⟨hunusable, -⟩ | ⟨-, d, out', st', hpoll, rfl⟩
  · rw [husable] at hunusable
    cases hunusable
  · cases hresponse
    obtain ⟨hcfg, hinb, hwindow⟩ := Dec.poll_runs hpoll
    have hhead := hsound.headIndex_lt
    simp only [Dec.configuration, Prod.mk.injEq] at hcfg
    obtain ⟨hvalid, hW, hL, hibs, hfault, hdone, hdraws⟩ := hcfg
    have hhead' : d.headIndex = (emitWindow s.dec.N s.dec.headIndex s.dec.win out).1 := congrArg Prod.fst hwindow
    have hwin : d.win = (emitWindow s.dec.N s.dec.headIndex s.dec.win out).2 := congrArg Prod.snd hwindow
    refine ⟨rfl, rfl, hvalid, hW, hL, hibs, hfault, hdone, hdraws, fun a => congrArg (ByteMemory.read · a) hinb,
      ?_, ?_, ?_⟩
    · exact hhead'.trans (emitWindow_head hhead _ _)
    · intro k hk hlast
      exact (emitWindow_read_out hmem.win hhead hk hlast).trans (by rw [← hwin]; rfl)
    · intro a ha
      exact (congrArg (ByteMemory.read · a) hwin).trans (emitWindow_read_other hmem.win hhead ha)

end Sys2Proof.Machine
end

section
/-! SUPPORT. Everything the commands of NEW, SINK and FINISH can do when they answer a next state. -/

namespace Sys2Proof.Machine

variable {s t : State}

/-- ENC.NEW constructs ENC or leaves it unconfigured (R96). -/
theorem execEncNew_next {cfg : CfgWord} (h : execEncNew cfg s = .next t) :
    (encCfgValid cfg = true ∧
      t = (s.setEnc (.afterNew (cfgW cfg) (cfgL cfg) (cfgIndexed cfg) s.enc.draws)).setResponse ⟨.ok, 0, []⟩) ∨
    (encCfgValid cfg = false ∧ t = (s.setEnc s.enc.afterRefusedNew).setResponse ⟨.invalidParameter, 0, []⟩) := by
  unfold execEncNew at h
  split_ifs at h with hvalid <;> cases h
  · exact .inl ⟨hvalid, rfl⟩
  · exact .inr ⟨by simpa using hvalid, rfl⟩

/-- DEC.NEW constructs DEC or leaves it unconfigured (R129). -/
theorem execDecNew_next {cfg : CfgWord} (h : execDecNew cfg s = .next t) :
    (decCfgValid cfg = true ∧
      t = (s.setDec (.afterNew (cfgW cfg) (cfgL cfg) (cfgIbs cfg) s.dec.draws)).setResponse ⟨.ok, 0, []⟩) ∨
    (decCfgValid cfg = false ∧ t = (s.setDec s.dec.afterRefusedNew).setResponse ⟨.invalidParameter, 0, []⟩) := by
  unfold execDecNew at h
  split_ifs at h with hvalid <;> cases h
  · exact .inl ⟨hvalid, rfl⟩
  · exact .inr ⟨by simpa using hvalid, rfl⟩

/-- ENC.SINK is a misuse that changes nothing or latches the fault, finds the lookahead full, or takes what
fits (R97). -/
theorem execEncSink_next {src : List Byte} (h : execEncSink src s = .next t) :
    (s.enc.usable = false ∧ t = s.setResponse ⟨.misuse, 0, []⟩) ∨
    (s.enc.usable = true ∧ s.enc.finishing = true ∧
      t = (s.setEnc { s.enc with fault := true }).setResponse ⟨.misuse, 0, []⟩) ∨
    (s.enc.usable = true ∧ s.enc.finishing = false ∧ s.enc.N ≤ s.enc.inputSize ∧ t = s.setResponse ⟨.full, 0, []⟩) ∨
    (s.enc.usable = true ∧ s.enc.finishing = false ∧ s.enc.inputSize < s.enc.N ∧
      ∃ taken, taken = sinkTaken (s.enc.N - s.enc.inputSize) src ∧
        t = (s.setEnc { s.enc with
          buf := s.enc.buf.writeList (s.enc.N + s.enc.inputSize) taken
          inputSize := s.enc.inputSize + taken.length }).setResponse ⟨.ok, taken.length, []⟩) := by
  unfold execEncSink at h
  dsimp only at h
  split_ifs at h with hunusable hfin hfull <;> cases h
  · exact .inl ⟨by simpa only [Bool.not_eq_true'] using hunusable, rfl⟩
  all_goals have husable : s.enc.usable = true := by simpa only [Bool.not_eq_true', Bool.not_eq_false] using hunusable
  · exact .inr (.inl ⟨husable, hfin, rfl⟩)
  all_goals rw [Bool.not_eq_true] at hfin
  · exact .inr (.inr (.inl ⟨husable, hfin, Nat.le_of_sub_eq_zero hfull, rfl⟩))
  · exact .inr (.inr (.inr ⟨husable, hfin, Nat.lt_of_sub_ne_zero hfull, _, rfl, rfl⟩))

/-- DEC.SINK is a misuse that changes nothing or latches the fault, finds the buffer full, or takes what fits (R130). -/
theorem execDecSink_next {src : List Byte} (h : execDecSink src s = .next t) :
    (s.dec.usable = false ∧ t = s.setResponse ⟨.misuse, 0, []⟩) ∨
    (s.dec.usable = true ∧ s.dec.doneReported = true ∧
      t = (s.setDec { s.dec with fault := true }).setResponse ⟨.misuse, 0, []⟩) ∨
    (s.dec.usable = true ∧ s.dec.doneReported = false ∧ s.dec.ibs ≤ s.dec.inputSize ∧
      t = s.setResponse ⟨.full, 0, []⟩) ∨
    (s.dec.usable = true ∧ s.dec.doneReported = false ∧ s.dec.inputSize < s.dec.ibs ∧
      ∃ taken, taken = sinkTaken (s.dec.ibs - s.dec.inputSize) src ∧
        t = (s.setDec { s.dec with
          inb := s.dec.inb.writeList s.dec.inputSize taken
          inputSize := s.dec.inputSize + taken.length }).setResponse ⟨.ok, taken.length, []⟩) := by
  unfold execDecSink at h
  dsimp only at h
  split_ifs at h with hunusable hdone hfull <;> cases h
  · exact .inl ⟨by simpa only [Bool.not_eq_true'] using hunusable, rfl⟩
  all_goals have husable : s.dec.usable = true := by simpa only [Bool.not_eq_true', Bool.not_eq_false] using hunusable
  · exact .inr (.inl ⟨husable, hdone, rfl⟩)
  all_goals rw [Bool.not_eq_true] at hdone
  · exact .inr (.inr (.inl ⟨husable, hdone, Nat.le_of_sub_eq_zero hfull, rfl⟩))
  · exact .inr (.inr (.inr ⟨husable, hdone, Nat.lt_of_sub_ne_zero hfull, _, rfl, rfl⟩))

/-- ENC.FINISH is a misuse that changes nothing, or sets `finishing` (R99). -/
theorem execEncFinish_next (h : execEncFinish s = .next t) :
    (s.enc.usable = false ∧ t = s.setResponse ⟨.misuse, 0, []⟩) ∨
    (s.enc.usable = true ∧ t = (s.setEnc { s.enc with finishing := true }).setResponse
      ⟨if s.enc.state = .done then .done else .more, 0, []⟩) := by
  unfold execEncFinish at h
  split at h
  · next hunusable =>
    cases h
    exact .inl ⟨by simpa only [Bool.not_eq_true'] using hunusable, rfl⟩
  · next husable =>
    cases h
    exact .inr ⟨by simpa only [Bool.not_eq_true', Bool.not_eq_false] using husable, rfl⟩

/-- DEC.FINISH is a misuse that changes nothing, responds MORE, or records the end of the stream (R132). -/
theorem execDecFinish_next (h : execDecFinish s = .next t) :
    (s.dec.usable = false ∧ t = s.setResponse ⟨.misuse, 0, []⟩) ∨
    (s.dec.usable = true ∧ t = s.setResponse ⟨.more, 0, []⟩) ∨
    (s.dec.usable = true ∧ (∃ w, s.dec.pullWidth = some w ∧ s.dec.avail < w) ∧ s.dec.allOnes = true ∧
      t = (s.setDec { s.dec with doneReported := true }).setResponse ⟨.done, 0, []⟩) := by
  unfold execDecFinish at h
  split at h
  · next hunusable =>
    cases h
    exact .inl ⟨by simpa only [Bool.not_eq_true'] using hunusable, rfl⟩
  · next hunusable =>
    have husable : s.dec.usable = true := by simpa only [Bool.not_eq_true', Bool.not_eq_false] using hunusable
    refine .inr ?_
    split at h
    · cases h
      exact .inl ⟨husable, rfl⟩
    · next w hw =>
      split_ifs at h with hbits _ hones <;> cases h
      · exact .inl ⟨husable, rfl⟩
      · exact .inr ⟨husable, ⟨w, hw, Nat.lt_of_not_le hbits⟩, hones, rfl⟩
      · exact .inl ⟨husable, rfl⟩

/-- A token that is not refused runs (logs 7, 8). -/
theorem execToken_next {i : Instr} (h : execToken i s = .next t) : runToken (tokenField i s.dec.L) s = .next t := by
  unfold execToken at h
  split_ifs at h
  exact h

end Sys2Proof.Machine
end

section
/-! PROOFS. A refused NEW (O11), SINK during a block (O15), and the writers of the configuration and the flags (O22). -/

namespace Sys2Proof.Machine

/-- Settles O11: the free values have the registers' widths, and an accepted NEW responds OK. -/
theorem refusedNewFrame : Obligations.RefusedNewFrame := by
  unfold Obligations.RefusedNewFrame
  refine fun cfg s t => ⟨fun h hresponse => ?_, fun h hresponse => ?_⟩
  · rcases execEncNew_next h with ⟨-, rfl⟩ | ⟨-, rfl⟩
    · cases hresponse
    · exact ⟨BitVec.isLt _, BitVec.isLt _, rfl⟩
  · rcases execDecNew_next h with ⟨-, rfl⟩ | ⟨-, rfl⟩
    · cases hresponse
    · exact ⟨BitVec.isLt _, BitVec.isLt _, BitVec.isLt _, rfl⟩

/-- Settles O15: by R40 the lookahead is full. -/
theorem encSinkFullDuringBlock : Obligations.EncSinkFullDuringBlock := by
  unfold Obligations.EncSinkFullDuringBlock
  intro src s h husable hfin hst
  have hfull := h.fullBlock hfin hst
  show execEncSink src s = _
  simp [execEncSink, husable, hfin, hfull, respond, State.setResponse]

/-- An instruction of ENC other than NEW keeps the configuration, and `finishing` unless it is FINISH (R18, R22). -/
theorem exec_enc_configuration {i : Instr} {s t : State} (hexec : exec i s = .next t) (hi : i.forEnc = true)
    (hnew : ∀ cfg, i ≠ .encNew cfg) :
    t.enc.cfgValid = s.enc.cfgValid ∧ t.enc.W = s.enc.W ∧ t.enc.L = s.enc.L ∧ t.enc.indexed = s.enc.indexed ∧
      (i ≠ .encFinish → t.enc.finishing = s.enc.finishing) := by
  cases i with
  | encNew cfg => exact absurd rfl (hnew cfg)
  | encSink src =>
    rcases execEncSink_next hexec with ⟨-, rfl⟩ | ⟨-, -, rfl⟩ | ⟨-, -, -, rfl⟩ | ⟨-, -, -, _, -, rfl⟩ <;>
      exact ⟨rfl, rfl, rfl, rfl, fun _ => rfl⟩
  | encPoll capacity =>
    rcases execEncPoll_next hexec with ⟨-, rfl⟩ | ⟨-, e, out, st, hpoll, rfl⟩
    · exact ⟨rfl, rfl, rfl, rfl, fun _ => rfl⟩
    · have hcfg := Enc.poll_configuration hpoll
      simp only [Enc.configuration, Prod.mk.injEq] at hcfg
      obtain ⟨hvalid, hW, hL, hindexed, -, hfin, -⟩ := hcfg
      exact ⟨hvalid, hW, hL, hindexed, fun _ => hfin⟩
  | encFinish =>
    rcases execEncFinish_next hexec with ⟨-, rfl⟩ | ⟨-, rfl⟩ <;> exact ⟨rfl, rfl, rfl, rfl, fun hne => absurd rfl hne⟩
  | _ => cases hi

/-- A token keeps the configuration and `done_reported` (R19, R32). -/
theorem execToken_flags {i : Instr} {s t : State} (h : execToken i s = .next t) :
    t.dec.cfgValid = s.dec.cfgValid ∧ t.dec.W = s.dec.W ∧ t.dec.L = s.dec.L ∧ t.dec.ibs = s.dec.ibs ∧
      t.dec.doneReported = s.dec.doneReported := by
  rcases runToken_next (execToken_next h) with ⟨-, rfl⟩ | ⟨-, d, out, st, hrun, rfl⟩
  · exact ⟨rfl, rfl, rfl, rfl, rfl⟩
  · exact (Dec.tokenRun_runs hrun).flags

/-- An instruction of DEC other than NEW keeps the configuration, and `done_reported` unless it is FINISH (R19, R32). -/
theorem exec_dec_configuration {i : Instr} {s t : State} (hexec : exec i s = .next t) (hi : i.forEnc = false)
    (hnew : ∀ cfg, i ≠ .decNew cfg) :
    t.dec.cfgValid = s.dec.cfgValid ∧ t.dec.W = s.dec.W ∧ t.dec.L = s.dec.L ∧ t.dec.ibs = s.dec.ibs ∧
      (i ≠ .decFinish → t.dec.doneReported = s.dec.doneReported) := by
  cases i with
  | decNew cfg => exact absurd rfl (hnew cfg)
  | decSink src =>
    rcases execDecSink_next hexec with ⟨-, rfl⟩ | ⟨-, -, rfl⟩ | ⟨-, -, -, rfl⟩ | ⟨-, -, -, _, -, rfl⟩ <;>
      exact ⟨rfl, rfl, rfl, rfl, fun _ => rfl⟩
  | decPoll capacity =>
    rcases execDecPoll_next hexec with ⟨-, rfl⟩ | ⟨-, d, out, st, hpoll, rfl⟩
    · exact ⟨rfl, rfl, rfl, rfl, fun _ => rfl⟩
    · obtain ⟨hvalid, hW, hL, hibs, hdone⟩ := (Dec.poll_runs hpoll).flags
      exact ⟨hvalid, hW, hL, hibs, fun _ => hdone⟩
  | decFinish =>
    rcases execDecFinish_next hexec with ⟨-, rfl⟩ | ⟨-, rfl⟩ | ⟨-, -, -, rfl⟩ <;>
      exact ⟨rfl, rfl, rfl, rfl, fun hne => absurd rfl hne⟩
  | lit b =>
    obtain ⟨hvalid, hW, hL, hibs, hdone⟩ := execToken_flags hexec
    exact ⟨hvalid, hW, hL, hibs, fun _ => hdone⟩
  | bref index count =>
    obtain ⟨hvalid, hW, hL, hibs, hdone⟩ := execToken_flags hexec
    exact ⟨hvalid, hW, hL, hibs, fun _ => hdone⟩
  | _ => cases hi

/-- Settles O22: an instruction of the other unit leaves the unit whole, and of its own only NEW and FINISH write these
registers. -/
theorem flagsHaveTheirWriters : Obligations.FlagsHaveTheirWriters := by
  unfold Obligations.FlagsHaveTheirWriters
  intro i s t hexec
  obtain ⟨-, hforEnc, hforDec⟩ := unitsAreIndependent i s s t hexec
  cases hi : i.forEnc with
  | true => exact ⟨exec_enc_configuration hexec hi, fun _ => by simp [(hforEnc hi).1]⟩
  | false => exact ⟨fun _ => by simp [(hforDec hi).1], exec_dec_configuration hexec hi⟩

end Sys2Proof.Machine
end

section
/-! PROOFS. Every step keeps a sound state sound (O51). -/

namespace Sys2Proof.Machine

/-- The memories of ENC are in their canonical form. -/
structure Enc.Canonical (e : Enc) : Prop where
  buf : Memory.wf 0 e.buf
  head : Memory.wf none e.head
  next : Memory.wf none e.next

/-- The memories of DEC are in their canonical form. -/
structure Dec.Canonical (d : Dec) : Prop where
  win : Memory.wf 0 d.win
  inb : Memory.wf 0 d.inb

/-- The encoder of a canonical state is canonical. -/
theorem State.MemoryCanonical.toEnc {s : State} (h : s.MemoryCanonical) : s.enc.Canonical := ⟨h.buf, h.head, h.next⟩

/-- The decoder of a canonical state is canonical. -/
theorem State.MemoryCanonical.toDec {s : State} (h : s.MemoryCanonical) : s.dec.Canonical := ⟨h.win, h.inb⟩

/-! ### Responses -/

/-- A response of no count and no bytes has the form of R80, whatever its status. -/
theorem Response.Sound.bare (st : Status) : (⟨st, 0, []⟩ : Response).Sound := ⟨Nat.zero_le _, .inl rfl, fun _ => rfl⟩

/-- OK with a count of at most 65535 has the form of R80. -/
theorem Response.Sound.ok {n : Nat} (hn : n ≤ 65535) : (⟨.ok, n, []⟩ : Response).Sound :=
  ⟨hn, .inl rfl, fun hne => absurd rfl hne⟩

/-- EMPTY or MORE with at most 65535 bytes has the form of R80. -/
theorem Response.Sound.emitted {st : Status} {out : List Byte} (hst : st = .empty ∨ st = .more)
    (hlen : out.length ≤ 65535) : (⟨st, out.length, out⟩ : Response).Sound :=
  ⟨hlen, .inr ⟨rfl, hst⟩, fun _ => rfl⟩

section
variable {s : State} {r : Response}

/-- A response of the right form keeps a state sound. -/
theorem State.Sound.answer (h : s.Sound) (hr : r.Sound) : (s.setResponse r).Sound where
  memory := ⟨h.memory.buf, h.memory.head, h.memory.next, h.memory.win, h.memory.inb⟩
  enc := h.enc
  dec := h.dec
  response := fun _ heq => Option.some.inj heq ▸ hr

/-- A response of the right form, with a sound and canonical encoder in place of the old one, keeps a state sound. -/
theorem State.Sound.answerEnc (h : s.Sound) {e : Enc} (hmem : e.Canonical) (he : e.cfgValid = true → e.Sound)
    (hr : r.Sound) : ((s.setEnc e).setResponse r).Sound where
  memory := ⟨hmem.buf, hmem.head, hmem.next, h.memory.win, h.memory.inb⟩
  enc := he
  dec := h.dec
  response := fun _ heq => Option.some.inj heq ▸ hr

/-- A response of the right form, with a sound and canonical decoder in place of the old one, keeps a state sound. -/
theorem State.Sound.answerDec (h : s.Sound) {d : Dec} (hmem : d.Canonical) (hd : d.cfgValid = true → d.Sound)
    (hr : r.Sound) : ((s.setDec d).setResponse r).Sound where
  memory := ⟨h.memory.buf, h.memory.head, h.memory.next, hmem.win, hmem.inb⟩
  enc := h.enc
  dec := hd
  response := fun _ heq => Option.some.inj heq ▸ hr

end

/-! ### ENC -/

/-- ENC after a valid NEW is sound (R96). -/
theorem Enc.afterNew_sound {W L : Nat} (hlegal : legalParameters W L = true) (indexed : Bool) (draws : Nat) :
    (Enc.afterNew W L indexed draws).Sound where
  legal := hlegal
  ranges := (Enc.inRange_iff _).2
    ⟨Nat.zero_le _, Nat.zero_le _, .inl rfl, Nat.zero_le _, Nat.zero_le _, by simp [Enc.afterNew], Nat.le_refl 8⟩
  bufInside := nofun
  headInside := ⟨nofun, nofun⟩
  nextInside := ⟨nofun, nofun⟩
  indexAbsent := fun _ => ⟨rfl, rfl⟩
  indexFresh := by simp [Enc.afterNew, EncState.isYield]
  fullBlock := fun _ hst => absurd rfl hst
  searching := nofun
  yielding := nofun
  matchInside := nofun
  literal := nofun
  backref := by simp [Enc.afterNew]
  pending := fun _ => rfl
  outgoing := Nat.one_pos
  partialByte := rfl
  flushing := by simp [Enc.afterNew]
  flushed := nofun

/-- A lookahead with room is being filled: ENC is in NotFull (R40). -/
theorem Enc.Sound.notFull_of_room {e : Enc} (h : e.Sound) (hfin : e.finishing = false) (hroom : e.inputSize < e.N) :
    e.state = .notFull :=
  by_contra fun hst => Nat.ne_of_lt hroom (h.fullBlock hfin hst)

/-- Bytes that fit the lookahead keep ENC sound (R40, R97). -/
theorem Enc.Sound.sink {e : Enc} (h : e.Sound) (hst : e.state = .notFull) {taken : List Byte}
    (hfits : e.inputSize + taken.length ≤ e.N) :
    { e with
      buf := e.buf.writeList (e.N + e.inputSize) taken, inputSize := e.inputSize + taken.length }.Sound := by
  obtain ⟨-, hrest⟩ := (Enc.inRange_iff e).1 h.ranges
  exact { h with
    ranges := (Enc.inRange_iff _).2 ⟨hfits, hrest⟩
    bufInside := Memory.writeList_below h.bufInside (show _ ≤ 2 * e.N by omega)
    indexFresh := by simp [hst, EncState.isYield]
    fullBlock := fun _ hne => absurd hst hne
    searching := by simp [hst]
    yielding := by simp [hst, EncState.isYield]
    matchInside := by simp [hst, EncState.isYield] }

/-- Finishing keeps ENC sound (R99). -/
theorem Enc.Sound.finish {e : Enc} (h : e.Sound) : { e with finishing := true }.Sound :=
  { h with fullBlock := nofun, flushing := fun _ => rfl }

/-- The index of a block is canonical (R123). -/
theorem buildIndex_wf (buf : ByteMemory) (n : Nat) :
    Memory.wf none (buildIndex buf n).1 ∧ Memory.wf none (buildIndex buf n).2 := by
  induction n with
  | zero => simp [buildIndex, Memory.wf]
  | succ n ih => exact ⟨Memory.write_wf ih.1 _ _, Memory.write_wf ih.2 _ _⟩

/-- A micro-step of a sound and canonical ENC leaves it canonical (R113, R123). -/
theorem Enc.Does.canonical {room : Nat} {e : Enc} {t : Turn Enc} (hdoes : Enc.Does room e t) (h : e.Sound)
    (hmem : e.Canonical) : t.unit.Canonical := by
  have hbuf : Memory.wf 0 t.unit.buf := by
    rcases hdoes.buf with heq | ⟨-, heq⟩ <;> rw [heq]
    · exact hmem.buf
    · exact Memory.slide_wf hmem.buf h.bufInside
  have hindex : Memory.wf none t.unit.head ∧ Memory.wf none t.unit.next := by
    rcases hdoes.index with heq | heq
    · obtain ⟨hhead, hnext⟩ := Prod.mk.inj heq
      exact ⟨hhead ▸ hmem.head, hnext ▸ hmem.next⟩
    · have hwf := buildIndex_wf e.buf (e.N + e.inputSize - 1)
      rwa [← heq] at hwf
  exact ⟨hbuf, hindex.1, hindex.2⟩

/-- A micro-step keeps ENC sound and canonical (R100). -/
theorem Enc.microStep_keeps {room : Nat} {e : Enc} {t : Turn Enc} (h : e.Sound ∧ e.Canonical)
    (ht : e.microStep room = .ok t) : t.unit.Sound ∧ t.unit.Canonical := by
  obtain ⟨t', ht', hfollows⟩ := Enc.microStep_follows h.1 room
  obtain rfl : t = t' := Except.ok.inj (ht.symm.trans ht')
  exact ⟨hfollows.sound, (Enc.microStep_does ht).canonical h.1 h.2⟩

/-- ENC.POLL emits no more bytes than its capacity (R98). -/
theorem Enc.poll_length {capacity : Nat} {e e' : Enc} {out : List Byte} {st : Status}
    (h : e.poll capacity = .ok (e', out, st)) : out.length ≤ capacity :=
  pollLoop_length (fun _ _ _ ht => (Enc.microStep_does ht).length) h

/-! ### DEC -/

/-- DEC after a valid NEW is sound (R129). -/
theorem Dec.afterNew_sound {W L ibs : Nat} (hlegal : legalParameters W L = true) (hibs : 1 ≤ ibs ∧ ibs ≤ 65535)
    (draws : Nat) : (Dec.afterNew W L ibs draws).Sound where
  legal := hlegal
  capacity := hibs
  ranges := (Dec.inRange_iff _).2
    ⟨Nat.zero_le _, Nat.zero_le _, Nat.zero_le _, Nat.zero_le _, Nat.zero_le _, Nat.zero_le _, Nat.zero_le _,
      Nat.zero_le _, Nat.zero_le _⟩
  winInside := nofun
  inbInside := nofun
  cursors := .inr ⟨rfl, rfl⟩
  indexHigh := nofun
  indexLow := nofun
  countHigh := nofun
  countLow := nofun
  distanceHeld := by simp [Dec.afterNew]
  copying := nofun

/-- Bytes that fit the input buffer keep DEC sound (R42, R130). -/
theorem Dec.Sound.sink {d : Dec} (h : d.Sound) {taken : List Byte} (hfits : d.inputSize + taken.length ≤ d.ibs) :
    { d with inb := d.inb.writeList d.inputSize taken, inputSize := d.inputSize + taken.length }.Sound := by
  obtain ⟨-, hrest⟩ := (Dec.inRange_iff d).1 h.ranges
  have hcursors := h.cursors
  exact { h with
    ranges := (Dec.inRange_iff _).2 ⟨hfits, hrest⟩
    inbInside := Memory.writeList_below h.inbInside hfits
    cursors := by simp only; omega }

/-- Recording the end of the stream keeps DEC sound (R132). -/
theorem Dec.Sound.finish {d : Dec} (h : d.Sound) : { d with doneReported := true }.Sound := { h with }

/-- A run leaves DEC canonical (R135, R140). -/
theorem Dec.Runs.canonical {d d' : Dec} {out : List Byte} (hruns : Dec.Runs d out d') (hmem : d.Canonical) :
    d'.Canonical := by
  have hwin : d'.win = (emitWindow d.N d.headIndex d.win out).2 := congrArg Prod.snd hruns.window
  exact ⟨hwin ▸ emitWindow_wf hmem.win _ _ _, hruns.inb ▸ hmem.inb⟩

/-- DEC.POLL emits no more bytes than its capacity (R131). -/
theorem Dec.poll_length {capacity : Nat} {d d' : Dec} {out : List Byte} {st : Status}
    (h : d.poll capacity = .ok (d', out, st)) : out.length ≤ capacity :=
  pollLoop_length (fun _ _ _ ht => (Dec.microStep_runs ht).2) h

/-! ### Instructions -/

section
variable {s t : State}

/-- ENC.NEW keeps a state sound (R96). -/
theorem State.Sound.execEncNew (h : s.Sound) {cfg : CfgWord} (hexec : execEncNew cfg s = .next t) : t.Sound := by
  rcases execEncNew_next hexec with ⟨hvalid, rfl⟩ | ⟨-, rfl⟩
  · have hlegal : legalParameters (cfgW cfg) (cfgL cfg) = true := by
      simp only [encCfgValid, Bool.and_eq_true] at hvalid
      exact hvalid.1.1
    exact h.answerEnc ⟨⟨.nil, nofun⟩, ⟨.nil, nofun⟩, ⟨.nil, nofun⟩⟩
      (fun _ => Enc.afterNew_sound hlegal _ _) (.bare _)
  · have hmem := h.memory.toEnc
    exact h.answerEnc ⟨hmem.buf, hmem.head, hmem.next⟩ nofun (.bare _)

/-- ENC.SINK keeps a state sound (R97). -/
theorem State.Sound.execEncSink (h : s.Sound) {src : List Byte} (hsrc : src.length ≤ 65535)
    (hexec : execEncSink src s = .next t) : t.Sound := by
  have hmem := h.memory.toEnc
  rcases execEncSink_next hexec with
    ⟨-, rfl⟩ | ⟨-, -, rfl⟩ | ⟨-, -, -, rfl⟩ | ⟨husable, hfin, hroom, taken, htaken, rfl⟩
  · exact h.answer (.bare _)
  · exact h.answerEnc ⟨hmem.buf, hmem.head, hmem.next⟩ (fun hv => { h.enc hv with }) (.bare _)
  · exact h.answer (.bare _)
  · have hsound := h.enc ((Enc.usable_iff _).1 husable).1
    have hlen : taken.length = min (s.enc.N - s.enc.inputSize) src.length := by
      rw [htaken, sinkTaken, List.length_take]
    exact h.answerEnc ⟨Memory.writeList_wf hmem.buf _ _, hmem.head, hmem.next⟩ (fun _ =>
      hsound.sink (hsound.notFull_of_room hfin hroom) (by omega)) (.ok (by omega))

/-- ENC.POLL keeps a state sound (R98). -/
theorem State.Sound.execEncPoll (h : s.Sound) {capacity : Nat} (hcapacity : capacity ≤ 65535)
    (hexec : execEncPoll capacity s = .next t) : t.Sound := by
  rcases execEncPoll_next hexec with ⟨-, rfl⟩ | ⟨husable, e, out, st, hpoll, rfl⟩
  · exact h.answer (.bare _)
  · obtain ⟨hsound, hmem⟩ := pollLoop_keeps (P := fun u : Enc => u.Sound ∧ u.Canonical)
      (fun _ _ _ hu ht => Enc.microStep_keeps hu ht) ⟨h.enc ((Enc.usable_iff _).1 husable).1, h.memory.toEnc⟩ hpoll
    exact h.answerEnc hmem (fun _ => hsound)
      (.emitted (pollLoop_status hpoll) ((Enc.poll_length hpoll).trans hcapacity))

/-- ENC.FINISH keeps a state sound (R99). -/
theorem State.Sound.execEncFinish (h : s.Sound) (hexec : execEncFinish s = .next t) : t.Sound := by
  have hmem := h.memory.toEnc
  rcases execEncFinish_next hexec with ⟨-, rfl⟩ | ⟨-, rfl⟩
  · exact h.answer (.bare _)
  · exact h.answerEnc ⟨hmem.buf, hmem.head, hmem.next⟩ (fun hv => (h.enc hv).finish) (.bare _)

/-- DEC.NEW keeps a state sound (R129). -/
theorem State.Sound.execDecNew (h : s.Sound) {cfg : CfgWord} (hexec : execDecNew cfg s = .next t) : t.Sound := by
  rcases execDecNew_next hexec with ⟨hvalid, rfl⟩ | ⟨-, rfl⟩
  · obtain ⟨⟨hlegal, -⟩, hibs⟩ : (legalParameters (cfgW cfg) (cfgL cfg) = true ∧ _) ∧ cfgIbs cfg ≠ 0 := by
      simpa only [decCfgValid, Bool.and_eq_true, decide_eq_true_eq] using hvalid
    have hibs' : 1 ≤ cfgIbs cfg ∧ cfgIbs cfg ≤ 65535 := ⟨Nat.pos_of_ne_zero hibs, Nat.le_of_lt_succ (BitVec.isLt _)⟩
    exact h.answerDec ⟨⟨.nil, nofun⟩, ⟨.nil, nofun⟩⟩
      (fun _ => Dec.afterNew_sound hlegal hibs' _) (.bare _)
  · have hmem := h.memory.toDec
    exact h.answerDec ⟨hmem.win, hmem.inb⟩ nofun (.bare _)

/-- DEC.SINK keeps a state sound (R130). -/
theorem State.Sound.execDecSink (h : s.Sound) {src : List Byte} (hsrc : src.length ≤ 65535)
    (hexec : execDecSink src s = .next t) : t.Sound := by
  have hmem := h.memory.toDec
  rcases execDecSink_next hexec with
    ⟨-, rfl⟩ | ⟨-, -, rfl⟩ | ⟨-, -, -, rfl⟩ | ⟨husable, -, hroom, taken, htaken, rfl⟩
  · exact h.answer (.bare _)
  · exact h.answerDec ⟨hmem.win, hmem.inb⟩ (fun hv => { h.dec hv with }) (.bare _)
  · exact h.answer (.bare _)
  · have hsound := h.dec ((Dec.usable_iff _).1 husable).1
    have hlen : taken.length = min (s.dec.ibs - s.dec.inputSize) src.length := by
      rw [htaken, sinkTaken, List.length_take]
    exact h.answerDec ⟨hmem.win, Memory.writeList_wf hmem.inb _ _⟩ (fun _ =>
      hsound.sink (by omega)) (.ok (by omega))

/-- DEC.POLL keeps a state sound (R131). -/
theorem State.Sound.execDecPoll (h : s.Sound) {capacity : Nat} (hcapacity : capacity ≤ 65535)
    (hexec : execDecPoll capacity s = .next t) : t.Sound := by
  rcases execDecPoll_next hexec with ⟨-, rfl⟩ | ⟨husable, d, out, st, hpoll, rfl⟩
  · exact h.answer (.bare _)
  · obtain ⟨d', out', st', hpoll', hsound⟩ := Dec.poll_answers (h.dec ((Dec.usable_iff _).1 husable).1) capacity
    cases hpoll.symm.trans hpoll'
    exact h.answerDec ((Dec.poll_runs hpoll).canonical h.memory.toDec) (fun _ => hsound)
      (.emitted (pollLoop_status hpoll) ((Dec.poll_length hpoll).trans hcapacity))

/-- DEC.FINISH keeps a state sound (R132). -/
theorem State.Sound.execDecFinish (h : s.Sound) (hexec : execDecFinish s = .next t) : t.Sound := by
  have hmem := h.memory.toDec
  rcases execDecFinish_next hexec with ⟨-, rfl⟩ | ⟨-, rfl⟩ | ⟨-, -, -, rfl⟩
  · exact h.answer (.bare _)
  · exact h.answer (.bare _)
  · exact h.answerDec ⟨hmem.win, hmem.inb⟩ (fun hv => (h.dec hv).finish) (.bare _)

/-- The run of one token keeps a state sound (log 7). -/
theorem State.Sound.runToken (h : s.Sound) {field : DecState → Nat → Nat} (hf : FitsPulls s.dec.W s.dec.L field)
    (hexec : runToken field s = .next t) : t.Sound := by
  rcases runToken_next hexec with ⟨-, rfl⟩ | ⟨husable, d, out, st, hrun, rfl⟩
  · exact h.answer (.bare _)
  · obtain ⟨d', out', st', hrun', hsound⟩ :=
      Dec.tokenRun_answers (h.dec ((Dec.usable_iff _).1 husable).1) hf Config.maxOperand
    cases hrun.symm.trans hrun'
    exact h.answerDec ((Dec.tokenRun_runs hrun).canonical h.memory.toDec) (fun _ => hsound)
      (.emitted (pollLoop_status hrun) (pollLoop_length (fun _ _ _ ht => (Dec.tokenMicroStep_runs ht).2) hrun))

/-- A command with its operand in range keeps a state sound (R78). -/
theorem State.Sound.exec_command (h : s.Sound) {i : Instr} (hi : i.isToken = false) (hrange : i.operandInRange = true)
    (hexec : exec i s = .next t) : t.Sound := by
  cases i with
  | encNew cfg => exact h.execEncNew hexec
  | encSink src => exact h.execEncSink (of_decide_eq_true hrange) hexec
  | encPoll capacity => exact h.execEncPoll (of_decide_eq_true hrange) hexec
  | encFinish => exact h.execEncFinish hexec
  | decNew cfg => exact h.execDecNew hexec
  | decSink src => exact h.execDecSink (of_decide_eq_true hrange) hexec
  | decPoll capacity => exact h.execDecPoll (of_decide_eq_true hrange) hexec
  | decFinish => exact h.execDecFinish hexec
  | lit b => cases hi
  | bref index count => cases hi

/-- A command step keeps a state sound (R77, R78). -/
theorem State.Sound.acceptCommand (h : s.Sound) {r : Request} (hexec : acceptCommand r s = .next t) : t.Sound := by
  unfold Machine.acceptCommand at hexec
  split at hexec
  · cases hexec
    exact h.answer (.bare _)
  · next i hdecode =>
    split_ifs at hexec with hrange
    exact h.exec_command (decodeCommand_isToken hdecode) hrange hexec

/-- A token step keeps a state sound (log 7). -/
theorem State.Sound.acceptToken (h : s.Sound) (hexec : acceptToken s = .next t) : t.Sound := by
  unfold Machine.acceptToken at hexec
  split at hexec
  · next i hfetch =>
    obtain ⟨-, hi, hwf⟩ := fetchToken_some hfetch
    rw [exec_token hi] at hexec
    exact h.runToken (fitsPulls_tokenField hwf hi) (execToken_next hexec)
  · exact h.runToken (fitsPulls_asPulled _ _) hexec

end

/-- Settles O51: every instruction that answers keeps soundness, by what its micro-steps keep. -/
theorem stepKeepsSound : Obligations.StepKeepsSound := by
  unfold Obligations.StepKeepsSound
  intro s t h hstep
  unfold step at hstep
  split at hstep
  · cases hstep
    exact h
  · exact (h.setInputs _).acceptCommand hstep
  · exact (h.setInputs _).acceptToken hstep

end Sys2Proof.Machine
end

section
/-! PROOFS. Two SINKs in a row (O14). -/

namespace Sys2Proof.Machine

/-- Writing two lists in a row is writing the one after the other. -/
theorem Memory.writeList_append {α : Type} [DecidableEq α] (d : α) (m : Memory α) (base : Nat) (a b : List α) :
    Memory.writeList d m base (a ++ b) = Memory.writeList d (Memory.writeList d m base a) (base + a.length) b := by
  induction a generalizing m base with
  | nil => rfl
  | cons v a ih =>
    rw [List.cons_append, Memory.writeList, Memory.writeList, ih, List.length_cons, Nat.add_right_comm, Nat.add_assoc]

/-- A list that fits is taken whole (R97, R130). -/
theorem sinkTaken_of_fits {room : Nat} {src : List Byte} (h : src.length ≤ room) : sinkTaken room src = src :=
  List.take_of_length_le h

/-- Of two lists, the first of which fits, the second is taken as far as there is room after the first (R97, R130). -/
theorem sinkTaken_append {room : Nat} {a : List Byte} (h : a.length ≤ room) (b : List Byte) :
    sinkTaken room (a ++ b) = a ++ sinkTaken (room - a.length) b := by
  rw [sinkTaken, List.take_append, List.take_of_length_le h, sinkTaken]

/-- ENC with the part of `src` that fits after its lookahead (R97). -/
def Enc.sunk (e : Enc) (src : List Byte) : Enc :=
  { e with
    buf := e.buf.writeList (e.N + e.inputSize) (sinkTaken (e.N - e.inputSize) src)
    inputSize := e.inputSize + (sinkTaken (e.N - e.inputSize) src).length }

/-- DEC with the part of `src` that fits after its input (R130). -/
def Dec.sunk (d : Dec) (src : List Byte) : Dec :=
  { d with
    inb := d.inb.writeList d.inputSize (sinkTaken (d.ibs - d.inputSize) src)
    inputSize := d.inputSize + (sinkTaken (d.ibs - d.inputSize) src).length }

/-- Where ENC.SINK is no misuse it sinks what fits, which is nothing when it responds FULL (R97). -/
theorem execEncSink_enc {src : List Byte} {s t : State} (husable : s.enc.usable = true)
    (hfin : s.enc.finishing = false) (h : execEncSink src s = .next t) : t.enc = s.enc.sunk src := by
  rcases execEncSink_next h with ⟨hnot, -⟩ | ⟨-, hfin', -⟩ | ⟨-, -, hfull, rfl⟩ | ⟨-, -, -, taken, rfl, rfl⟩
  · simp [husable] at hnot
  · simp [hfin] at hfin'
  · simp [Enc.sunk, Nat.sub_eq_zero_of_le hfull, sinkTaken, ByteMemory.writeList, Memory.writeList]
  · rfl

/-- Where DEC.SINK is no misuse it sinks what fits, which is nothing when it responds FULL (R130). -/
theorem execDecSink_dec {src : List Byte} {s t : State} (husable : s.dec.usable = true)
    (hdone : s.dec.doneReported = false) (h : execDecSink src s = .next t) : t.dec = s.dec.sunk src := by
  rcases execDecSink_next h with ⟨hnot, -⟩ | ⟨-, hdone', -⟩ | ⟨-, -, hfull, rfl⟩ | ⟨-, -, -, taken, rfl, rfl⟩
  · simp [husable] at hnot
  · simp [hdone] at hdone'
  · simp [Dec.sunk, Nat.sub_eq_zero_of_le hfull, sinkTaken, ByteMemory.writeList, Memory.writeList]
  · rfl

/-- Sinking two lists in a row into ENC is sinking both at once, when the first fits (R97). -/
theorem Enc.sunk_append {e : Enc} {a : List Byte} (h : e.inputSize + a.length ≤ e.N) (b : List Byte) :
    (e.sunk a).sunk b = e.sunk (a ++ b) := by
  have hfits : a.length ≤ e.N - e.inputSize := by omega
  have hfirst : e.sunk a = { e with
      buf := e.buf.writeList (e.N + e.inputSize) a, inputSize := e.inputSize + a.length } := by
    rw [Enc.sunk, sinkTaken_of_fits hfits]
  have hN : (e.sunk a).N = e.N := rfl
  rw [Enc.sunk, hN, hfirst, Enc.sunk, sinkTaken_append hfits]
  simp only [ByteMemory.writeList, Memory.writeList_append, List.length_append, Nat.sub_sub, Nat.add_assoc]

/-- Sinking two lists in a row into DEC is sinking both at once, when the first fits (R130). -/
theorem Dec.sunk_append {d : Dec} {a : List Byte} (h : d.inputSize + a.length ≤ d.ibs) (b : List Byte) :
    (d.sunk a).sunk b = d.sunk (a ++ b) := by
  have hfits : a.length ≤ d.ibs - d.inputSize := by omega
  have hfirst : d.sunk a = { d with
      inb := d.inb.writeList d.inputSize a, inputSize := d.inputSize + a.length } := by
    rw [Dec.sunk, sinkTaken_of_fits hfits]
  rw [hfirst, Dec.sunk, Dec.sunk, sinkTaken_append hfits]
  simp only [ByteMemory.writeList, Memory.writeList_append, List.length_append, Nat.sub_sub, Nat.add_assoc]

/-- Settles O14: a SINK that is no misuse leaves the unit with what fits sunk, and sinking composes. -/
theorem sinkInPartsIsSinkOfWhole : Obligations.SinkInPartsIsSinkOfWhole := by
  unfold Obligations.SinkInPartsIsSinkOfWhole
  refine fun a b s t u => ⟨fun husable hfin hfits ha hb => ?_, fun husable hdone hfits ha hb => ?_⟩
  · obtain ⟨v, hv⟩ := execEncSink_answers (a ++ b) s
    have ht := execEncSink_enc husable hfin ha
    have hu := execEncSink_enc (by rw [ht]; exact husable) (by rw [ht]; exact hfin) hb
    exact ⟨v, hv, by rw [execEncSink_enc husable hfin hv, hu, ht, Enc.sunk_append hfits]⟩
  · obtain ⟨v, hv⟩ := execDecSink_answers (a ++ b) s
    have ht := execDecSink_dec husable hdone ha
    have hu := execDecSink_dec (by rw [ht]; exact husable) (by rw [ht]; exact hdone) hb
    exact ⟨v, hv, by rw [execDecSink_dec husable hdone hv, hu, ht, Dec.sunk_append hfits]⟩

end Sys2Proof.Machine
end

section
/-! PROOFS. What ENC.POLL leaves unchanged, every byte of `BUF` included (O24). -/

namespace Sys2Proof.Machine

/-- A Yield state leaves `input_size`, when what follows its field does (R88). -/
theorem Enc.yieldField_inputSize (v w room : Nat) (e : Enc) {next : Enc → Enc}
    (hnext : ∀ e', (next e').inputSize = e'.inputSize) :
    (e.yieldField v w room next).unit.inputSize = e.inputSize := by
  have hpush : (e.pushField v w room).1.inputSize = e.inputSize :=
    (congrArg Enc.inputSize (Enc.pushField_frame v w room e) :)
  rcases Enc.yieldField_cases v w room e next with ⟨-, heq⟩ | ⟨-, heq⟩ <;> rw [heq]
  · exact (hnext _).trans hpush
  · exact hpush

/-- Every state of ENC but SaveBacklog leaves `input_size` (R100, R113). -/
theorem Enc.stateAction_inputSize {room : Nat} {e : Enc} {t : Turn Enc} (h : e.stateAction room = .ok t)
    (hbacklog : e.state ≠ .saveBacklog) : t.unit.inputSize = e.inputSize := by
  cases hst : e.state <;> simp only [Enc.stateAction, hst] at h
  case notFull =>
    unfold Enc.stepNotFull at h
    split_ifs at h <;> cases h <;> rfl
  case filled =>
    unfold Enc.stepFilled at h
    split_ifs at h <;> cases h <;> rfl
  case search =>
    unfold Enc.stepSearch at h
    dsimp only at h
    split_ifs at h
    · cases h
      rfl
    · split at h
      · cases h
      · split_ifs at h <;> cases h <;> rfl
  case yieldTagBit =>
    unfold Enc.stepYieldTagBit at h
    split_ifs at h <;> cases h <;> exact Enc.yieldField_inputSize _ _ _ _ fun _ => rfl
  case yieldLiteral =>
    unfold Enc.stepYieldLiteral at h
    split_ifs at h
    cases h
    exact Enc.yieldField_inputSize _ _ _ _ fun _ => rfl
  case yieldBackRefIndex =>
    unfold Enc.stepYieldBackRefIndex at h
    split_ifs at h
    cases h
    exact Enc.yieldField_inputSize _ _ _ _ fun _ => rfl
  case yieldBackRefLength =>
    unfold Enc.stepYieldBackRefLength at h
    split_ifs at h
    cases h
    exact Enc.yieldField_inputSize _ _ _ _ fun _ => rfl
  case saveBacklog => exact absurd hst hbacklog
  case flushBits =>
    unfold Enc.stepFlushBits at h
    obtain ⟨out, -, heq | heq | heq⟩ := Enc.flushPad_cases room e <;> rw [heq] at h <;> cases h <;> rfl
  case done =>
    cases h
    rfl

/-- A micro-step of ENC leaves `BUF` and `input_size`, or slides `BUF` and empties the lookahead (R113). -/
theorem Enc.microStep_buf {room : Nat} {e : Enc} {t : Turn Enc} (h : e.microStep room = .ok t) :
    (t.unit.buf = e.buf ∧ t.unit.inputSize = e.inputSize) ∨
    (t.unit.buf = Memory.slide e.N e.buf ∧ t.unit.inputSize = 0) := by
  have haction := (Enc.microStep_ok h).1
  by_cases hst : e.state = .saveBacklog
  · simp only [Enc.stateAction, hst] at haction
    cases haction
    exact .inr ⟨rfl, rfl⟩
  · exact .inl ⟨(Enc.microStep_does h).buf.resolve_right fun hslide => hst hslide.1,
      Enc.stateAction_inputSize haction hst⟩

/-- What ENC's FSM keeps of `e`: the configuration and flags, the high half of `BUF`, and the low half unless it becomes
the high one as the lookahead is emptied (R61, R113). -/
structure Enc.Keeps (e e' : Enc) : Prop where
  configuration : e'.configuration = e.configuration
  high : ∀ a, e.N ≤ a → e'.buf.read a = e.buf.read a
  low : (e'.inputSize = e.inputSize ∧ ∀ a < e.N, e'.buf.read a = e.buf.read a) ∨
    (e'.inputSize = 0 ∧ ∀ a < e.N, e'.buf.read a = e.buf.read (e.N + a))

/-- Nothing done keeps everything. -/
theorem Enc.Keeps.refl (e : Enc) : Enc.Keeps e e := ⟨rfl, fun _ _ => rfl, .inl ⟨rfl, fun _ _ => rfl⟩⟩

/-- Two runs in a row keep what each keeps; a second slide copies the same high half again. -/
theorem Enc.Keeps.trans {e e' e'' : Enc} (h : Enc.Keeps e e') (h' : Enc.Keeps e' e'') : Enc.Keeps e e'' := by
  obtain ⟨hcfg', hhigh', hlow'⟩ := h'
  have hN : e'.N = e.N := congrArg (2 ^ ·.2.1) h.configuration
  rw [hN] at hhigh' hlow'
  refine ⟨hcfg'.trans h.configuration, fun a ha => (hhigh' a ha).trans (h.high a ha), ?_⟩
  rcases hlow' with ⟨hsize', hlow'⟩ | ⟨hsize', hlow'⟩
  · rw [hsize']
    exact h.low.imp (fun hkept => ⟨hkept.1, fun a ha => (hlow' a ha).trans (hkept.2 a ha)⟩)
      (fun hslid => ⟨hslid.1, fun a ha => (hlow' a ha).trans (hslid.2 a ha)⟩)
  · exact .inr ⟨hsize', fun a ha => (hlow' a ha).trans (h.high _ (Nat.le_add_right _ _))⟩

/-- A micro-step of a sound and canonical ENC keeps the halves of `BUF` so (R61, R113). -/
theorem Enc.Keeps.of_microStep {room : Nat} {e : Enc} {t : Turn Enc} (h : e.Sound) (hmem : e.Canonical)
    (ht : e.microStep room = .ok t) : Enc.Keeps e t.unit := by
  have hcfg := (Enc.microStep_does ht).configuration
  rcases Enc.microStep_buf ht with ⟨hbuf, hsize⟩ | ⟨hbuf, hsize⟩
  · exact ⟨hcfg, fun a _ => by rw [hbuf], .inl ⟨hsize, fun a _ => by rw [hbuf]⟩⟩
  · have hread (a : Nat) : t.unit.buf.read a = if a < e.N then e.buf.read (e.N + a) else e.buf.read a := by
      rw [hbuf]
      exact Memory.read_slide 0 hmem.buf.1 h.bufInside a
    exact ⟨hcfg, fun a ha => by rw [hread, if_neg (Nat.not_lt.2 ha)],
      .inr ⟨hsize, fun a ha => by rw [hread, if_pos ha]⟩⟩

/-- ENC.POLL of a sound and canonical ENC keeps the halves of `BUF` so (R98). -/
theorem Enc.Keeps.of_poll {capacity : Nat} {e e' : Enc} {out : List Byte} {st : Status} (h : e.Sound)
    (hmem : e.Canonical) (hpoll : e.poll capacity = .ok (e', out, st)) : Enc.Keeps e e' :=
  (pollLoop_keeps (P := fun u : Enc => (u.Sound ∧ u.Canonical) ∧ Enc.Keeps e u)
    (fun _ _ _ hu ht => ⟨Enc.microStep_keeps hu.1 ht, hu.2.trans (.of_microStep hu.1.1 hu.1.2 ht)⟩)
    ⟨⟨h, hmem⟩, .refl e⟩ hpoll).2

/-- Settles O24: an unusable ENC only responds, and a POLL's micro-steps write `BUF` by the slide of SaveBacklog only. -/
theorem encPollFrame : Obligations.EncPollFrame := by
  unfold Obligations.EncPollFrame
  intro capacity s t hmem hsound hexec
  have hkeeps : t.dec = s.dec ∧ t.inputs = s.inputs ∧ Enc.Keeps s.enc t.enc := by
    rcases execEncPoll_next (hexec : execEncPoll capacity s = .next t) with ⟨-, rfl⟩ | ⟨-, e, out, st, hpoll, rfl⟩
    · exact ⟨rfl, rfl, .refl _⟩
    · exact ⟨rfl, rfl, .of_poll hsound hmem.toEnc hpoll⟩
  obtain ⟨hdec, hinputs, hcfg, hhigh, hlow⟩ := hkeeps
  simp only [Enc.configuration, Prod.mk.injEq] at hcfg
  obtain ⟨hvalid, hW, hL, hindexed, hfault, hfin, hdraws⟩ := hcfg
  exact ⟨hdec, hinputs, hvalid, hW, hL, hindexed, hfault, hfin, hdraws, hhigh, hlow⟩

end Sys2Proof.Machine
end

section
/-! SUPPORT. A run of DEC up to the end of its token, micro-step by micro-step (R133; log 7). -/

namespace Sys2Proof.Machine

/-- DEC runs its FSM to the end of its token, within some bound: the bytes emitted, the status, the unit after it
(log 7). -/
def Dec.TokenRun (field : DecState → Nat → Nat) (room : Nat) (d : Dec) (out : List Byte) (st : Status) (d' : Dec) :
    Prop :=
  ∃ left, pollLoop (Dec.tokenMicroStep field) (.microStepBound .dec) left room d = .ok (d', out, st)

section
variable {field : DecState → Nat → Nat} {room : Nat} {d d' : Dec} {out : List Byte} {st : Status}

/-- A run of a token begins with its state's action: it ends there with EMPTY where that ends the token, and goes on
from where it leaves DEC otherwise. -/
theorem Dec.TokenRun.first (h : d.TokenRun field room out st d') {t : Turn Dec}
    (ht : d.stateAction field room = .ok t) (hcontinues : t.outcome = .continues) :
    d.microStep field room = .ok t ∧
    ((t.unit.state = .tagBit ∧ st = .empty ∧ out = t.out ∧ d' = t.unit) ∨
     (t.unit.state ≠ .tagBit ∧ ∃ rest,
       t.unit.TokenRun field (room - t.out.length) rest st d' ∧ out = t.out ++ rest)) := by
  obtain ⟨left, hrun⟩ := h
  obtain ⟨left', t', -, ht', hcase⟩ := pollLoop_ok hrun
  unfold Dec.tokenMicroStep at ht'
  split at ht'
  · cases ht'
  · next t'' hmicro =>
    obtain rfl : t'' = t := Except.ok.inj ((Dec.microStep_ok hmicro).1.symm.trans ht)
    refine ⟨hmicro, ?_⟩
    split_ifs at ht' with hend <;> cases ht'
    · rcases hcase with ⟨hst, hunit, hout⟩ | ⟨hst, -⟩
      · cases hst
        exact .inl ⟨hend.2, rfl, hout, hunit⟩
      · cases hst
    · rcases hcase with ⟨hst, -⟩ | ⟨-, rest, hrest, hout⟩
      · rw [hcontinues] at hst
        cases hst
      · exact .inr ⟨fun htag => hend ⟨hcontinues, htag⟩, rest, ⟨left', hrest⟩, hout⟩

end

/-- A pull of no more bits than are unread consumes them and moves the input cursors only (R93). -/
theorem Dec.pull_reads {w : Nat} {d : Dec} (h : d.Sound) (hw : w ≤ d.unreadBits.length) :
    ∃ v d', d.pull w = .ok (some (v, d')) ∧ d'.unreadBits = d.unreadBits.drop w := by
  rw [Dec.unreadBits_length] at hw
  obtain ⟨d', hbits, hrest, -⟩ := Dec.pullBits_reads (v := 0) h hw
  exact ⟨_, d', by rw [Dec.pull, if_neg (Nat.not_lt.2 hw), hbits], hrest⟩

/-- Inside the run of a token from `d₀` that gives `out`, `st` and `d'`: DEC is at `d`, has read `n` bits and emitted
nothing. -/
structure Dec.HasRead (field : DecState → Nat → Nat) (room : Nat) (d₀ : Dec) (out : List Byte) (st : Status) (d' : Dec)
    (n : Nat) (d : Dec) : Prop where
  sound : d.Sound
  runs : Dec.Runs d₀ [] d
  unread : d.unreadBits = d₀.unreadBits.drop n
  rest : d.TokenRun field room out st d'

section
variable {field : DecState → Nat → Nat} {room : Nat} {d₀ d d' : Dec} {out : List Byte} {st : Status} {n : Nat}

/-- While DEC reads a token its parameters stay (R19). -/
theorem Dec.HasRead.parameters (h : Dec.HasRead field room d₀ out st d' n d) : d.W = d₀.W ∧ d.L = d₀.L := by
  obtain ⟨-, hW, hL, -⟩ := h.runs.flags
  exact ⟨hW, hL⟩

/-- A state that pulls `w` bits and stays inside the token takes the reading `w` bits further (R133). -/
theorem Dec.HasRead.advance (h : Dec.HasRead field room d₀ out st d' n d) (hf : FitsPulls d₀.W d₀.L field) {w : Nat}
    {next : Nat → Dec → Dec}
    (haction : d.stateAction field room = d.pulling w field fun r e => .ok (.go (next r e)))
    (hbits : n + w ≤ d₀.unreadBits.length)
    (hnext : ∀ r e, (next r e).state ≠ .tagBit ∧ (next r e).unreadBits = e.unreadBits) :
    ∃ v e, d.pull w = .ok (some (v, e)) ∧
      Dec.HasRead field room d₀ out st d' (n + w) (next (field d.state v) e) := by
  obtain ⟨hW, hL⟩ := h.parameters
  obtain ⟨v, e, hpull, hrest⟩ := Dec.pull_reads (w := w) h.sound (by rw [h.unread, List.length_drop]; omega)
  have ht : d.stateAction field room = .ok (.go (next (field d.state v) e)) := by
    rw [haction, Dec.pulling, hpull]
  obtain ⟨hmiddle, hunread⟩ := hnext (field d.state v) e
  obtain ⟨hmicro, ⟨hend, -⟩ | ⟨-, rest, hrun, rfl⟩⟩ := h.rest.first ht rfl
  · exact absurd hend hmiddle
  · obtain ⟨t, ht', hfollows⟩ := Dec.microStep_follows h.sound (hW.symm ▸ hL.symm ▸ hf) room
    cases hmicro.symm.trans ht'
    exact ⟨v, e, hpull, hfollows.sound, h.runs.trans (Dec.microStep_runs hmicro).1,
      (hunread.trans hrest).trans (by rw [h.unread, List.drop_drop]), hrun⟩

end

/-- DEC after the tag `r` (R134). -/
def Dec.afterTag (r : Nat) (d : Dec) : Dec :=
  if r = 1 then { d with state := .yieldLiteral }
  else { d with indexAcc := 0, state := if 8 < d.W then .backrefIndexMSB else .backrefIndexLSB }

/-- DEC after the high bits `r` of an index (R136). -/
def Dec.afterIndexHigh (r : Nat) (d : Dec) : Dec :=
  { d with indexAcc := BitVec.ofNat 16 r <<< 8, state := .backrefIndexLSB }

/-- DEC after the low byte `r` of an index (R137). -/
def Dec.afterIndexLow (r : Nat) (d : Dec) : Dec :=
  { d with
    indexAcc := d.indexAcc ||| BitVec.ofNat 16 r
    distance := (d.indexAcc ||| BitVec.ofNat 16 r).toNat + 1
    countAcc := 0
    state := if 8 < d.L then .backrefCountMSB else .backrefCountLSB }

/-- DEC after the high bits `r` of a count (R138). -/
def Dec.afterCountHigh (r : Nat) (d : Dec) : Dec :=
  { d with countAcc := BitVec.ofNat 16 r <<< 8, state := .backrefCountLSB }

/-- DEC after the low bits `r` of a count (R139). -/
def Dec.afterCountLow (r : Nat) (d : Dec) : Dec :=
  { d with
    countAcc := d.countAcc ||| BitVec.ofNat 16 r
    outputCount := (d.countAcc ||| BitVec.ofNat 16 r).toNat + 2
    outputIndex := 0
    state := .yieldBackref }

section
variable {field : DecState → Nat → Nat} {room : Nat} {d : Dec}

/-- TagBit pulls the tag (R134). -/
theorem Dec.stateAction_tagBit (hst : d.state = .tagBit) :
    d.stateAction field room = d.pulling 1 field fun r e => .ok (.go (e.afterTag r)) := by
  rw [Dec.stateAction, hst]
  exact congrArg (d.pulling 1 field) (funext₂ fun r e => by unfold Dec.afterTag; split_ifs <;> rfl)

/-- BackrefIndexMSB pulls the high bits of the index (R136). -/
theorem Dec.stateAction_backrefIndexMSB (hst : d.state = .backrefIndexMSB) :
    d.stateAction field room = d.pulling (d.W - 8) field fun r e => .ok (.go (e.afterIndexHigh r)) := by
  rw [Dec.stateAction, hst]
  rfl

/-- BackrefIndexLSB pulls the low byte of the index (R137). -/
theorem Dec.stateAction_backrefIndexLSB (hst : d.state = .backrefIndexLSB) :
    d.stateAction field room = d.pulling 8 field fun r e => .ok (.go (e.afterIndexLow r)) := by
  rw [Dec.stateAction, hst]
  rfl

/-- BackrefCountMSB pulls the high bits of the count (R138). -/
theorem Dec.stateAction_backrefCountMSB (hst : d.state = .backrefCountMSB) :
    d.stateAction field room = d.pulling (d.L - 8) field fun r e => .ok (.go (e.afterCountHigh r)) := by
  rw [Dec.stateAction, hst]
  rfl

/-- BackrefCountLSB pulls the low bits of the count (R139). -/
theorem Dec.stateAction_backrefCountLSB (hst : d.state = .backrefCountLSB) :
    d.stateAction field room = d.pulling (min d.L 8) field fun r e => .ok (.go (e.afterCountLow r)) := by
  rw [Dec.stateAction, hst]
  rfl

end

/-- A pull leaves the index, the distance and the count of a backref (R93). -/
theorem Dec.pull_registers {w v : Nat} {d d' : Dec} (h : d.pull w = .ok (some (v, d'))) :
    d'.indexAcc = d.indexAcc ∧ d'.distance = d.distance ∧ d'.countAcc = d.countAcc :=
  have hframe := Dec.pull_frame h
  ⟨(congrArg Dec.indexAcc hframe :), (congrArg Dec.distance hframe :), (congrArg Dec.countAcc hframe :)⟩

/-- A number of at most 16 bits is its bits above 7 and its low byte together (R136 to R139). -/
theorem Reg16.toNat_high_or_low {x : Nat} (hx : x < 65536) :
    (BitVec.ofNat 16 (x >>> 8) <<< 8 ||| BitVec.ofNat 16 (x % 256)).toNat = x := by
  have hhigh : (BitVec.ofNat 16 (x >>> 8) <<< 8).toNat = x / 256 * 256 := by
    rw [BitVec.toNat_shiftLeft, BitVec.toNat_ofNat, Nat.shiftLeft_eq, Nat.shiftRight_eq_div_pow]
    omega
  rw [Reg16.toNat_or_ofNat (by rw [hhigh]; omega) (Nat.mod_lt _ (by decide)), hhigh]
  omega

/-- A number of at most 8 bits has no bits above 7. -/
theorem shiftRight_byte_eq_zero {x n : Nat} (hx : x < 2 ^ n) (hn : n ≤ 8) : x >>> 8 = 0 := by
  rw [Nat.shiftRight_eq_div_pow]
  exact Nat.div_eq_of_lt (Nat.lt_of_lt_of_le hx (Nat.pow_le_pow_right (by decide) hn))

/-- The low `min(n, 8)` bits of a number of `n` bits are its low byte (R139). -/
theorem mod_two_pow_min_byte {x n : Nat} (hx : x < 2 ^ n) : x % 2 ^ min n 8 = x % 256 := by
  rcases Nat.le_total n 8 with hn | hn
  · have hlt : x < 256 := Nat.lt_of_lt_of_le hx (Nat.pow_le_pow_right (n := 2) (by decide) hn)
    rw [Nat.min_eq_left hn, Nat.mod_eq_of_lt hx, Nat.mod_eq_of_lt hlt]
  · rw [Nat.min_eq_right hn]
    rfl

/-- BREF is well formed where its index fits `W` bits and its count `L` bits (R67). -/
theorem bref_wellFormed_iff {W L index count : Nat} :
    (Instr.bref index count).wellFormed W L = true ↔ index < 2 ^ W ∧ count < 2 ^ L := by
  simp [Instr.wellFormed]

/-- DEC holds the index of a backref, and its distance (R68, R137). -/
structure Dec.IndexRead (index : Nat) (d : Dec) : Prop where
  indexAcc : d.indexAcc.toNat = index
  distance : d.distance = index + 1

/-- DEC has read a backref and has its `count + 2` bytes to copy (R69, R139). -/
structure Dec.CopyStarts (index count : Nat) (d : Dec) : Prop where
  indexRead : d.IndexRead index
  countAcc : d.countAcc.toNat = count
  state : d.state = .yieldBackref
  outputCount : d.outputCount = count + 2
  outputIndex : d.outputIndex = 0

/-- A pull of the count leaves the index, also when registers of the count are written after it (R93, R138, R139). -/
theorem Dec.IndexRead.of_pull {index w v : Nat} {d e d' : Dec} (h : d.IndexRead index)
    (hpull : d.pull w = .ok (some (v, e))) (hindex : d'.indexAcc = e.indexAcc)
    (hdistance : d'.distance = e.distance) : d'.IndexRead index := by
  obtain ⟨hindexAcc, hdist, -⟩ := Dec.pull_registers hpull
  exact ⟨by rw [hindex, hindexAcc, h.indexAcc], by rw [hdistance, hdist, h.distance]⟩

section
variable {index count room : Nat} {d₀ d d' : Dec} {out : List Byte} {st : Status}

/-- DEC at `d` inside a run of BREF from `d₀`, `n` of its bits read and nothing emitted. -/
abbrev Dec.HasReadBref (index count room : Nat) (d₀ : Dec) (out : List Byte) (st : Status) (d' : Dec) (n : Nat)
    (d : Dec) : Prop :=
  Dec.HasRead (tokenField (.bref index count) d₀.L) room d₀ out st d' n d

variable (hwf : (Instr.bref index count).wellFormed d₀.W d₀.L = true)
  (hbits : 1 + d₀.W + d₀.L ≤ d₀.unreadBits.length)
include hwf hbits

/-- TagBit starts the index (R134). -/
theorem Dec.HasRead.bref_tag (h : Dec.HasReadBref index count room d₀ out st d' 0 d) (hst : d.state = .tagBit) :
    ∃ e, Dec.HasReadBref index count room d₀ out st d' 1 e ∧ e.indexAcc = 0 ∧
      e.state = if 8 < d₀.W then .backrefIndexMSB else .backrefIndexLSB := by
  obtain ⟨hW, -⟩ := h.parameters
  obtain ⟨v, e, hpull, hread⟩ := h.advance (fitsPulls_tokenField hwf rfl)
    (Dec.stateAction_tagBit hst) (by omega)
    (fun r e => by unfold Dec.afterTag; split_ifs <;> exact ⟨nofun, rfl⟩)
  rw [hst] at hread
  have hW' : e.W = d₀.W := (congrArg Dec.W (Dec.pull_frame hpull) :).trans hW
  exact ⟨_, hread, rfl, by rw [← hW']; rfl⟩

/-- The bits of the index above 7, of which there are none at `W = 8` (R136). -/
theorem Dec.HasRead.bref_index_high (h : Dec.HasReadBref index count room d₀ out st d' 1 d) (hacc : d.indexAcc = 0)
    (hst : d.state = if 8 < d₀.W then .backrefIndexMSB else .backrefIndexLSB) :
    ∃ e, Dec.HasReadBref index count room d₀ out st d' (1 + (d₀.W - 8)) e ∧ e.state = .backrefIndexLSB ∧
      e.indexAcc = BitVec.ofNat 16 (index >>> 8) <<< 8 := by
  obtain ⟨hW, -⟩ := h.parameters
  by_cases h8 : 8 < d₀.W
  · rw [if_pos h8] at hst
    obtain ⟨v, e, -, hread⟩ := h.advance (fitsPulls_tokenField hwf rfl)
      (Dec.stateAction_backrefIndexMSB hst) (by omega) (fun r e => ⟨nofun, rfl⟩)
    rw [hst, hW] at hread
    exact ⟨_, hread, rfl, rfl⟩
  · rw [if_neg h8] at hst
    have hzero := shiftRight_byte_eq_zero (bref_wellFormed_iff.1 hwf).1 (Nat.le_of_not_lt h8)
    exact ⟨d, by rwa [show 1 + (d₀.W - 8) = 1 by omega], hst, by rw [hacc, hzero]; rfl⟩

/-- The low byte of the index completes it, and starts the count (R137). -/
theorem Dec.HasRead.bref_index_low (h : Dec.HasReadBref index count room d₀ out st d' (1 + (d₀.W - 8)) d)
    (hst : d.state = .backrefIndexLSB) (hacc : d.indexAcc = BitVec.ofNat 16 (index >>> 8) <<< 8) :
    ∃ e, Dec.HasReadBref index count room d₀ out st d' (1 + d₀.W) e ∧ e.IndexRead index ∧ e.countAcc = 0 ∧
      e.state = if 8 < d₀.L then .backrefCountMSB else .backrefCountLSB := by
  obtain ⟨-, hL⟩ := h.parameters
  obtain ⟨hW8, hW15, -⟩ := legalParameters_iff.1 h.sound.legal
  rw [h.parameters.1] at hW8 hW15
  obtain ⟨v, e, hpull, hread⟩ := h.advance (fitsPulls_tokenField hwf rfl)
    (Dec.stateAction_backrefIndexLSB hst) (by omega)
    (fun r e => ⟨by unfold Dec.afterIndexLow; dsimp only; split_ifs <;> nofun, rfl⟩)
  rw [hst] at hread
  obtain ⟨hindexAcc, -⟩ := Dec.pull_registers hpull
  have hL' : e.L = d₀.L := (congrArg Dec.L (Dec.pull_frame hpull) :).trans hL
  have hindex : (e.indexAcc ||| BitVec.ofNat 16 (index % 256)).toNat = index := by
    have hlt := (bref_wellFormed_iff.1 hwf).1
    have hle : 2 ^ d₀.W ≤ 2 ^ 15 := Nat.pow_le_pow_right (by decide) hW15
    rw [hindexAcc, hacc, Reg16.toNat_high_or_low (by omega)]
  rw [show 1 + (d₀.W - 8) + 8 = 1 + d₀.W by omega] at hread
  exact ⟨_, hread, ⟨hindex, congrArg (· + 1) hindex⟩, rfl, by rw [← hL']; rfl⟩

/-- The bits of the count above 7, of which there are none at `L ≤ 8` (R138). -/
theorem Dec.HasRead.bref_count_high (h : Dec.HasReadBref index count room d₀ out st d' (1 + d₀.W) d)
    (hindex : d.IndexRead index) (hacc : d.countAcc = 0)
    (hst : d.state = if 8 < d₀.L then .backrefCountMSB else .backrefCountLSB) :
    ∃ e, Dec.HasReadBref index count room d₀ out st d' (1 + d₀.W + (d₀.L - 8)) e ∧ e.IndexRead index ∧
      e.state = .backrefCountLSB ∧ e.countAcc = BitVec.ofNat 16 (count >>> 8) <<< 8 := by
  obtain ⟨-, hL⟩ := h.parameters
  by_cases h8 : 8 < d₀.L
  · rw [if_pos h8] at hst
    obtain ⟨v, e, hpull, hread⟩ := h.advance (fitsPulls_tokenField hwf rfl)
      (Dec.stateAction_backrefCountMSB hst) (by omega) (fun r e => ⟨nofun, rfl⟩)
    rw [hst, hL] at hread
    exact ⟨_, hread, hindex.of_pull hpull rfl rfl, rfl, rfl⟩
  · rw [if_neg h8] at hst
    have hzero := shiftRight_byte_eq_zero (bref_wellFormed_iff.1 hwf).2 (Nat.le_of_not_lt h8)
    exact ⟨d, by rwa [show 1 + d₀.W + (d₀.L - 8) = 1 + d₀.W by omega], hindex, hst, by rw [hacc, hzero]; rfl⟩

/-- The low bits of the count complete it, and start the copy (R139). -/
theorem Dec.HasRead.bref_count_low (h : Dec.HasReadBref index count room d₀ out st d' (1 + d₀.W + (d₀.L - 8)) d)
    (hindex : d.IndexRead index) (hst : d.state = .backrefCountLSB)
    (hacc : d.countAcc = BitVec.ofNat 16 (count >>> 8) <<< 8) :
    ∃ e, Dec.HasReadBref index count room d₀ out st d' (1 + d₀.W + d₀.L) e ∧ e.CopyStarts index count := by
  obtain ⟨-, hL⟩ := h.parameters
  obtain ⟨-, hW15, -, hLW⟩ := legalParameters_iff.1 h.sound.legal
  obtain ⟨v, e, hpull, hread⟩ := h.advance (fitsPulls_tokenField hwf rfl)
    (Dec.stateAction_backrefCountLSB hst) (by omega) (fun r e => ⟨nofun, rfl⟩)
  rw [hst, hL] at hread
  obtain ⟨-, -, hcountAcc⟩ := Dec.pull_registers hpull
  have hcount : (e.countAcc ||| BitVec.ofNat 16 (count % 2 ^ min d₀.L 8)).toNat = count := by
    have hlt := (bref_wellFormed_iff.1 hwf).2
    have hle : 2 ^ d₀.L ≤ 2 ^ 15 := Nat.pow_le_pow_right (by decide) (by omega)
    rw [mod_two_pow_min_byte hlt, hcountAcc, hacc, Reg16.toNat_high_or_low (by omega)]
  rw [show 1 + d₀.W + (d₀.L - 8) + min d₀.L 8 = 1 + d₀.W + d₀.L by omega] at hread
  exact ⟨_, hread, ⟨hindex.of_pull hpull rfl rfl, hcount, rfl, congrArg (· + 2) hcount, rfl⟩⟩

/-- Between tokens, BREF reads its index and its count and starts its copy (R134, R136 to R139). -/
theorem Dec.HasRead.bref (h : Dec.HasReadBref index count room d₀ out st d' 0 d) (hst : d.state = .tagBit) :
    ∃ e, Dec.HasReadBref index count room d₀ out st d' (1 + d₀.W + d₀.L) e ∧ e.CopyStarts index count := by
  obtain ⟨_, htag, hacc, hst⟩ := h.bref_tag hwf hbits hst
  obtain ⟨_, hhigh, hst, hacc⟩ := htag.bref_index_high hwf hbits hacc hst
  obtain ⟨_, hlow, hindex, hacc, hst⟩ := hhigh.bref_index_low hwf hbits hst hacc
  obtain ⟨_, hhigh, hindex, hst, hacc⟩ := hlow.bref_count_high hwf hbits hindex hacc hst
  exact hhigh.bref_count_low hwf hbits hindex hst hacc

end

end Sys2Proof.Machine
end

section
/-! PROOFS. BREF copies from the window (O45). -/

namespace Sys2Proof.Machine

section
variable {N D head : Nat} {win : ByteMemory}

/-- The byte that a copy at distance `D` emits after `out`: of the window where `D` reaches back before `out`, else of
`out` itself (R62, R63). -/
def copiedByte (N D head : Nat) (win : ByteMemory) (out : List Byte) : Byte :=
  if out.length < D then win.read ((head + out.length + N - D) % N) else out.getD (out.length - D) 0

/-- `out` is what a copy at distance `D` emits into the window, each byte read before the next is written (R62, R63). -/
def Copied (N D head : Nat) (win : ByteMemory) (out : List Byte) : Prop :=
  ∀ k < out.length,
    out[k]? = some (if k < D then win.read ((head + k + N - D) % N) else out.getD (k - D) 0)

/-- A copy goes on with the byte `D` back (R62, R63). -/
theorem Copied.snoc {out : List Byte} (h : Copied N D head win out) (hD : 1 ≤ D) :
    Copied N D head win (out ++ [copiedByte N D head win out]) := by
  intro k hk
  have hback : k - D < out.length ∨ k < D := by
    rw [List.length_append, List.length_singleton] at hk
    omega
  have hgetD (hlt : ¬ k < D) :
      (out ++ [copiedByte N D head win out]).getD (k - D) 0 = out.getD (k - D) 0 := by
    rw [List.getD_append _ _ _ _ (hback.resolve_right hlt)]
  rcases Nat.lt_or_ge k out.length with hold | hnew
  · rw [List.getElem?_append_left hold, h k hold]
    split_ifs with hlt
    · rfl
    · rw [hgetD hlt]
  · obtain rfl : k = out.length := by
      rw [List.length_append, List.length_singleton] at hk
      omega
    rw [List.getElem?_concat_length]
    by_cases hlt : out.length < D
    · rw [copiedByte, if_pos hlt, if_pos hlt]
    · rw [if_neg hlt, hgetD hlt, copiedByte, if_neg hlt]

/-- What `WIN` reads as `D` back from `head_index`, after `out` is emitted into it (R34, R62, R63). -/
theorem emitWindow_read_back (h : Memory.wf 0 win) (hhead : head < N) (hD : 1 ≤ D) (hDN : D ≤ N) (out : List Byte) :
    ByteMemory.read (emitWindow N head win out).2 ((head + out.length + N - D) % N) = copiedByte N D head win out := by
  unfold copiedByte
  split_ifs with hlt
  · refine emitWindow_read_other h hhead fun j hj => ?_
    have hne := ne_ring_add (k := out.length + N - D - j) (Nat.mod_lt (head + j) (by omega : 0 < N)) (by omega)
      (by omega)
    rw [Nat.mod_add_mod, show head + j + (out.length + N - D - j) = head + out.length + N - D by omega] at hne
    exact hne.symm
  · have hout := emitWindow_read_out h hhead (out := out) (k := out.length - D) (by omega) (by omega)
    rw [show head + out.length + N - D = head + (out.length - D) + N by omega, Nat.add_mod_right,
      List.getD_eq_getElem?_getD, hout, Option.getD_some]

end

/-- The source of a copy, as a natural number (R13, R62). -/
theorem Dec.copySource_eq {d : Dec} (h : d.distance ≤ d.N) : d.copySource = (d.headIndex + d.N - d.distance) % d.N := by
  have hsum : ((d.headIndex : Int) - d.distance) + d.N = ((d.headIndex + d.N - d.distance : Nat) : Int) := by omega
  rw [Dec.copySource, ← Int.add_emod_right, hsum, ← Int.natCast_emod, Int.toNat_natCast]

/-- A run advances `head_index` by the bytes it emits (R34). -/
theorem Dec.Runs.headIndex_eq {d d' : Dec} {out : List Byte} (h : Dec.Runs d out d') (hhead : d.headIndex < d.N) :
    d'.headIndex = (d.headIndex + out.length) % d.N :=
  (congrArg Prod.fst h.window).trans (emitWindow_head hhead _ _)

/-- A run writes `WIN` by its emissions only (R135, R140). -/
theorem Dec.Runs.win_eq {d d' : Dec} {out : List Byte} (h : Dec.Runs d out d') :
    d'.win = (emitWindow d.N d.headIndex d.win out).2 :=
  congrArg Prod.snd h.window

/-- The byte a copy reads in a window that a run has written (R62, R63, R140). -/
theorem Dec.Runs.read_copySource {d₀ d : Dec} {pre : List Byte} (h : Dec.Runs d₀ pre d) (hwf : Memory.wf 0 d₀.win)
    (hhead : d₀.headIndex < d₀.N) (hD : 1 ≤ d.distance) (hDN : d.distance ≤ d₀.N) :
    d.win.read d.copySource = copiedByte d₀.N d.distance d₀.headIndex d₀.win pre := by
  have hN : d.N = d₀.N := congrArg (2 ^ ·) h.flags.2.1
  rw [Dec.copySource_eq (hN ▸ hDN), h.headIndex_eq hhead, h.win_eq, hN, Nat.add_sub_assoc hDN, Nat.mod_add_mod,
    ← Nat.add_sub_assoc hDN, emitWindow_read_back hwf hhead hD hDN]

/-- DEC after one copy of YieldBackref (R140). -/
def Dec.afterCopy (d : Dec) : Dec :=
  { d with
    win := d.win.write d.headIndex (d.win.read d.copySource)
    headIndex := (d.headIndex + 1) % d.N
    outputCount := d.outputCount - 1
    outputIndex := d.outputIndex + 1
    state := if d.outputCount - 1 = 0 then .tagBit else .yieldBackref }

/-- With a slot and a byte to copy YieldBackref copies it (R140). -/
theorem Dec.stepYieldBackref_copies {room : Nat} {d : Dec} (hroom : room ≠ 0) (hleft : d.outputCount ≠ 0)
    (hhead : d.headIndex < d.N) :
    d.stepYieldBackref room =
      .ok { unit := d.afterCopy, out := [d.win.read d.copySource], outcome := .continues } := by
  simp only [Dec.stepYieldBackref, if_neg hroom, if_neg hleft, ByteMemory.readWin, accessAt_of_lt _ _ d.copySource_lt,
    Dec.emitByte_of_lt _ hhead]
  rfl

/-- What a copy keeps: the numbers its token gave, and the bits after the token. -/
def Dec.tokenRead (d : Dec) : Reg16 × Nat × Reg16 × List Bool := (d.indexAcc, d.distance, d.countAcc, d.unreadBits)

/-- DEC at `d'` after copying `n` more bytes than at `d`, which ends the token (R140). -/
structure Dec.CopyEnds (n : Nat) (d : Dec) (out : List Byte) (st : Status) (d' : Dec) : Prop where
  status : st = .empty
  length : out.length = n
  state : d'.state = .tagBit
  outputCount : d'.outputCount = 0
  outputIndex : d'.outputIndex = d.outputIndex + n
  tokenRead : d'.tokenRead = d.tokenRead

/-- DEC inside the copy at distance `D` that began at `d₀`: it has copied `pre`, and has `m + 1` bytes left (R140). -/
structure Dec.Copying (D : Nat) (d₀ : Dec) (pre : List Byte) (m : Nat) (d : Dec) : Prop where
  state : d.state = .yieldBackref
  distance : d.distance = D
  left : d.outputCount = m + 1
  runs : Dec.Runs d₀ pre d
  copied : Copied d₀.N D d₀.headIndex d₀.win pre

section
variable {field : DecState → Nat → Nat} {D m room : Nat} {d₀ d d' : Dec} {pre out : List Byte} {st : Status}
  (hwf : Memory.wf 0 d₀.win) (hhead : d₀.headIndex < d₀.N) (hD : 1 ≤ D) (hDN : D ≤ d₀.N)
include hwf hhead hD hDN

/-- A token's run that is copying, with a slot, copies one byte; with the last of them it ends (R62, R63, R140). -/
theorem Dec.Copying.first (hc : Dec.Copying D d₀ pre m d) (h : d.TokenRun field room out st d') (hroom : room ≠ 0) :
    ∃ c, Copied d₀.N D d₀.headIndex d₀.win (pre ++ [c]) ∧ Dec.Runs d₀ (pre ++ [c]) d.afterCopy ∧
      ((m = 0 ∧ st = .empty ∧ out = [c] ∧ d' = d.afterCopy) ∨
       (m ≠ 0 ∧ ∃ rest, d.afterCopy.TokenRun field (room - 1) rest st d' ∧ out = c :: rest)) := by
  obtain ⟨hst, rfl, hleft, hruns, hcopied⟩ := hc
  have hN : d.N = d₀.N := congrArg (2 ^ ·) hruns.flags.2.1
  have hhead' : d.headIndex < d.N := by
    rw [hN, hruns.headIndex_eq hhead]
    exact Nat.mod_lt _ d₀.N_pos
  have ht : d.stateAction field room = .ok ⟨d.afterCopy, [d.win.read d.copySource], .continues⟩ := by
    rw [Dec.stateAction, hst]
    exact Dec.stepYieldBackref_copies hroom (by omega) hhead'
  have hstate : d.afterCopy.state = if m = 0 then .tagBit else .yieldBackref := by
    rw [Dec.afterCopy, hleft, Nat.add_sub_cancel]
  obtain ⟨hmicro, hcase⟩ := h.first ht rfl
  refine ⟨d.win.read d.copySource, ?_, hruns.trans (Dec.microStep_runs hmicro).1, ?_⟩
  · rw [hruns.read_copySource hwf hhead hD hDN]
    exact hcopied.snoc hD
  · rw [hstate] at hcase
    by_cases hm : m = 0
    · simp only [if_pos hm] at hcase
      obtain ⟨-, hend⟩ | ⟨hne, -⟩ := hcase
      · exact .inl ⟨hm, hend⟩
      · exact absurd rfl hne
    · simp only [if_neg hm] at hcase
      obtain ⟨htag, -⟩ | ⟨-, hmore⟩ := hcase
      · cases htag
      · exact .inr ⟨hm, hmore⟩

/-- A token's run that is copying, with slots for what is left, copies it all and ends with EMPTY, by induction on the
bytes left (R140). -/
theorem Dec.Copying.run (hc : Dec.Copying D d₀ pre m d) (h : d.TokenRun field room out st d') (hroom : m + 1 ≤ room) :
    Dec.CopyEnds (m + 1) d out st d' ∧ Copied d₀.N D d₀.headIndex d₀.win (pre ++ out) := by
  induction m generalizing room d pre out with
  | zero =>
    obtain ⟨c, hcopied, -, ⟨-, rfl, rfl, rfl⟩ | ⟨hne, -⟩⟩ := hc.first hwf hhead hD hDN h (by omega)
    · have hlast : d.outputCount - 1 = 0 := by rw [hc.left]
      exact ⟨⟨rfl, rfl, if_pos hlast, hlast, rfl, rfl⟩, hcopied⟩
    · exact absurd rfl hne
  | succ m ih =>
    obtain ⟨c, hcopied, hruns, ⟨hzero, -⟩ | ⟨-, rest, hrest, rfl⟩⟩ := hc.first hwf hhead hD hDN h (by omega)
    · cases hzero
    · have hleft : d.outputCount - 1 = m + 1 := by rw [hc.left, Nat.add_sub_cancel]
      have hnext : Dec.Copying D d₀ (pre ++ [c]) m d.afterCopy :=
        ⟨if_neg (by omega), hc.distance, hleft, hruns, hcopied⟩
      obtain ⟨hends, hall⟩ := ih hnext hrest (by omega)
      refine ⟨⟨hends.status, congrArg (· + 1) hends.length, hends.state, hends.outputCount, ?_, hends.tokenRead⟩, ?_⟩
      · rw [hends.outputIndex, Dec.afterCopy, Nat.add_right_comm, Nat.add_assoc]
      · rwa [List.append_assoc] at hall

end

/-- A token of a sound, usable DEC between tokens runs, and responds with what its run gives (log 7). -/
theorem exec_token_runs {i : Instr} {s : State} (hi : i.isToken = true) (h : s.dec.betweenTokens)
    (hwf : i.wellFormed s.dec.W s.dec.L = true) :
    ∃ d out st, s.dec.TokenRun (tokenField i s.dec.L) Config.maxOperand out st d ∧ Dec.Runs s.dec out d ∧
      exec i s = .next ((s.setDec d).setResponse ⟨st, out.length, out⟩) := by
  obtain ⟨husable, hsound, htag⟩ := h
  obtain ⟨d, out, st, hrun, -⟩ := Dec.tokenRun_answers hsound (fitsPulls_tokenField hwf hi) Config.maxOperand
  refine ⟨d, out, st, ⟨_, hrun⟩, Dec.tokenRun_runs hrun, ?_⟩
  rw [exec_token hi, execToken, if_neg (fun hmid => hmid.2 htag), runToken, husable, hrun]
  rfl

/-- A run back to its own state changes only `WIN`, `head_index`, the input cursors and the registers of a backref. -/
theorem Dec.Runs.frame {d d' : Dec} {out : List Byte} (h : Dec.Runs d out d') (hst : d'.state = d.state) :
    { d' with
      win := d.win, headIndex := d.headIndex, inputIndex := d.inputIndex
      inputSize := d.inputSize, currentByte := d.currentByte, bitIndex := d.bitIndex
      indexAcc := d.indexAcc, distance := d.distance, countAcc := d.countAcc
      outputCount := d.outputCount, outputIndex := d.outputIndex } = d := by
  obtain ⟨hcfg, hinb, -⟩ := h
  cases d
  cases d'
  simp_all [Dec.configuration]

/-- A copy is no longer than the window, and fits the slots that the run of a token has (R5, R6, R9; log 7). -/
theorem copy_length_le {W L count : Nat} (hlegal : legalParameters W L = true) (hcount : count < 2 ^ L) :
    count + 2 ≤ 2 ^ W ∧ count + 2 ≤ Config.maxOperand := by
  obtain ⟨-, hW15, -, hLW⟩ := legalParameters_iff.1 hlegal
  have hdouble : 2 ^ L * 2 ≤ 2 ^ W := (Nat.pow_succ ..).symm.trans_le (Nat.pow_le_pow_right (by decide) hLW)
  have hN : 2 ^ W ≤ 2 ^ 15 := Nat.pow_le_pow_right (by decide) hW15
  have hpos := Nat.two_pow_pos L
  unfold Config.maxOperand
  omega

/-- Settles O45: DEC reads the fields of BREF from its bits, then copies byte by byte; the run writes `WIN` by its
emissions only, and no more than `N` of them. -/
theorem brefTokenCopiesFromTheWindow : Obligations.BrefTokenCopiesFromTheWindow := by
  unfold Obligations.BrefTokenCopiesFromTheWindow
  intro index count s hmem hbetween hindex hcount hbits
  have hwf : (Instr.bref index count).wellFormed s.dec.W s.dec.L = true := bref_wellFormed_iff.2 ⟨hindex, hcount⟩
  obtain ⟨d, out, st, hrun, hruns, hexec⟩ := exec_token_runs rfl hbetween hwf
  obtain ⟨-, hsound, htag⟩ := hbetween
  have hhead := hsound.headIndex_lt
  obtain ⟨hwindow, hroom⟩ := copy_length_le hsound.legal hcount
  have hstart : Dec.HasReadBref index count Config.maxOperand s.dec out st d 0 s.dec := ⟨hsound, .refl _, rfl, hrun⟩
  obtain ⟨e, hread, ⟨hindexRead, hcountAcc, hst, hleft, hzero⟩⟩ := hstart.bref hwf hbits htag
  have hcopying : Dec.Copying (index + 1) s.dec [] (count + 1) e := ⟨hst, hindexRead.distance, hleft, hread.runs, nofun⟩
  obtain ⟨⟨rfl, hlen, hst', hleft', hindex', htoken⟩, hcopied⟩ := hcopying.run hmem.win hhead (by omega)
    hindex hread.rest (hroom)
  simp only [Dec.tokenRead, Prod.mk.injEq] at htoken
  obtain ⟨hindexAcc, hdistance, hcountAcc', hunread⟩ := htoken
  refine ⟨d, out, by rw [hexec, hlen]; rfl, hlen, fun k hk => hcopied k (hlen ▸ hk), fun k hk => ?_, fun a ha => ?_,
    hunread.trans hread.unread, ?_, ?_, hdistance.trans hindexRead.distance, ?_, hleft', ?_,
    hruns.frame (hst'.trans htag.symm)⟩
  · rw [hruns.win_eq]
    exact emitWindow_read_out hmem.win hhead (hlen ▸ hk) (hlen ▸ hwindow.trans (Nat.le_add_left _ _))
  · rw [hruns.win_eq]
    exact emitWindow_read_other hmem.win hhead (hlen ▸ ha)
  · rw [hruns.headIndex_eq hhead, hlen]
    rfl
  · rw [hindexAcc, hindexRead.indexAcc]
  · rw [hcountAcc', hcountAcc]
  · rw [hindex', hzero, Nat.zero_add]

end Sys2Proof.Machine
end

section
/-! PROOFS. Encoding and decoding agree: command words (O1), token words (O2), the round trip (O4), the bits of a
decoded token (O5), and bit strings as tokens (O6). -/

namespace Sys2Proof

/-- Settles O1: each word selects its command. -/
theorem commandWordsDecode : Obligations.CommandWordsDecode := by
  unfold Obligations.CommandWordsDecode
  exact fun cfg src capacity => ⟨rfl, rfl, rfl, rfl, rfl, rfl, rfl, rfl⟩

/-- Settles O2: four closed words. -/
theorem tokenWordsDecode : Obligations.TokenWordsDecode := by
  unfold Obligations.TokenWordsDecode
  exact ⟨rfl, rfl, rfl, rfl⟩

/-- The bits of a number of `w` bits stand for it (R14). -/
theorem bitsValue_fieldBits_of_lt {w v : Nat} (h : v < 2 ^ w) : bitsValue (fieldBits w v) = v := by
  rw [bitsValue_fieldBits, Nat.mod_eq_of_lt h]

/-- The bits of a byte stand for the byte (R49). -/
theorem ofNat_bitsValue_byteBits (b : Byte) : BitVec.ofNat 8 (bitsValue (byteBits b)) = b := by
  rw [byteBits, bitsValue_fieldBits_of_lt b.isLt, BitVec.ofNat_toNat, BitVec.setWidth_eq]

/-- A field of the number that a bit string stands for is the bit string (R14). -/
theorem fieldBits_bitsValue {w : Nat} {bits : List Bool} (h : bits.length = w) :
    fieldBits w (bitsValue bits) = bits := by
  subst h
  induction bits with
  | nil => rfl
  | cons b bits ih =>
    have hlt := bitsValue_lt bits
    have hbit : (bitsValue (b :: bits)).testBit bits.length = b := by
      rw [bitsValue_cons, Nat.testBit_eq_decide_div_mod_eq, Nat.mul_comm, Nat.mul_add_div (Nat.two_pow_pos _),
        Nat.div_eq_of_lt hlt]
      cases b <;> rfl
    have hlow : bitsValue (b :: bits) % 2 ^ bits.length = bitsValue bits := by
      rw [bitsValue_cons, Nat.mul_add_mod_of_lt hlt]
    rw [List.length_cons, fieldBits, hbit, ← fieldBits_mod le_rfl, hlow, ih]

/-- A byte made of eight bits has those bits (R49). -/
theorem byteBits_ofNat_bitsValue {bits : List Bool} (h : bits.length = 8) :
    byteBits (BitVec.ofNat 8 (bitsValue bits)) = bits := by
  rw [byteBits, BitVec.toNat_ofNat, fieldBits_mod le_rfl, fieldBits_bitsValue h]

/-- A literal's bits decode to it, with the bits after them left (R66, R73). -/
theorem decodeToken_litBits (W L : Nat) (b : Byte) (rest : List Bool) :
    decodeToken W L (litBits b ++ rest) = .ok (.lit b, rest) := by
  have henough : ¬ (byteBits b ++ rest).length < 8 := by simp
  have htake : (byteBits b ++ rest).take 8 = byteBits b := List.take_left' (byteBits_length b)
  have hdrop : (byteBits b ++ rest).drop 8 = rest := List.drop_left' (byteBits_length b)
  rw [litBits, List.cons_append, decodeToken, if_neg henough, htake, hdrop, ofNat_bitsValue_byteBits]

/-- A backref's bits decode to it, with the bits after them left (R67, R73). -/
theorem decodeToken_brefBits {W L index count : Nat} (hindex : index < 2 ^ W) (hcount : count < 2 ^ L)
    (rest : List Bool) : decodeToken W L (brefBits W L index count ++ rest) = .ok (.bref index count, rest) := by
  have henough : ¬ (fieldBits W index ++ (fieldBits L count ++ rest)).length < W + L := by simp
  rw [brefBits, List.cons_append, List.append_assoc, decodeToken, if_neg henough, ← List.drop_drop,
    List.take_left' (fieldBits_length W index), List.drop_left' (fieldBits_length W index),
    List.take_left' (fieldBits_length L count), List.drop_left' (fieldBits_length L count),
    bitsValue_fieldBits_of_lt hindex, bitsValue_fieldBits_of_lt hcount]

/-- A well-formed token's bits decode to it, with the bits after them left (R66, R67, R73). -/
theorem decodeToken_tokenBits {W L : Nat} {i : Instr} (hi : i.isToken = true) (hwf : i.wellFormed W L = true)
    (rest : List Bool) : decodeToken W L (tokenBits W L i ++ rest) = .ok (i, rest) := by
  cases i with
  | lit b => exact decodeToken_litBits W L b rest
  | bref index count =>
    obtain ⟨hindex, hcount⟩ := Machine.bref_wellFormed_iff.1 hwf
    exact decodeToken_brefBits hindex hcount rest
  | _ => cases hi

/-- A token's encoding is its stream bits (R65). -/
theorem encode_token {i : Instr} (hi : i.isToken = true) (W L : Nat) : encode W L i = .token (tokenBits W L i) := by
  cases i with
  | lit b => rfl
  | bref index count => rfl
  | _ => cases hi

/-- A command's encoding decodes to it (R76). -/
theorem decode_encode_command {i : Instr} (hi : i.isToken = false) (W L : Nat) : decode W L (encode W L i) = .ok i := by
  cases i with
  | lit b => cases hi
  | bref index count => cases hi
  | _ => rfl

/-- Settles O4: a command's word selects it, and a token's fields stand for their numbers. -/
theorem decodeEncodeRoundTrip : Obligations.DecodeEncodeRoundTrip := by
  unfold Obligations.DecodeEncodeRoundTrip
  intro W L i hwf
  refine ⟨?_, fun hi => decodeToken_tokenBits hi hwf⟩
  cases hi : i.isToken with
  | false => exact decode_encode_command hi W L
  | true =>
    have hdecode := decodeToken_tokenBits hi hwf []
    rw [List.append_nil] at hdecode
    rw [encode_token hi, decode, hdecode]

/-- The bits a token is decoded from are its own, then those left (R66, R67, R73). -/
theorem decodeToken_bits {W L : Nat} {bits rest : List Bool} {i : Instr} (h : decodeToken W L bits = .ok (i, rest)) :
    bits = tokenBits W L i ++ rest := by
  unfold decodeToken at h
  split at h
  · cases h
  · next tail =>
    split at h
    · cases h
    · cases h
      rw [tokenBits, litBits, byteBits_ofNat_bitsValue (List.length_take_of_le (by omega)), List.cons_append,
        List.take_append_drop]
  · next tail =>
    split at h
    · cases h
    · cases h
      have hindex : (tail.take W).length = W := List.length_take_of_le (by omega)
      have hcount : ((tail.drop W).take L).length = L := List.length_take_of_le (by rw [List.length_drop]; omega)
      rw [tokenBits, brefBits, fieldBits_bitsValue hindex, fieldBits_bitsValue hcount, ← List.drop_drop,
        List.cons_append, List.append_assoc, List.take_append_drop, List.take_append_drop]

/-- Settles O5: the number a field is read as has the bits read. -/
theorem decodedTokenHasItsBits : Obligations.DecodedTokenHasItsBits := by
  unfold Obligations.DecodedTokenHasItsBits
  intro W L bits rest i h
  obtain ⟨hi, hwf⟩ := decodeToken_wellFormed h
  exact ⟨hi, hwf, decodeToken_bits h⟩

/-- The token decoder rejects incomplete tokens only (R74). -/
theorem decodeToken_error {W L : Nat} {bits : List Bool} {e : Reject} (h : decodeToken W L bits = .error e) :
    e = .incompleteToken := by
  unfold decodeToken at h
  split at h
  · cases h; rfl
  all_goals split at h <;> cases h; rfl

/-- A token has its tag, at least. -/
theorem tokenBits_length_pos {W L : Nat} {i : Instr} (hi : i.isToken = true) : 0 < (tokenBits W L i).length := by
  cases i with
  | lit b => exact Nat.succ_pos _
  | bref index count => exact Nat.succ_pos _
  | _ => cases hi

/-- Settles O6: by induction on the length, each whole token taken off the front. -/
theorem everyBitStringIsTokens : Obligations.EveryBitStringIsTokens := by
  unfold Obligations.EveryBitStringIsTokens
  intro W L bits
  induction hn : bits.length using Nat.strong_induction_on generalizing bits with
  | _ n ih =>
    cases hdecode : decodeToken W L bits with
    | error e =>
      obtain rfl := decodeToken_error hdecode
      exact ⟨[], bits, by simp, rfl, hdecode⟩
    | ok r =>
      obtain ⟨i, tail⟩ := r
      obtain ⟨hi, hwf⟩ := decodeToken_wellFormed hdecode
      obtain rfl := decodeToken_bits hdecode
      have hpos := tokenBits_length_pos (W := W) (L := L) hi
      rw [List.length_append] at hn
      obtain ⟨is, rest, htokens, rfl, hrest⟩ := ih tail.length (by omega) tail rfl
      exact ⟨i :: is, rest, List.forall_mem_cons.2 ⟨⟨hi, hwf⟩, htokens⟩, by simp, hrest⟩

end Sys2Proof
end

section
/-! PROOFS. A command step: illegal words (O3), and the others (O7). -/

namespace Sys2Proof.Machine

/-- A step with a request pending accepts the oldest (R11). -/
theorem step_command {s : State} {r : Request} {rest : List Input} (h : s.inputs = .command r :: rest) :
    step s = acceptCommand r (s.setInputs rest) := by
  rw [step, h]

/-- The words that `decodeCommand` selects on are the eight legal ones (R76, R77). -/
theorem decodeCommand_illegal {r : Request}
    (h : r.word ∉ ([0x00, 0x01, 0x02, 0x03, 0x80, 0x81, 0x82, 0x83] : List Byte)) :
    decodeCommand r = .error (.illegalCommand r.word) := by
  have hword (n : Nat) (hn : BitVec.ofNat 8 n ∈ ([0x00, 0x01, 0x02, 0x03, 0x80, 0x81, 0x82, 0x83] : List Byte)) :
      r.word.toNat ≠ n := by
    rintro rfl
    rw [BitVec.ofNat_toNat, BitVec.setWidth_eq] at hn
    exact h hn
  unfold decodeCommand
  split
  case h_9 => rfl
  all_goals exact absurd ‹_› (hword _ (by decide))

/-- A word is illegal where one of its reserved bits is set (R75, R77). -/
theorem illegalWord_iff (word : Byte) :
    word ∉ ([0x00, 0x01, 0x02, 0x03, 0x80, 0x81, 0x82, 0x83] : List Byte) ↔ word.extractLsb' 2 5 ≠ 0 := by
  have hbits : (word.extractLsb' 2 5).toNat = word.toNat / 4 % 32 := by
    rw [BitVec.extractLsb'_toNat, Nat.shiftRight_eq_div_pow]
  simp only [List.mem_cons, List.not_mem_nil, or_false]
  bv_omega

/-- Settles O3: the decoder has no other word, and the response is all the step changes. -/
theorem illegalWordChangesNothing : Obligations.IllegalWordChangesNothing := by
  unfold Obligations.IllegalWordChangesNothing
  refine ⟨illegalWord_iff, fun s r rest hinputs hillegal => ?_⟩
  rw [step_command hinputs, acceptCommand, decodeCommand_illegal hillegal]
  rfl

/-- Settles O7: `acceptCommand` checks the operand, then runs the command. -/
theorem stepRunsDecodedCommand : Obligations.StepRunsDecodedCommand := by
  unfold Obligations.StepRunsDecodedCommand
  refine ⟨fun s r rest i hinputs hdecode => ?_, fun s hidle => by rw [step, hidle]⟩
  rw [step_command hinputs, acceptCommand, hdecode]
  exact ⟨fun hrange => if_pos hrange, fun hrange => if_neg (by simp [hrange])⟩

end Sys2Proof.Machine
end

section
/-! PROOFS. The status each command responds with (O20). -/

namespace Sys2Proof.Machine

/-- A token responds EMPTY, MORE or MISUSE (logs 7, 8). -/
theorem execToken_status {i : Instr} {s t : State} (h : execToken i s = .next t) :
    ∃ r, t.response = some r ∧ (r.status = .empty ∨ r.status = .more ∨ r.status = .misuse) := by
  rcases runToken_next (execToken_next h) with ⟨-, rfl⟩ | ⟨-, d, out, st, hrun, rfl⟩
  · exact ⟨_, rfl, .inr (.inr rfl)⟩
  · exact ⟨_, rfl, (pollLoop_status hrun).imp_right .inl⟩

/-- Settles O20: by what each command can do. -/
theorem statusesPerCommand : Obligations.StatusesPerCommand := by
  unfold Obligations.StatusesPerCommand
  intro i s t hexec
  cases i with
  | encNew cfg =>
    rcases execEncNew_next hexec with ⟨-, rfl⟩ | ⟨-, rfl⟩
    · exact ⟨_, rfl, .inl rfl⟩
    · exact ⟨_, rfl, .inr rfl⟩
  | encSink src =>
    rcases execEncSink_next hexec with ⟨-, rfl⟩ | ⟨-, -, rfl⟩ | ⟨-, -, -, rfl⟩ | ⟨-, -, -, _, -, rfl⟩
    · exact ⟨_, rfl, .inr (.inr rfl)⟩
    · exact ⟨_, rfl, .inr (.inr rfl)⟩
    · exact ⟨_, rfl, .inr (.inl rfl)⟩
    · exact ⟨_, rfl, .inl rfl⟩
  | encPoll capacity =>
    rcases execEncPoll_next hexec with ⟨-, rfl⟩ | ⟨-, e, out, st, hpoll, rfl⟩
    · exact ⟨_, rfl, .inr (.inr rfl)⟩
    · exact ⟨_, rfl, (pollLoop_status hpoll).imp_right .inl⟩
  | encFinish =>
    rcases execEncFinish_next hexec with ⟨-, rfl⟩ | ⟨-, rfl⟩
    · exact ⟨_, rfl, .inr (.inr rfl)⟩
    · refine ⟨_, rfl, ?_⟩
      dsimp only
      split_ifs
      · exact .inr (.inl rfl)
      · exact .inl rfl
  | decNew cfg =>
    rcases execDecNew_next hexec with ⟨-, rfl⟩ | ⟨-, rfl⟩
    · exact ⟨_, rfl, .inl rfl⟩
    · exact ⟨_, rfl, .inr rfl⟩
  | decSink src =>
    rcases execDecSink_next hexec with ⟨-, rfl⟩ | ⟨-, -, rfl⟩ | ⟨-, -, -, rfl⟩ | ⟨-, -, -, _, -, rfl⟩
    · exact ⟨_, rfl, .inr (.inr rfl)⟩
    · exact ⟨_, rfl, .inr (.inr rfl)⟩
    · exact ⟨_, rfl, .inr (.inl rfl)⟩
    · exact ⟨_, rfl, .inl rfl⟩
  | decPoll capacity =>
    rcases execDecPoll_next hexec with ⟨-, rfl⟩ | ⟨-, d, out, st, hpoll, rfl⟩
    · exact ⟨_, rfl, .inr (.inr rfl)⟩
    · exact ⟨_, rfl, (pollLoop_status hpoll).imp_right .inl⟩
  | decFinish =>
    rcases execDecFinish_next hexec with ⟨-, rfl⟩ | ⟨-, rfl⟩ | ⟨-, -, -, rfl⟩
    · exact ⟨_, rfl, .inr (.inr rfl)⟩
    · exact ⟨_, rfl, .inl rfl⟩
    · exact ⟨_, rfl, .inr (.inl rfl)⟩
  | lit b => exact execToken_status hexec
  | bref index count => exact execToken_status hexec

end Sys2Proof.Machine
end

section
/-! PROOFS. LIT emits its byte (O44). -/

namespace Sys2Proof.Machine

/-- The registers that only a backref writes (R35, R36). -/
def Dec.backrefRegisters (d : Dec) : Reg16 × Nat × Reg16 × Nat × Nat :=
  (d.indexAcc, d.distance, d.countAcc, d.outputCount, d.outputIndex)

/-- A pull leaves the registers of a backref (R93). -/
theorem Dec.pull_backrefRegisters {w v : Nat} {d d' : Dec} (h : d.pull w = .ok (some (v, d'))) :
    d'.backrefRegisters = d.backrefRegisters :=
  (congrArg Dec.backrefRegisters (Dec.pull_frame h) :)

/-- DEC after the literal byte `b` (R135). -/
def Dec.afterLiteral (b : Byte) (d : Dec) : Dec :=
  { d with win := d.win.write d.headIndex b, headIndex := (d.headIndex + 1) % d.N, state := .tagBit }

/-- With a slot YieldLiteral pulls the byte and emits it (R135). -/
theorem Dec.stateAction_yieldLiteral {field : DecState → Nat → Nat} {room v : Nat} {d e : Dec}
    (hst : d.state = .yieldLiteral) (hroom : room ≠ 0) (hpull : d.pull 8 = .ok (some (v, e)))
    (hhead : e.headIndex < e.N) :
    d.stateAction field room =
      .ok ⟨e.afterLiteral (BitVec.ofNat 8 (field .yieldLiteral v)), [BitVec.ofNat 8 (field .yieldLiteral v)],
        .continues⟩ := by
  rw [Dec.stateAction, hst]
  simp only [Dec.stepYieldLiteral, if_neg hroom, Dec.pulling, hpull, Dec.emitByte_of_lt _ hhead, hst]
  rfl

/-- The head stays inside the window over a run (R34). -/
theorem Dec.Runs.headIndex_lt {d d' : Dec} {out : List Byte} (h : Dec.Runs d out d') (hhead : d.headIndex < d.N) :
    d'.headIndex < d'.N := by
  have hN : d'.N = d.N := congrArg (2 ^ ·) h.flags.2.1
  rw [h.headIndex_eq hhead, hN]
  exact Nat.mod_lt _ d.N_pos

section
variable {b : Byte} {room : Nat} {d₀ d d' : Dec} {out : List Byte} {st : Status}

/-- Between tokens, a run of LIT reads its 9 bits, emits its byte and ends (R134, R135). -/
theorem Dec.HasRead.lit (h : Dec.HasRead (tokenField (.lit b) d₀.L) room d₀ out st d' 0 d) (hst : d.state = .tagBit)
    (hhead : d₀.headIndex < d₀.N) (hroom : room ≠ 0) (hbits : 9 ≤ d₀.unreadBits.length) :
    st = .empty ∧ out = [b] ∧ d'.state = .tagBit ∧ d'.unreadBits = d₀.unreadBits.drop 9 ∧
      d'.backrefRegisters = d.backrefRegisters := by
  obtain ⟨v, e, hpull, hread⟩ := h.advance (fitsPulls_tokenField (i := .lit b) rfl rfl) (Dec.stateAction_tagBit hst)
    (by omega) (fun r e => by unfold Dec.afterTag; split_ifs <;> exact ⟨nofun, rfl⟩)
  rw [hst] at hread
  obtain ⟨v', e', hpull', hrest⟩ := Dec.pull_reads (w := 8) hread.sound (by rw [hread.unread, List.length_drop]; omega)
  have hhead' := (hread.runs.trans (.of_pull hpull')).headIndex_lt hhead
  have haction := Dec.stateAction_yieldLiteral (field := tokenField (.lit b) d₀.L) rfl hroom hpull' hhead'
  have hbyte : BitVec.ofNat 8 (tokenField (.lit b) d₀.L .yieldLiteral v') = b := by
    rw [tokenField, BitVec.ofNat_toNat, BitVec.setWidth_eq]
  rw [hbyte] at haction
  obtain ⟨-, ⟨-, hempty, hout, rfl⟩ | ⟨hmiddle, -⟩⟩ := hread.rest.first haction rfl
  · exact ⟨hempty, hout, rfl, hrest.trans (by rw [hread.unread, List.drop_drop]),
      (Dec.pull_backrefRegisters hpull').trans (Dec.pull_backrefRegisters hpull :)⟩
  · exact absurd rfl hmiddle

end

/-- Settles O44: DEC reads the tag and the byte, which it emits; the run writes `WIN` by that emission only. -/
theorem litTokenEmitsItsByte : Obligations.LitTokenEmitsItsByte := by
  unfold Obligations.LitTokenEmitsItsByte
  intro b s hmem hbetween hbits
  obtain ⟨d, out, st, hrun, hruns, hexec⟩ := exec_token_runs (i := .lit b) rfl hbetween rfl
  obtain ⟨-, hsound, htag⟩ := hbetween
  have hhead := hsound.headIndex_lt
  have hstart : Dec.HasRead (tokenField (.lit b) s.dec.L) Config.maxOperand s.dec out st d 0 s.dec :=
    ⟨hsound, .refl _, rfl, hrun⟩
  obtain ⟨rfl, rfl, hst, hunread, hregisters⟩ := hstart.lit htag hhead (by decide) hbits
  simp only [Dec.backrefRegisters, Prod.mk.injEq] at hregisters
  obtain ⟨hindexAcc, hdistance, hcountAcc, houtputCount, houtputIndex⟩ := hregisters
  have hwin : d.win = s.dec.win.write s.dec.headIndex b := hruns.win_eq
  have hframe := hruns.frame (hst.trans htag.symm)
  rw [← hindexAcc, ← hdistance, ← hcountAcc, ← houtputCount, ← houtputIndex] at hframe
  refine ⟨d, hexec, hunread, hruns.headIndex_eq hhead, ?_, fun a ha => ?_, hframe⟩
  · rw [hwin]
    exact Memory.read_write_same 0 hmem.win.1 _ _
  · rw [hwin]
    exact Memory.read_write_ne 0 hmem.win.1 ha _

end Sys2Proof.Machine
end

section
/-! SUPPORT. Runs of the POLL loop under other bounds and other micro-steps, and a POLL of DEC as a run under some
bound (R131, R149). -/

namespace Sys2Proof.Machine

/-- A micro-step with which a POLL goes on continues (R98, R131). -/
theorem Micro.pollStatus_none {r : Micro} (h : r.pollStatus = none) : r = .continues := by
  cases r <;> cases h
  rfl

section
variable {σ : Type} {micro micro' : Nat → σ → Except Fault (Turn σ)} {bound : Fault}

/-- A POLL that answers within a bound gives the same answer within any larger one (R116, R149). -/
theorem pollLoop_of_le {left left' room : Nat} {u u' : σ} {out : List Byte} {st : Status} (hle : left ≤ left')
    (h : pollLoop micro bound left room u = .ok (u', out, st)) :
    pollLoop micro bound left' room u = .ok (u', out, st) := by
  induction left generalizing left' room u out with
  | zero => cases h
  | succ left ih =>
    obtain ⟨n, rfl⟩ := Nat.exists_eq_add_of_le' (Nat.zero_lt_of_lt hle)
    obtain ⟨left₁, t, hleft, ht, hcase⟩ := pollLoop_ok h
    obtain rfl : left = left₁ := Nat.succ.inj hleft
    rcases hcase with ⟨hst, rfl, rfl⟩ | ⟨hst, rest, hrest, rfl⟩
    · simp only [pollLoop, ht, hst]
    · simp only [pollLoop, ht, hst, ih (Nat.le_of_succ_le_succ hle) hrest]

/-- Two micro-steps that agree on the units with a property, which the first keeps where the loop goes on, make the same
POLL. -/
theorem pollLoop_congr {P : σ → Prop} (hsame : ∀ room u, P u → micro room u = micro' room u)
    (hkeeps : ∀ room u t, P u → micro room u = .ok t → t.outcome = .continues → P t.unit) (left room : Nat) {u : σ}
    (hu : P u) : pollLoop micro bound left room u = pollLoop micro' bound left room u := by
  induction left generalizing room u with
  | zero => rfl
  | succ left ih =>
    rw [pollLoop, pollLoop, ← hsame room u hu]
    cases ht : micro room u with
    | error f => rfl
    | ok t =>
      cases ho : t.outcome
      case continues => simp only [ho, Micro.pollStatus, ih _ (hkeeps room u t hu ht ho)]
      all_goals simp only [ho, Micro.pollStatus]

end

/-- DEC.POLL from `d`, within some bound: the bytes emitted, the status, the unit after it (R131). -/
def Dec.PollRun (room : Nat) (d : Dec) (out : List Byte) (st : Status) (d' : Dec) : Prop :=
  ∃ left, pollLoop (Dec.microStep asPulled) (.microStepBound .dec) left room d = .ok (d', out, st)

section
variable {room : Nat} {d d' : Dec} {out : List Byte} {st : Status}

/-- A POLL of a sound decoder within some bound is its POLL within the bound of R149. -/
theorem Dec.PollRun.poll (h : d.PollRun room out st d') (hs : d.Sound) : d.poll room = .ok (d', out, st) := by
  obtain ⟨left, hrun⟩ := h
  obtain ⟨d₁, out₁, st₁, hpoll, -⟩ := Dec.poll_answers hs room
  have hmax := pollLoop_of_le (Nat.le_max_left left (d.pollBound room)) hrun
  have hmax' := pollLoop_of_le (Nat.le_max_right left (d.pollBound room)) hpoll
  cases hmax.symm.trans hmax'
  exact hpoll

/-- A POLL begins with a micro-step that continues, and goes on from it (R131). -/
theorem Dec.PollRun.step {t : Turn Dec} (ht : d.microStep asPulled room = .ok t) (hcontinues : t.outcome = .continues)
    (h : t.unit.PollRun (room - t.out.length) out st d') : d.PollRun room (t.out ++ out) st d' := by
  obtain ⟨left, hrest⟩ := h
  exact ⟨left + 1, by simp only [pollLoop, ht, hcontinues, Micro.pollStatus, hrest]⟩

/-- A POLL ends with a micro-step that does not continue (R131). -/
theorem Dec.PollRun.last {t : Turn Dec} (ht : d.microStep asPulled room = .ok t)
    (hst : t.outcome.pollStatus = some st) : d.PollRun room t.out st t.unit :=
  ⟨1, by simp only [pollLoop, ht, hst]⟩

end

end Sys2Proof.Machine
end

section
/-! SUPPORT. A micro-step of DEC that ends the run changes nothing, and one that continues needs only the slots for its
bytes (R133). -/

namespace Sys2Proof.Machine

section
variable {field : DecState → Nat → Nat} {room : Nat} {d : Dec} {t : Turn Dec}

/-- YieldLiteral changes nothing, or has a slot and emits a byte (R135). -/
theorem Dec.stepYieldLiteral_ok (h : d.stepYieldLiteral field room = .ok t) :
    (∃ r, r ≠ .continues ∧ t = .stop d r) ∨ room ≠ 0 ∧ t.outcome = .continues ∧ t.out.length = 1 := by
  unfold Dec.stepYieldLiteral at h
  split at h
  · cases h
    exact .inl ⟨_, by decide, rfl⟩
  · next hroom =>
    rcases Dec.pulling_ok h with ⟨-, rfl⟩ | ⟨v, e, -, ht⟩
    · exact .inl ⟨_, by decide, rfl⟩
    · split at ht <;> cases ht
      exact .inr ⟨hroom, rfl, rfl⟩

/-- YieldBackref stalls, or has a slot and emits a byte (R140). -/
theorem Dec.stepYieldBackref_ok (h : d.stepYieldBackref room = .ok t) :
    t = .stop d .stall ∨ room ≠ 0 ∧ t.outcome = .continues ∧ t.out.length = 1 ∧
      (t.unit.state = .tagBit ∨ t.unit.state = .yieldBackref) := by
  unfold Dec.stepYieldBackref at h
  split at h
  · cases h
    exact .inl rfl
  · next hroom =>
    refine .inr ⟨hroom, ?_⟩
    split at h
    · cases h
    · split at h
      · cases h
      · split at h <;> cases h
        exact ⟨rfl, rfl, ite_eq_or_eq _ _ _⟩

/-- A state that only pulls changes nothing where it does not continue (R133). -/
theorem Dec.pulling_go_ends {w : Nat} {next : Nat → Dec → Dec}
    (h : d.pulling w field (fun r e => .ok (.go (next r e))) = .ok t) (hend : t.outcome ≠ .continues) :
    ∃ r, t = .stop d r := by
  rcases Dec.pulling_ok h with ⟨-, rfl⟩ | ⟨v, e, -, ht⟩
  · exact ⟨_, rfl⟩
  · cases ht
    exact absurd rfl hend

/-- A micro-step of DEC that does not continue changes nothing and emits nothing (R133). -/
theorem Dec.microStep_ends (h : d.microStep field room = .ok t) (hend : t.outcome ≠ .continues) :
    ∃ r, t = .stop d r := by
  have haction := (Dec.microStep_ok h).1
  cases hst : d.state
  case tagBit => exact Dec.pulling_go_ends ((Dec.stateAction_tagBit hst).symm.trans haction) hend
  case yieldLiteral =>
    rw [Dec.stateAction, hst] at haction
    rcases Dec.stepYieldLiteral_ok haction with ⟨r, -, hstop⟩ | ⟨-, hcontinues, -⟩
    · exact ⟨r, hstop⟩
    · exact absurd hcontinues hend
  case backrefIndexMSB => exact Dec.pulling_go_ends ((Dec.stateAction_backrefIndexMSB hst).symm.trans haction) hend
  case backrefIndexLSB => exact Dec.pulling_go_ends ((Dec.stateAction_backrefIndexLSB hst).symm.trans haction) hend
  case backrefCountMSB => exact Dec.pulling_go_ends ((Dec.stateAction_backrefCountMSB hst).symm.trans haction) hend
  case backrefCountLSB => exact Dec.pulling_go_ends ((Dec.stateAction_backrefCountLSB hst).symm.trans haction) hend
  case yieldBackref =>
    rw [Dec.stateAction, hst] at haction
    rcases Dec.stepYieldBackref_ok haction with rfl | ⟨-, hcontinues, -⟩
    · exact ⟨_, rfl⟩
    · exact absurd hcontinues hend

/-- A micro-step of DEC that continues does the same with any number of slots that its bytes fit (R133, R135, R140). -/
theorem Dec.microStep_room {room' : Nat} (h : d.microStep field room = .ok t) (hcontinues : t.outcome = .continues)
    (hroom : t.out.length ≤ room') : d.microStep field room' = .ok t := by
  have haction := (Dec.microStep_ok h).1
  suffices hsame : d.stateAction field room' = d.stateAction field room by
    rw [Dec.microStep, hsame]
    exact h
  cases hst : d.state
  case yieldLiteral =>
    simp only [Dec.stateAction, hst] at haction ⊢
    rcases Dec.stepYieldLiteral_ok haction with ⟨r, hr, rfl⟩ | ⟨hslot, -, hlen⟩
    · exact absurd hcontinues hr
    · rw [Dec.stepYieldLiteral, Dec.stepYieldLiteral, if_neg hslot, if_neg (by omega)]
  case yieldBackref =>
    simp only [Dec.stateAction, hst] at haction ⊢
    rcases Dec.stepYieldBackref_ok haction with rfl | ⟨hslot, -, hlen, -⟩
    · cases hcontinues
    · rw [Dec.stepYieldBackref, Dec.stepYieldBackref, if_neg hslot, if_neg (by omega)]
  all_goals simp only [Dec.stateAction, hst]

end

end Sys2Proof.Machine
end

section
/-! SUPPORT. A token at DEC's cursor: the numbers its states pull are the token's own fields, so that its run is also a
part of a POLL (R66, R67, R141; log 7). -/

namespace Sys2Proof

/-- A field is its bits above 7, then its low `min(n, 8)` bits (R14, R141). -/
theorem fieldBits_high_low (n v : Nat) :
    fieldBits n v = fieldBits (n - 8) (v >>> 8) ++ fieldBits (min n 8) (v % 2 ^ min n 8) := by
  rw [fieldBits_mod le_rfl]
  rcases Nat.le_total n 8 with hn | hn
  · rw [Nat.sub_eq_zero_of_le hn, Nat.min_eq_left hn]
    rfl
  · rw [Nat.min_eq_right hn, ← fieldBits_add, Nat.sub_add_cancel hn]

namespace Machine

/-- The bits of the token `i` that state `st` and the states after it pull; none where `i` does not come to `st` (R134
to R141). -/
def bitsLeft (W L : Nat) (i : Instr) (st : DecState) : Option (List Bool) :=
  match i, st with
  | .lit b, .tagBit => some (litBits b)
  | .lit b, .yieldLiteral => some (byteBits b)
  | .bref index count, .tagBit => some (brefBits W L index count)
  | .bref index count, .backrefIndexMSB => some (fieldBits W index ++ fieldBits L count)
  | .bref index count, .backrefIndexLSB => some (fieldBits 8 (index % 256) ++ fieldBits L count)
  | .bref _ count, .backrefCountMSB => some (fieldBits L count)
  | .bref _ count, .backrefCountLSB => some (fieldBits (min L 8) (count % 2 ^ min L 8))
  | .bref _ _, .yieldBackref => some []
  | _, _ => none

/-- At the start of a token all its bits are left (R65). -/
theorem bitsLeft_tagBit {i : Instr} (hi : i.isToken = true) (W L : Nat) :
    bitsLeft W L i .tagBit = some (tokenBits W L i) := by
  cases i with
  | lit b => rfl
  | bref index count => rfl
  | _ => cases hi

/-- After the tag of BREF its index and count are left, also where the index has no bits above 7 (R134). -/
theorem bitsLeft_index {W : Nat} (hW : 8 ≤ W) (L index count : Nat) :
    bitsLeft W L (.bref index count) (if 8 < W then .backrefIndexMSB else .backrefIndexLSB) =
      some (fieldBits W index ++ fieldBits L count) := by
  split_ifs with h8
  · rfl
  · obtain rfl : W = 8 := by omega
    rw [← fieldBits_mod le_rfl index]
    rfl

/-- After the index of BREF its count is left, also where it has no bits above 7 (R137). -/
theorem bitsLeft_count (W L index count : Nat) :
    bitsLeft W L (.bref index count) (if 8 < L then .backrefCountMSB else .backrefCountLSB) =
      some (fieldBits L count) := by
  split_ifs with h8
  · rfl
  · rw [bitsLeft, Nat.min_eq_left (Nat.le_of_not_lt h8), fieldBits_mod le_rfl]

/-- What is left to pull of the token `i` comes next among the unread bits. -/
def Dec.Ahead (i : Instr) (d : Dec) : Prop :=
  ∃ bits rest, bitsLeft d.W d.L i d.state = some bits ∧ d.unreadBits = bits ++ rest

/-- DEC, under the parameters `W` and `L`, is inside the token `i`, and has all of `i` that is left to pull. -/
structure Dec.InToken (W L : Nat) (i : Instr) (d : Dec) : Prop where
  under : d.SoundUnder W L
  ahead : d.Ahead i

/-- A pull reads the field that comes next, and leaves the bits after it (R93). -/
theorem Dec.pull_field {w f : Nat} {d : Dec} {more : List Bool} (h : d.Sound) (hw : w ≤ 8) (hf : f < 2 ^ w)
    (hbits : d.unreadBits = fieldBits w f ++ more) :
    ∃ e, d.pull w = .ok (some (f, e)) ∧ e.unreadBits = more ∧ e.W = d.W ∧ e.L = d.L := by
  obtain ⟨-, -, henough⟩ := pullReadsTheNextBits w d h hw
  rw [hbits, List.take_left' (fieldBits_length w f), List.drop_left' (fieldBits_length w f),
    bitsValue_fieldBits_of_lt hf, List.length_append, fieldBits_length] at henough
  obtain ⟨e, hpull, hunread, -⟩ := henough (Nat.le_add_right _ _)
  obtain ⟨-, hW, hL, -⟩ := (Dec.Runs.of_pull hpull).flags
  exact ⟨e, hpull, hunread, hW, hL⟩

/-- At `d` the fields of the token `i` are the numbers pulled, and DEC stays inside `i` where it does not end (R133; log
7). -/
structure Dec.StepsInToken (i : Instr) (room : Nat) (d : Dec) : Prop where
  same : d.stateAction (tokenField i d.L) room = d.stateAction asPulled room
  ahead : ∀ t, d.stateAction asPulled room = .ok t → t.outcome = .continues → t.unit.state ≠ .tagBit →
    t.unit.Ahead i

section
variable {i : Instr} {room : Nat} {d : Dec}

/-- A state that only pulls stays inside the token, when its field comes next and the state after it pulls what comes
then (R133). -/
theorem Dec.StepsInToken.go {w f : Nat} {next : Nat → Dec → Dec} {more rest : List Bool} (h : d.Sound) (hw : w ≤ 8)
    (hf : f < 2 ^ w) (hbits : d.unreadBits = fieldBits w f ++ (more ++ rest))
    (haction : ∀ field, d.stateAction field room = d.pulling w field fun r e => .ok (.go (next r e)))
    (hfield : tokenField i d.L d.state f = f)
    (hnext : ∀ e : Dec, e.W = d.W → e.L = d.L →
      bitsLeft (next f e).W (next f e).L i (next f e).state = some more ∧ (next f e).unreadBits = e.unreadBits) :
    Dec.StepsInToken i room d := by
  obtain ⟨e, hpull, hunread, hW, hL⟩ := Dec.pull_field h hw hf hbits
  obtain ⟨hleft, hrest⟩ := hnext e hW hL
  have hgo : ∀ field : DecState → Nat → Nat, field d.state f = f → d.stateAction field room = .ok (.go (next f e)) := by
    intro field hsame
    rw [haction, Dec.pulling, hpull]
    simp only [hsame]
  refine ⟨(hgo _ hfield).trans (hgo asPulled rfl).symm, fun t ht _ _ => ?_⟩
  cases ht.symm.trans (hgo asPulled rfl)
  exact ⟨more, rest, hleft, hrest.trans hunread⟩

/-- The states of LIT pull its tag and its byte (R66, R134, R135). -/
theorem Dec.Ahead.lit_steps {b : Byte} (hsound : d.Sound) (h : d.Ahead (.lit b)) (room : Nat) :
    Dec.StepsInToken (.lit b) room d := by
  obtain ⟨bits, rest, hleft, hunread⟩ := h
  cases hst : d.state <;> rw [hst] at hleft <;> cases hleft
  case tagBit.refl =>
    exact .go (f := 1) hsound (by decide) (by decide) hunread (fun _ => Dec.stateAction_tagBit hst) (by rw [hst]; rfl)
      fun e _ _ => ⟨rfl, rfl⟩
  case yieldLiteral.refl =>
    obtain ⟨e, hpull, hrest, -⟩ := Dec.pull_field hsound (by decide) b.isLt hunread
    by_cases hroom : room = 0
    · have hstall (field : DecState → Nat → Nat) : d.stateAction field room = .ok (.stop d .stall) := by
        rw [Dec.stateAction, hst]
        exact if_pos hroom
      refine ⟨(hstall _).trans (hstall _).symm, fun t ht hcontinues => ?_⟩
      cases ht.symm.trans (hstall _)
      cases hcontinues
    · have hhead := (Dec.Runs.of_pull hpull).headIndex_lt hsound.headIndex_lt
      have hemit := Dec.stateAction_yieldLiteral (field := asPulled) hst hroom hpull hhead
      refine ⟨(Dec.stateAction_yieldLiteral hst hroom hpull hhead).trans hemit.symm, fun t ht _ hmiddle => ?_⟩
      cases ht.symm.trans hemit
      exact absurd rfl hmiddle

/-- The states of BREF pull its tag and the parts of its index and its count (R67, R134, R136 to R139). -/
theorem Dec.Ahead.bref_steps {index count : Nat} (hsound : d.Sound) (h : d.Ahead (.bref index count))
    (hwf : (Instr.bref index count).wellFormed d.W d.L = true) (room : Nat) :
    Dec.StepsInToken (.bref index count) room d := by
  obtain ⟨bits, rest, hleft, hunread⟩ := h
  obtain ⟨hindex, hcount⟩ := bref_wellFormed_iff.1 hwf
  obtain ⟨hW8, hW15, hL4, hLW⟩ := legalParameters_iff.1 hsound.legal
  cases hst : d.state <;> rw [hst] at hleft <;> cases hleft
  case tagBit.refl =>
    exact .go (f := 0) hsound (by decide) (by decide) hunread (fun _ => Dec.stateAction_tagBit hst)
      (by rw [hst]; rfl) fun e hW hL => ⟨hW ▸ hL ▸ bitsLeft_index (hW ▸ hW8) e.L index count, rfl⟩
  case backrefIndexMSB.refl =>
    rw [fieldBits_high_low d.W index, Nat.min_eq_right hW8, List.append_assoc, List.append_assoc] at hunread
    exact .go hsound (by omega) (shiftRight_byte_lt hindex) (hunread.trans (by rw [List.append_assoc]))
      (fun _ => Dec.stateAction_backrefIndexMSB hst) (by rw [hst]; rfl) fun e _ hL => ⟨by rw [← hL]; rfl, rfl⟩
  case backrefIndexLSB.refl =>
    exact .go hsound (by decide) (Nat.mod_lt _ (by decide)) (hunread.trans (List.append_assoc ..))
      (fun _ => Dec.stateAction_backrefIndexLSB hst) (by rw [hst]; rfl)
      fun e _ hL => ⟨hL ▸ bitsLeft_count e.W e.L index count, rfl⟩
  case backrefCountMSB.refl =>
    rw [fieldBits_high_low d.L count, List.append_assoc] at hunread
    exact .go hsound (by omega) (shiftRight_byte_lt hcount) hunread
      (fun _ => Dec.stateAction_backrefCountMSB hst) (by rw [hst]; rfl) fun e _ hL => ⟨by rw [← hL]; rfl, rfl⟩
  case backrefCountLSB.refl =>
    exact .go hsound (by omega) (Nat.mod_lt _ (Nat.two_pow_pos _)) (more := []) hunread
      (fun _ => Dec.stateAction_backrefCountLSB hst) (by rw [hst]; rfl) fun e _ _ => ⟨rfl, rfl⟩
  case yieldBackref.refl =>
    refine ⟨by simp only [Dec.stateAction, hst], fun t ht hcontinues hmiddle => ?_⟩
    rw [Dec.stateAction, hst] at ht
    rcases Dec.stepYieldBackref_ok ht with rfl | ⟨-, -, -, hend⟩
    · cases hcontinues
    · exact ⟨[], _, by rw [hend.resolve_left hmiddle]; rfl, rfl⟩

/-- Inside a well-formed token its fields are the numbers pulled (R66, R67, R141). -/
theorem Dec.Ahead.steps (hsound : d.Sound) (h : d.Ahead i) (hwf : i.wellFormed d.W d.L = true) (room : Nat) :
    Dec.StepsInToken i room d := by
  cases i with
  | lit b => exact h.lit_steps hsound room
  | bref index count => exact h.bref_steps hsound hwf room
  | _ =>
    obtain ⟨bits, rest, hleft, -⟩ := h
    cases hleft

/-- A micro-step of a token that continues is one of DEC that does not end the token (log 7). -/
theorem Dec.tokenMicroStep_continues {field : DecState → Nat → Nat} {t : Turn Dec}
    (h : d.tokenMicroStep field room = .ok t) (hcontinues : t.outcome = .continues) :
    d.microStep field room = .ok t ∧ t.unit.state ≠ .tagBit := by
  unfold Dec.tokenMicroStep at h
  split at h
  · cases h
  · next t' ht =>
    split_ifs at h with hend <;> cases h
    · cases hcontinues
    · exact ⟨ht, fun htag => hend ⟨hcontinues, htag⟩⟩

section
variable {W L : Nat} (hwf : i.wellFormed W L = true)
include hwf

/-- Inside a well-formed token its micro-step is the one of a POLL (log 7). -/
theorem Dec.InToken.microStep_eq (h : d.InToken W L i) (room : Nat) :
    d.microStep (tokenField i L) room = d.microStep asPulled room := by
  obtain ⟨⟨hsound, rfl, rfl⟩, hahead⟩ := h
  rw [Dec.microStep, (hahead.steps hsound hwf room).same]
  rfl

/-- A micro-step inside a well-formed token stays inside it, where it does not end it (R133). -/
theorem Dec.InToken.microStep_keeps {t : Turn Dec} (h : d.InToken W L i) (ht : d.microStep asPulled room = .ok t)
    (hcontinues : t.outcome = .continues) (hmiddle : t.unit.state ≠ .tagBit) : t.unit.InToken W L i := by
  obtain ⟨⟨hsound, rfl, rfl⟩, hahead⟩ := h
  obtain ⟨t', ht', hfollows⟩ := Dec.microStep_follows hsound (fitsPulls_asPulled d.W d.L) room
  cases ht.symm.trans ht'
  exact ⟨⟨hfollows.sound, hfollows.W, hfollows.L⟩,
    (hahead.steps hsound hwf room).ahead t (Dec.microStep_ok ht).1 hcontinues hmiddle⟩

/-- The run of a well-formed token at the cursor is the one with the numbers pulled (log 7). -/
theorem Dec.InToken.tokenRun_asPulled {out : List Byte} {st : Status} {d' : Dec} (h : d.InToken W L i)
    (hrun : d.TokenRun (tokenField i L) room out st d') : d.TokenRun asPulled room out st d' := by
  obtain ⟨left, hrun⟩ := hrun
  refine ⟨left, hrun ▸ (pollLoop_congr (P := Dec.InToken W L i) (fun room u hu => ?_)
    (fun room u t hu ht hcontinues => ?_) left room h).symm⟩
  · rw [Dec.tokenMicroStep, hu.microStep_eq hwf]
    rfl
  · obtain ⟨hmicro, hmiddle⟩ := Dec.tokenMicroStep_continues ht hcontinues
    exact hu.microStep_keeps hwf ((hu.microStep_eq hwf room).symm.trans hmicro) hcontinues hmiddle

end

end

end Machine
end Sys2Proof
end

section
/-! PROOFS. DEC.POLL is the next token, then the rest (O47). -/

namespace Sys2Proof.Machine

/-- A micro-step of a token that ends its run with EMPTY underflows, with nothing changed, or ends the token (log 7). -/
theorem Dec.tokenMicroStep_empty {field : DecState → Nat → Nat} {room : Nat} {d : Dec} {t : Turn Dec}
    (h : d.tokenMicroStep field room = .ok t) (hempty : t.outcome.pollStatus = some .empty) :
    t.unit = d ∧ t.out = [] ∨
    ∃ t', d.microStep field room = .ok t' ∧ t'.outcome = .continues ∧ t.unit = t'.unit ∧ t.out = t'.out := by
  unfold Dec.tokenMicroStep at h
  split at h
  · cases h
  · next t' ht =>
    split_ifs at h with hend <;> cases h
    · exact .inr ⟨t', ht, hend.1, rfl, rfl⟩
    · obtain ⟨r, rfl⟩ := Dec.microStep_ends ht (by rintro hc; rw [hc] at hempty; cases hempty)
      exact .inl ⟨rfl, rfl⟩

/-- The run of a token that responds EMPTY, then a POLL with the slots left, is one POLL: every micro-step of the token
is one of the POLL (R131; log 7). -/
theorem Dec.TokenRun.then_poll {room capacity : Nat} {d e d' : Dec} {out out' : List Byte} {st : Status}
    (h : d.TokenRun asPulled room out .empty e) (hfits : out.length ≤ capacity)
    (hpoll : e.PollRun (capacity - out.length) out' st d') : d.PollRun capacity (out ++ out') st d' := by
  obtain ⟨left, hrun⟩ := h
  induction left generalizing room capacity d out with
  | zero => cases hrun
  | succ left ih =>
    obtain ⟨left', t, hleft, ht, ⟨hst, rfl, rfl⟩ | ⟨hst, rest, hrest, rfl⟩⟩ := pollLoop_ok hrun
    · obtain ⟨hunit, hout⟩ | ⟨t', hmicro, hcontinues, hunit, hout⟩ := Dec.tokenMicroStep_empty ht hst
      · rw [hunit] at hpoll
        rwa [hout] at hpoll ⊢
      · rw [hunit] at hpoll
        rw [hout] at hpoll hfits ⊢
        exact .step (Dec.microStep_room hmicro hcontinues hfits) hcontinues hpoll
    · obtain rfl : left = left' := Nat.succ.inj hleft
      have hcontinues := Micro.pollStatus_none hst
      obtain ⟨hmicro, -⟩ := Dec.tokenMicroStep_continues ht hcontinues
      rw [List.length_append] at hfits hpoll
      rw [List.append_assoc]
      refine .step (Dec.microStep_room hmicro hcontinues (by omega)) hcontinues (ih (by omega) ?_ hrest)
      rw [Nat.sub_sub]
      exact hpoll

/-- A run leaves DEC as usable as it was (R154, R156). -/
theorem Dec.Runs.usable_eq {d d' : Dec} {out : List Byte} (h : Dec.Runs d out d') : d'.usable = d.usable :=
  congrArg (fun c : Bool × Nat × Nat × Nat × Bool × Bool × Nat => c.1 && !c.2.2.2.2.1) h.configuration

/-- Settles O47: the token's run pulls the numbers that a POLL pulls. -/
theorem decPollRunsTheNextToken : Obligations.DecPollRunsTheNextToken := by
  unfold Obligations.DecPollRunsTheNextToken
  intro capacity n i rest s t u st out out' hbetween hdecode hexec hresponse hfits hpoll hresponse'
  obtain ⟨hi, hwf⟩ := decodeToken_wellFormed hdecode
  obtain ⟨d, out₁, st₁, hrun, hruns, hexec₁⟩ := exec_token_runs hi hbetween hwf
  cases hexec.symm.trans hexec₁
  obtain ⟨rfl, -, rfl⟩ := Response.mk.inj (Option.some.inj hresponse)
  obtain ⟨husable, hsound, htag⟩ := hbetween
  have hin : s.dec.InToken s.dec.W s.dec.L i :=
    ⟨⟨hsound, rfl, rfl⟩, _, rest, htag ▸ bitsLeft_tagBit hi _ _, decodeToken_bits hdecode⟩
  rcases execDecPoll_next hpoll with
    ⟨hunusable, -⟩ | ⟨-, d', out₂, st₂, hpoll₂, rfl⟩
  · cases hunusable.symm.trans (hruns.usable_eq.trans husable)
  · cases hresponse'
    have hwhole := ((hin.tokenRun_asPulled hwf hrun).then_poll hfits ⟨_, hpoll₂⟩).poll hsound
    show execDecPoll capacity s = _
    rw [execDecPoll, husable, hwhole]
    rfl

end Sys2Proof.Machine
end

section
/-! SUPPORT. The bytes that tokens stand for depend on the last `N` bytes of the history, and DEC holds those (R34, R63,
R66 to R69). -/

namespace Sys2Proof

/-- The byte `D` back does not depend on what came before the last `D` bytes. -/
theorem byteBack_append {h : List Byte} {D : Nat} (hD : D ≤ h.length) (pre : List Byte) :
    byteBack (pre ++ h) D = byteBack h D := by
  unfold byteBack
  rw [List.length_append, Nat.add_sub_assoc hD, List.getD_append_right _ _ _ _ (Nat.le_add_right _ _),
    Nat.add_sub_cancel_left]

/-- A copy at distance `D` does not depend on what came before the last `D` bytes (R63). -/
theorem copyBytes_append {h : List Byte} {D : Nat} (hD : D ≤ h.length) (n : Nat) (pre : List Byte) :
    copyBytes D n (pre ++ h) = copyBytes D n h := by
  induction n generalizing h with
  | zero => rfl
  | succ n ih =>
    rw [copyBytes, copyBytes, byteBack_append hD, List.append_assoc, ih (by rw [List.length_append]; omega)]

/-- The last byte of a copy (R63). -/
theorem copyBytes_succ (D n : Nat) (h : List Byte) :
    copyBytes D (n + 1) h = copyBytes D n h ++ [byteBack (h ++ copyBytes D n h) D] := by
  induction n generalizing h with
  | zero => simp [copyBytes]
  | succ n ih =>
    rw [copyBytes, ih, copyBytes]
    simp

section
variable {W L : Nat} {h : List Byte} (hlen : 2 ^ W ≤ h.length)
include hlen

/-- What a well-formed token stands for does not depend on what came before the last `N` bytes (R66 to R69). -/
theorem expandToken_append {i : Instr} (hwf : i.wellFormed W L = true) (pre : List Byte) :
    expandToken (pre ++ h) i = expandToken h i := by
  cases i with
  | bref index count =>
    obtain ⟨hindex, -⟩ := Machine.bref_wellFormed_iff.1 hwf
    exact copyBytes_append (by omega) _ _
  | _ => rfl

/-- What well-formed tokens stand for does not depend on what came before the last `N` bytes (R66 to R69). -/
theorem expandTokens_append {is : List Instr} (hwf : ∀ i ∈ is, i.wellFormed W L = true) (pre : List Byte) :
    expandTokens (pre ++ h) is = expandTokens h is := by
  induction is generalizing h with
  | nil => rfl
  | cons i is ih =>
    obtain ⟨hi, his⟩ := List.forall_mem_cons.1 hwf
    rw [expandTokens, expandTokens, expandToken_append hlen hi, List.append_assoc,
      ih (by rw [List.length_append]; omega) his]

end

namespace Machine

/-- The history DEC holds is `N` bytes long (R34). -/
@[simp] theorem Dec.history_length (d : Dec) : d.history.length = d.N := by simp [Dec.history]

/-- A byte of the history is in `WIN` so far after `head_index` (R34). -/
theorem Dec.history_getD {d : Dec} {k : Nat} (hk : k < d.N) :
    d.history.getD k 0 = d.win.read ((d.headIndex + k) % d.N) := by
  simp [Dec.history, List.getD_eq_getElem?_getD, hk]

/-- The byte a copy emits is the one `D` back in the history (R34, R62, R63). -/
theorem Dec.byteBack_history {d : Dec} {D : Nat} (hDN : D ≤ d.N) (out : List Byte) :
    byteBack (d.history ++ out) D = copiedByte d.N D d.headIndex d.win out := by
  unfold byteBack copiedByte
  rw [List.length_append, Dec.history_length]
  split_ifs with hlt
  · rw [List.getD_append _ _ _ _ (by rw [Dec.history_length]; omega), Dec.history_getD (by omega)]
    congr 2
    omega
  · rw [List.getD_append_right _ _ _ _ (by rw [Dec.history_length]; omega), Dec.history_length]
    congr 1
    omega

/-- After a run the history is the last `N` bytes of the history before and the bytes emitted (R34, R135, R140). -/
theorem Dec.Runs.history_eq {d d' : Dec} {out : List Byte} (h : Dec.Runs d out d') (hwf : Memory.wf 0 d.win)
    (hhead : d.headIndex < d.N) : d'.history = (d.history ++ out).drop out.length := by
  have hN : d'.N = d.N := congrArg (2 ^ ·) h.flags.2.1
  refine List.ext_getElem (by simp [hN]) fun k hk hk' => ?_
  rw [Dec.history_length, hN] at hk
  have hread : d'.history[k] = d'.win.read ((d.headIndex + out.length + d.N - (d.N - k)) % d.N) := by
    rw [show d.headIndex + out.length + d.N - (d.N - k) = d.headIndex + out.length + k by omega]
    simp [Dec.history, h.headIndex_eq hhead, hN]
  have hindex : (d.history ++ out).length - (d.N - k) = out.length + k := by
    rw [List.length_append, Dec.history_length]
    omega
  rw [hread, h.win_eq, emitWindow_read_back hwf hhead (by omega) (Nat.sub_le _ _),
    ← Dec.byteBack_history (Nat.sub_le _ _), byteBack, hindex, List.getElem_drop, List.getD_eq_getElem]

/-- What well-formed tokens stand for after a run is what they stand for after the history and the bytes emitted (R34,
R66 to R69). -/
theorem Dec.Runs.expandTokens_history {d d' : Dec} {out : List Byte} (h : Dec.Runs d out d') (hwf : Memory.wf 0 d.win)
    (hhead : d.headIndex < d.N) {L : Nat} {is : List Instr} (his : ∀ i ∈ is, i.wellFormed d.W L = true) :
    expandTokens d'.history is = expandTokens (d.history ++ out) is := by
  have hlen : 2 ^ d.W ≤ ((d.history ++ out).drop out.length).length := by simp [Dec.N]
  have hcut := expandTokens_append hlen his ((d.history ++ out).take out.length)
  rw [List.take_append_drop] at hcut
  rw [h.history_eq hwf hhead, hcut]

/-- A copy up to its last byte is a copy, and that byte is the next one of it (R62, R63). -/
theorem Copied.of_snoc {N D head : Nat} {win : ByteMemory} {out : List Byte} {c : Byte} (hD : 1 ≤ D)
    (h : Copied N D head win (out ++ [c])) : Copied N D head win out ∧ c = copiedByte N D head win out := by
  have hgetD (k : Nat) (hk : k ≤ out.length) (hlt : ¬ k < D) :
      (out ++ [c]).getD (k - D) 0 = out.getD (k - D) 0 := List.getD_append _ _ _ _ (by omega)
  refine ⟨fun k hk => ?_, ?_⟩
  · have hbyte := h k (by rw [List.length_append]; omega)
    rw [List.getElem?_append_left hk] at hbyte
    rw [hbyte]
    split_ifs with hlt
    · rfl
    · rw [hgetD k (Nat.le_of_lt hk) hlt]
  · have hbyte := h out.length (by simp)
    rw [List.getElem?_concat_length] at hbyte
    rw [Option.some.inj hbyte, copiedByte]
    split_ifs with hlt
    · rfl
    · rw [hgetD _ le_rfl hlt]

/-- What DEC copies is what BREF stands for after DEC's history (R62, R63, R68, R69). -/
theorem Copied.eq_copyBytes {d : Dec} {D : Nat} (hD : 1 ≤ D) (hDN : D ≤ d.N) {out : List Byte}
    (h : Copied d.N D d.headIndex d.win out) : out = copyBytes D out.length d.history := by
  induction out using List.reverseRecOn with
  | nil => rfl
  | append_singleton out c ih =>
    obtain ⟨hinit, rfl⟩ := h.of_snoc hD
    rw [List.length_append, List.length_singleton, copyBytes_succ, ← ih hinit, Dec.byteBack_history hDN]

end Machine
end Sys2Proof
end

section
/-! SUPPORT. The padding after the last token: DEC.POLL stops in it, and DEC.FINISH recognises it (R95, R142, R143). -/

namespace Sys2Proof

/-- The number of `w` one-bits (R14). -/
theorem bitsValue_replicate_true (w : Nat) : bitsValue (List.replicate w true) = 2 ^ w - 1 := by
  induction w with
  | zero => rfl
  | succ w ih =>
    have hpos := Nat.two_pow_pos w
    rw [List.replicate_succ, bitsValue_cons, ih, List.length_replicate, Bool.toNat_true, Nat.pow_succ]
    omega

/-- A field whose bits are all 1 holds the largest number of its width (R95). -/
theorem mod_of_fieldBits_true {w v : Nat} (h : ∀ b ∈ fieldBits w v, b = true) : v % 2 ^ w = 2 ^ w - 1 := by
  have hones : fieldBits w v = List.replicate w true := List.eq_replicate_iff.2 ⟨fieldBits_length w v, h⟩
  rw [← bitsValue_fieldBits, hones, bitsValue_replicate_true]

namespace Machine

/-- Where every unread bit is 1, AllOnes holds (R95). -/
theorem Dec.allOnes_of_unreadBits {d : Dec} (h : ∀ b ∈ d.unreadBits, b = true) : d.allOnes = true := by
  rw [Dec.unreadBits, List.forall_mem_append] at h
  obtain ⟨hcurrent, hbytes⟩ := h
  rw [Dec.allOnes, Bool.and_eq_true, decide_eq_true_eq, List.all_eq_true]
  refine ⟨mod_of_fieldBits_true hcurrent, fun b hb => decide_eq_true (BitVec.eq_of_toNat_eq ?_)⟩
  have hbyte := mod_of_fieldBits_true fun x hx => hbytes x (List.mem_flatMap.2 ⟨b, hb, hx⟩)
  rwa [Nat.mod_eq_of_lt b.isLt] at hbyte

/-- DEC at the end of a stream: too few bits left for its state, and all of them 1 (R143). -/
structure Dec.AtEnd (d : Dec) : Prop where
  usable : d.usable = true
  sound : d.Sound
  fewBits : ∃ w, d.pullWidth = some w ∧ d.avail < w
  ones : ∀ b ∈ d.unreadBits, b = true

/-- At the end of a stream FINISH responds DONE (R132, R143). -/
theorem execDecFinish_of_atEnd {s : State} (h : s.dec.AtEnd) :
    execDecFinish s = .next ((s.setDec { s.dec with doneReported := true }).setResponse ⟨.done, 0, []⟩) := by
  obtain ⟨husable, hsound, ⟨w, hw, hfew⟩, hones⟩ := h
  obtain ⟨hsize, -⟩ := (Dec.inRange_iff _).1 hsound.ranges
  simp only [execDecFinish, husable, hw, if_neg (Nat.not_le.2 hfew), if_neg (Nat.not_lt.2 hsize),
    Dec.allOnes_of_unreadBits hones]
  rfl

section
variable {field : DecState → Nat → Nat} {room : Nat} {d : Dec}

/-- An action of a sound DEC is its micro-step, and keeps it sound (R17, R133). -/
theorem Dec.Sound.microStep_of_stateAction {t : Turn Dec} (h : d.Sound) (ht : d.stateAction asPulled room = .ok t) :
    d.microStep asPulled room = .ok t ∧ t.unit.Sound := by
  obtain ⟨t', hmicro, hfollows⟩ := Dec.microStep_follows h (fitsPulls_asPulled d.W d.L) room
  cases ht.symm.trans (Dec.microStep_ok hmicro).1
  exact ⟨hmicro, hfollows.sound⟩

/-- With too few bits for the state, and a slot, DEC underflows (R133). -/
theorem Dec.stateAction_underflow {w : Nat} (hw : d.pullWidth = some w) (hfew : d.avail < w) (hroom : room ≠ 0) :
    d.stateAction field room = .ok (.stop d .underflow) := by
  have hpulling (next : Nat → Dec → Except Fault (Turn Dec)) :
      d.pulling w field next = .ok (.stop d .underflow) := by
    rw [Dec.pulling, Dec.pull, if_pos hfew]
  cases hst : d.state <;> simp only [Dec.pullWidth, hst] at hw <;> cases hw
  case yieldLiteral.refl => simp only [Dec.stateAction, hst, Dec.stepYieldLiteral, if_neg hroom, hpulling]
  all_goals
    simp only [Dec.stateAction, hst]
    exact hpulling _

/-- With too few bits for the state, and a slot, a POLL responds EMPTY at once (R142). -/
theorem Dec.AtEnd.pollRun (h : d.AtEnd) (hroom : room ≠ 0) : d.PollRun room [] .empty d := by
  obtain ⟨-, hsound, ⟨w, hw, hfew⟩, -⟩ := h
  obtain ⟨hmicro, -⟩ := hsound.microStep_of_stateAction (Dec.stateAction_underflow hw hfew hroom)
  exact .last hmicro rfl

/-- Between tokens, with at most 7 one-bits of padding left and a slot, a POLL responds EMPTY at the end of the stream:
the first bit of the padding looks like the tag of a literal, and there is no byte after it (R142, R143). -/
theorem Dec.betweenTokens.pollRun_padding {pad : Nat} (h : d.betweenTokens) (hpad : pad < 8)
    (hbits : d.unreadBits = List.replicate pad true) (hroom : room ≠ 0) :
    ∃ e, d.PollRun room [] .empty e ∧ e.AtEnd := by
  obtain ⟨husable, hsound, htag⟩ := h
  cases pad with
  | zero =>
    have hnone : d.avail = 0 := by rw [← Dec.unreadBits_length, hbits]; rfl
    have hend : d.AtEnd := ⟨husable, hsound, ⟨1, by rw [Dec.pullWidth, htag], by omega⟩, by simp [hbits]⟩
    exact ⟨d, hend.pollRun hroom, hend⟩
  | succ pad =>
    obtain ⟨e, hpull, hrest, -⟩ := Dec.pull_field (w := 1) (f := 1) hsound (by decide) (by decide) hbits
    have haction : d.stateAction asPulled room = .ok (.go (e.afterTag 1)) := by
      rw [Dec.stateAction_tagBit htag, Dec.pulling, hpull]
      rfl
    obtain ⟨hmicro, hsound'⟩ := hsound.microStep_of_stateAction haction
    have hunread : (e.afterTag 1).unreadBits = List.replicate pad true := hrest
    have hfew : (e.afterTag 1).avail = pad := by rw [← Dec.unreadBits_length, hunread, List.length_replicate]
    have hend : (e.afterTag 1).AtEnd :=
      ⟨(Dec.microStep_runs hmicro).1.usable_eq.trans husable, hsound', ⟨8, rfl, by omega⟩, by
        rw [hunread]
        exact fun b hb => List.eq_of_mem_replicate hb⟩
    exact ⟨_, .step hmicro rfl (hend.pollRun hroom), hend⟩

end

end Machine
end Sys2Proof
end

section
/-! PROOFS. DEC.POLL emits what a whole stream stands for (O48). -/

namespace Sys2Proof.Machine

/-- A token that responds is a run that emits its response's bytes, and leaves DEC sound (log 7). -/
theorem exec_token_runs_of_next {i : Instr} {s t : State} {r : Response} (hi : i.isToken = true)
    (h : s.dec.betweenTokens) (hwf : i.wellFormed s.dec.W s.dec.L = true) (hexec : exec i s = .next t)
    (hresponse : t.response = some r) : Dec.Runs s.dec r.out t.dec ∧ t.dec.Sound := by
  obtain ⟨d, out, st, ⟨left, hrun⟩, hruns, hexec'⟩ := exec_token_runs hi h hwf
  cases hexec.symm.trans hexec'
  cases hresponse
  obtain ⟨-, hsound, -⟩ := h
  obtain ⟨hsound', -⟩ := pollLoop_keeps (P := Dec.SoundUnder s.dec.W s.dec.L) (fun room u t hu ht => by
    obtain ⟨t', ht', hkeeps, -⟩ := Dec.tokenMicroStep_answers (fitsPulls_tokenField hwf hi) room u hu
    cases ht.symm.trans ht'
    exact hkeeps) ⟨hsound, rfl, rfl⟩ hrun
  exact ⟨hruns, hsound'⟩

/-- The state with DEC at `d`, which responds EMPTY with the bytes `out` (R80). -/
def State.respondEmpty (s : State) (d : Dec) (out : List Byte) : State :=
  (s.setDec d).setResponse ⟨.empty, out.length, out⟩

/-- A LIT whose bits are there emits what it stands for, and leaves the bits after it (R66). -/
theorem exec_lit_expands {b : Byte} {s : State} {rest : List Bool} (hmem : s.MemoryCanonical)
    (hbetween : s.dec.betweenTokens) (hbits : s.dec.unreadBits = litBits b ++ rest) :
    ∃ d, exec (.lit b) s = .next (s.respondEmpty d (expandToken s.dec.history (.lit b))) ∧
      d.state = s.dec.state ∧ d.unreadBits = rest := by
  have hlen : (litBits b).length = 9 := rfl
  obtain ⟨d, hexec, hunread, -, -, -, hframe⟩ := litTokenEmitsItsByte b s hmem hbetween (by
    rw [hbits, List.length_append, hlen]
    exact Nat.le_add_right _ _)
  exact ⟨d, hexec, (congrArg Dec.state hframe :), by rw [hunread, hbits, ← hlen, List.drop_left]⟩

/-- A BREF whose bits are there emits what it stands for, and leaves the bits after it (R67 to R69). -/
theorem exec_bref_expands {index count : Nat} {s : State} {rest : List Bool} (hmem : s.MemoryCanonical)
    (hbetween : s.dec.betweenTokens) (hwf : (Instr.bref index count).wellFormed s.dec.W s.dec.L = true)
    (hbits : s.dec.unreadBits = brefBits s.dec.W s.dec.L index count ++ rest) :
    ∃ d, exec (.bref index count) s =
        .next (s.respondEmpty d (expandToken s.dec.history (.bref index count))) ∧
      d.state = s.dec.state ∧ d.unreadBits = rest := by
  obtain ⟨hindex, hcount⟩ := bref_wellFormed_iff.1 hwf
  have hlen : (brefBits s.dec.W s.dec.L index count).length = 1 + s.dec.W + s.dec.L := by
    simp [brefBits]
    omega
  obtain ⟨d, out, hexec, hout, hcopied, -, -, hunread, -, -, -, -, -, -, hframe⟩ :=
    brefTokenCopiesFromTheWindow index count s hmem hbetween hindex hcount (by
      rw [hbits, List.length_append, hlen]
      exact Nat.le_add_right _ _)
  have hcopy : Copied s.dec.N (index + 1) s.dec.headIndex s.dec.win out := fun k hk => hcopied k (hout ▸ hk)
  have hexpand : expandToken s.dec.history (.bref index count) = out := by
    rw [expandToken, ← hout]
    exact (hcopy.eq_copyBytes (Nat.succ_pos index) hindex).symm
  refine ⟨d, ?_, (congrArg Dec.state hframe :), by rw [hunread, hbits, ← hlen, List.drop_left]⟩
  rw [hexec, hexpand, State.respondEmpty, hout]
  rfl

/-- A token whose bits are there emits exactly what it stands for after DEC's history, and leaves DEC between tokens,
the bits after it unread (R66 to R69, R134 to R140; log 7). -/
theorem exec_token_expands {i : Instr} {s : State} {rest : List Bool} (hi : i.isToken = true)
    (hwf : i.wellFormed s.dec.W s.dec.L = true) (hmem : s.MemoryCanonical) (hbetween : s.dec.betweenTokens)
    (hbits : s.dec.unreadBits = tokenBits s.dec.W s.dec.L i ++ rest) :
    ∃ d, exec i s = .next (s.respondEmpty d (expandToken s.dec.history i)) ∧
      Dec.Runs s.dec (expandToken s.dec.history i) d ∧ d.betweenTokens ∧ d.unreadBits = rest := by
  obtain ⟨d, hexec, hst, hunread⟩ : ∃ d, exec i s = .next (s.respondEmpty d (expandToken s.dec.history i)) ∧
      d.state = s.dec.state ∧ d.unreadBits = rest := by
    cases i with
    | lit b => exact exec_lit_expands hmem hbetween hbits
    | bref index count => exact exec_bref_expands hmem hbetween hwf hbits
    | _ => cases hi
  obtain ⟨hruns, hsound⟩ := exec_token_runs_of_next hi hbetween hwf hexec rfl
  obtain ⟨husable, -, htag⟩ := hbetween
  exact ⟨d, hexec, hruns, ⟨hruns.usable_eq.trans husable, hsound, hst.trans htag⟩, hunread⟩

/-- A POLL of whole tokens and padding, by induction on the tokens: each is executed, and the POLL goes on with the
slots left (R65, R142, R143, R147). -/
theorem exec_decPoll_stream {capacity pad : Nat} {is : List Instr} {s : State} (hmem : s.MemoryCanonical)
    (hbetween : s.dec.betweenTokens)
    (htokens : ∀ i ∈ is, i.isToken = true ∧ i.wellFormed s.dec.W s.dec.L = true) (hpad : pad < 8)
    (hbits : s.dec.unreadBits = is.flatMap (tokenBits s.dec.W s.dec.L) ++ List.replicate pad true)
    (hcapacity : (expandTokens s.dec.history is).length < capacity) :
    ∃ d : Dec, exec (.decPoll capacity) s = .next (s.respondEmpty d (expandTokens s.dec.history is)) ∧ d.AtEnd := by
  induction is generalizing capacity s with
  | nil =>
    obtain ⟨e, hrun, hend⟩ := hbetween.pollRun_padding hpad hbits (Nat.ne_zero_of_lt hcapacity)
    obtain ⟨husable, hsound, -⟩ := hbetween
    refine ⟨e, ?_, hend⟩
    show execDecPoll capacity s = _
    rw [execDecPoll, husable, hrun.poll hsound]
    rfl
  | cons i is ih =>
    obtain ⟨⟨hi, hwf⟩, his⟩ := List.forall_mem_cons.1 htokens
    rw [List.flatMap_cons, List.append_assoc] at hbits
    obtain ⟨e, hexec, hruns, hbetween', hunread⟩ := exec_token_expands hi hwf hmem hbetween hbits
    obtain ⟨-, hW, hL, -⟩ := hruns.flags
    obtain ⟨-, hsound, -⟩ := id hbetween
    obtain ⟨hwin, hinb⟩ := hruns.canonical hmem.toDec
    have hexpand := hruns.expandTokens_history hmem.win hsound.headIndex_lt fun j hj => (his j hj).2
    rw [expandTokens, ← hexpand] at hcapacity ⊢
    rw [List.length_append] at hcapacity
    obtain ⟨d, hpoll, hend⟩ := ih (s := s.respondEmpty e (expandToken s.dec.history i))
      (capacity := capacity - (expandToken s.dec.history i).length) ⟨hmem.buf, hmem.head, hmem.next, hwin, hinb⟩
      hbetween' (hW ▸ hL ▸ his) (hW ▸ hL ▸ hunread) (Nat.lt_sub_iff_add_lt'.2 hcapacity)
    have hwhole := decPollRunsTheNextToken capacity _ i _ s _ _ _ _ _ hbetween
      (hbits ▸ decodeToken_tokenBits hi hwf _) hexec rfl (by omega) hpoll rfl
    exact ⟨d, hwhole, hend⟩

/-- Settles O48: the POLL ends in the padding, where every unread bit is 1. -/
theorem decPollExpandsTheStream : Obligations.DecPollExpandsTheStream := by
  unfold Obligations.DecPollExpandsTheStream
  intro capacity pad is s hmem hbetween htokens hpad hbits hcapacity
  obtain ⟨d, hpoll, hend⟩ := exec_decPoll_stream hmem hbetween htokens hpad hbits hcapacity
  exact ⟨d, hpoll, execDecFinish_of_atEnd hend⟩

end Sys2Proof.Machine
end

section
/-! SUPPORT. The loop of PushField: which bound is enough, where it stalls, and how a stalled push goes on (R87 to
R89). -/

namespace Sys2Proof.Machine

/-- A PushStep that steps places at least one bit, and leaves a free one in `current_byte` (R28, R87). -/
theorem Enc.pushStep_places {room : Nat} {e e' : Enc} {out : List Byte} (hbit : 1 ≤ e.bitIndex)
    (hcount : e.outgoingBitsCount ≠ 0) (h : e.pushStep room = some (e', out)) :
    e'.outgoingBitsCount < e.outgoingBitsCount ∧ 1 ≤ e'.bitIndex ∧ out.length ≤ room := by
  obtain ⟨hcount', -, hcase⟩ := Enc.pushStep_some h
  rcases hcase with ⟨-, hroom, hbit', -, hlen⟩ | ⟨hfew, hbit', rfl⟩
  · omega
  · exact ⟨by omega, by omega, Nat.zero_le _⟩

/-- A PushStep that steps does the same with more slots (R87). -/
theorem Enc.pushStep_room {room : Nat} {e : Enc} {r : Enc × List Byte} (h : e.pushStep room = some r) (more : Nat) :
    e.pushStep (room + more) = some r := by
  unfold Enc.pushStep at h ⊢
  dsimp only at h ⊢
  split_ifs at h with hstall hfull
  all_goals rw [if_neg fun hmore => hstall ⟨hmore.1, Nat.eq_zero_of_add_eq_zero_right hmore.2⟩]
  · rw [if_pos hfull, h]
  · rw [if_neg hfull, h]

/-- The answer of a push that goes on after one that emitted `out` (R89). -/
def Enc.pushAfter (out : List Byte) (r : Enc × List Byte × Bool) : Enc × List Byte × Bool := (r.1, out ++ r.2.1, r.2.2)

/-- With no bit pending the loop of PushField is DONE at once (R88). -/
theorem Enc.pushLoop_done {e : Enc} (h : e.outgoingBitsCount = 0) (left room : Nat) :
    Enc.pushLoop left room e = (e, [], true) := by
  cases left <;> simp [Enc.pushLoop, h]

/-- As many steps as bits are pending are enough for the loop of PushField (R88). -/
theorem Enc.pushLoop_of_le {left left' room : Nat} {e : Enc} (hbit : 1 ≤ e.bitIndex) (h : e.outgoingBitsCount ≤ left)
    (h' : e.outgoingBitsCount ≤ left') : Enc.pushLoop left room e = Enc.pushLoop left' room e := by
  induction left generalizing left' room e with
  | zero =>
    have hcount := Nat.eq_zero_of_le_zero h
    rw [Enc.pushLoop_done hcount, Enc.pushLoop_done hcount]
  | succ left ih =>
    by_cases hcount : e.outgoingBitsCount = 0
    · rw [Enc.pushLoop_done hcount, Enc.pushLoop_done hcount]
    · obtain ⟨n, rfl⟩ := Nat.exists_eq_add_one_of_ne_zero (show left' ≠ 0 by omega)
      rw [Enc.pushLoop, Enc.pushLoop, if_neg hcount, if_neg hcount]
      cases hstep : e.pushStep room with
      | none => rfl
      | some r =>
        obtain ⟨hless, hbit', -⟩ := Enc.pushStep_places hbit hcount hstep
        simp only [ih (left' := n) (room := room - r.2.length) hbit' (by omega) (by omega)]

/-- A push that is DONE is the same with more slots (R88). -/
theorem Enc.pushLoop_room {left room : Nat} {e e₁ : Enc} {out : List Byte}
    (h : Enc.pushLoop left room e = (e₁, out, true)) (hbit : 1 ≤ e.bitIndex) (more : Nat) :
    Enc.pushLoop left (room + more) e = (e₁, out, true) := by
  induction left generalizing room e out with
  | zero => exact h
  | succ left ih =>
    by_cases hcount : e.outgoingBitsCount = 0
    · rw [Enc.pushLoop_done hcount] at h ⊢
      exact h
    · rw [Enc.pushLoop, if_neg hcount] at h ⊢
      cases hstep : e.pushStep room with
      | none => simp [hstep] at h
      | some r =>
        obtain ⟨-, hbit', hlen⟩ := Enc.pushStep_places hbit hcount hstep
        simp only [hstep, Prod.mk.injEq] at h
        obtain ⟨rfl, rfl, hdone⟩ := h
        simp only [Enc.pushStep_room hstep more, Nat.sub_add_comm hlen, ih (Prod.ext rfl (Prod.ext rfl hdone)) hbit']

/-- A push that STALLs has used every slot, and bits are left (R88). -/
theorem Enc.pushLoop_stall {left room : Nat} {e e₁ : Enc} {out : List Byte}
    (h : Enc.pushLoop left room e = (e₁, out, false)) (hbit : 1 ≤ e.bitIndex) (hleft : e.outgoingBitsCount ≤ left) :
    0 < e₁.outgoingBitsCount ∧ out.length = room ∧ ∀ left' more, e₁.outgoingBitsCount ≤ left' →
      Enc.pushLoop left (room + more) e = Enc.pushAfter out (Enc.pushLoop left' more e₁) := by
  induction left generalizing room e out with
  | zero => simp [Enc.pushLoop_done (Nat.eq_zero_of_le_zero hleft)] at h
  | succ left ih =>
    have hcount : e.outgoingBitsCount ≠ 0 := fun hzero => by simp [Enc.pushLoop_done hzero] at h
    cases hstep : e.pushStep room with
    | none =>
      obtain ⟨-, rfl⟩ := Enc.pushStep_none.1 hstep
      simp only [Enc.pushLoop, if_neg hcount, hstep, Prod.mk.injEq] at h
      obtain ⟨rfl, rfl, -⟩ := h
      exact ⟨Nat.pos_of_ne_zero hcount, rfl, fun left' more hleft' => by
        rw [Nat.zero_add, Enc.pushLoop_of_le hbit hleft hleft']
        rfl⟩
    | some r =>
      obtain ⟨hless, hbit', hlen⟩ := Enc.pushStep_places hbit hcount hstep
      simp only [Enc.pushLoop, if_neg hcount, hstep, Prod.mk.injEq] at h
      obtain ⟨rfl, rfl, hfalse⟩ := h
      obtain ⟨hpos, hused, hgo⟩ := ih (Prod.ext rfl (Prod.ext rfl hfalse)) hbit' (by omega)
      refine ⟨hpos, ?_, fun left' more hleft' => ?_⟩
      · simp only [List.length_append, hused]
        omega
      · simp only [Enc.pushLoop, if_neg hcount, Enc.pushStep_room hstep more, Nat.sub_add_comm hlen,
          hgo left' more hleft', Enc.pushAfter, List.append_assoc]

/-- PushLoad leaves the bits already placed (R86). -/
theorem Enc.pushLoad_bitIndex (v w : Nat) (e : Enc) : (e.pushLoad v w).bitIndex = e.bitIndex := by
  rcases Enc.pushLoad_cases v w e with ⟨-, heq⟩ | ⟨-, heq⟩ <;> rw [heq]

/-- A PushField that STALLs has used every slot, and bits are left (R88). -/
theorem Enc.pushField_stall {v w room : Nat} {e : Enc} (h : (e.pushField v w room).2.2 = false)
    (hbit : 1 ≤ e.bitIndex) :
    0 < (e.pushField v w room).1.outgoingBitsCount ∧ (e.pushField v w room).2.1.length = room := by
  obtain ⟨hpos, hused, -⟩ := Enc.pushLoop_stall (Prod.ext rfl (Prod.ext rfl h))
    (hbit.trans_eq (Enc.pushLoad_bitIndex v w e).symm) (Nat.le_succ _)
  exact ⟨hpos, hused⟩

end Sys2Proof.Machine
end

section
/-! PROOFS. PushField keeps the bit string, and FlushPad fills the partial byte (O35, O36). -/

namespace Sys2Proof.Machine

/-- Settles O35: the load appends the field to the pending bits, and the loop keeps them. -/
theorem pushFieldKeepsTheBits : Obligations.PushFieldKeepsTheBits := by
  unfold Obligations.PushFieldKeepsTheBits
  intro v w room e _ hw hv hnone hbit hbit' hpartial
  have hacc : (e.pushLoad v w).AccumulatorSound := by
    rw [Enc.pushLoad, if_pos hnone]
    exact ⟨hw, ⟨hbit, hbit'⟩, Nat.lt_of_le_of_lt (Nat.mod_le _ _) hv, hpartial⟩
  exact ⟨hacc.pushLoop_bits.trans (Enc.pushLoad_bits hnone hw v),
    fun hdone => ⟨hacc.pushLoop.2 hdone, Enc.pushLoop_length _ _ _⟩,
    fun hstall => Enc.pushField_stall hstall hbit, Enc.pushField_frame v w room e⟩

/-- A field of ones is ones (R14). -/
theorem fieldBits_ones (k : Nat) : fieldBits k (2 ^ k - 1) = List.replicate k true := by
  rw [← bitsValue_replicate_true, fieldBits_bitsValue List.length_replicate]

/-- The byte FlushPad emits: the placed bits, then ones (R90). -/
theorem Enc.AccumulatorSound.byteBits_padded {e : Enc} (h : e.AccumulatorSound) :
    byteBits (e.currentByte ||| BitVec.ofNat 8 (2 ^ e.bitIndex - 1)) =
      fieldBits (8 - e.bitIndex) (e.currentByte.toNat >>> e.bitIndex) ++ List.replicate e.bitIndex true := by
  have hplace := h.fieldBits_place (Nat.le_refl e.bitIndex) (Nat.sub_one_lt (Nat.two_pow_pos e.bitIndex).ne')
  rwa [Nat.sub_self, Nat.shiftLeft_zero, Nat.shiftRight_zero, fieldBits_ones] at hplace

/-- Settles O36: the three cases of FlushPad. -/
theorem flushPadFillsWithOnes : Obligations.FlushPadFillsWithOnes := by
  unfold Obligations.FlushPadFillsWithOnes
  intro room e hbit hbit' hpartial
  refine ⟨fun hempty => if_pos hempty, fun hplaced hroom => ?_, fun hplaced hroom => ?_⟩
  · rw [Enc.flushPad, if_neg hplaced.ne, if_pos hroom]
  · have hacc : { e with outgoingBits := 0, outgoingBitsCount := 0 }.AccumulatorSound :=
      ⟨Nat.zero_le _, ⟨hbit, hbit'⟩, Nat.one_pos, hpartial⟩
    exact ⟨_, by rw [Enc.flushPad, if_neg hplaced.ne, if_neg hroom.ne'], hacc.byteBits_padded⟩

end Sys2Proof.Machine
end

section
/-! SUPPORT. A Yield state of ENC, whichever of the four it is: the field it pushes and what follows it. Both are fixed
by the registers outside the accumulator, so a state that stalled goes on with the same field (R88, R89, R107 to
R111). -/

namespace Sys2Proof.Machine

/-- The encoder `e` with the accumulator of `a`. -/
def Enc.withAccumulatorOf (e a : Enc) : Enc :=
  { e with
    outgoingBits := a.outgoingBits, outgoingBitsCount := a.outgoingBitsCount
    currentByte := a.currentByte, bitIndex := a.bitIndex }

/-- PushField changes the accumulator only (R88). -/
theorem Enc.pushField_withAccumulatorOf (v w room : Nat) (e : Enc) :
    (e.pushField v w room).1 = e.withAccumulatorOf (e.pushField v w room).1 :=
  (congrArg (Enc.withAccumulatorOf · (e.pushField v w room).1) (Enc.pushField_frame v w room e) :)

/-- What does not depend on the accumulator stays the same in a PushField (R88). -/
theorem Enc.pushField_same {α : Type} {f : Enc → α} (hf : ∀ e a : Enc, f (e.withAccumulatorOf a) = f e)
    (v w room : Nat) (e : Enc) : f (e.pushField v w room).1 = f e := by
  rw [Enc.pushField_withAccumulatorOf]
  exact hf e _

/-- The field of a Yield state: its number and its width (R107, R108, R110, R111). -/
def Enc.field (e : Enc) : Nat × Nat :=
  match e.state with
  | .yieldTagBit => (if e.matchLength = 0 then 1 else 0, 1)
  | .yieldLiteral => ((e.buf.read e.position).toNat, 8)
  | .yieldBackRefIndex => (e.position - e.matchPos - 1, e.W)
  | .yieldBackRefLength => (e.matchLength - 2, e.L)
  | _ => (0, 0)

/-- ENC with `n` more bytes of the block coded, after a token (R109). -/
def Enc.afterBytes (n : Nat) (e : Enc) : Enc :=
  { e with
    matchScanIndex := e.matchScanIndex + n, state := Enc.afterToken (e.matchScanIndex + n) e.inputSize }

/-- What follows the field of a Yield state (R107 to R111). -/
def Enc.afterField (e : Enc) : Enc :=
  match e.state with
  | .yieldTagBit => { e with state := if e.matchLength = 0 then .yieldLiteral else .yieldBackRefIndex }
  | .yieldLiteral => e.afterBytes 1
  | .yieldBackRefIndex => { e with state := .yieldBackRefLength }
  | .yieldBackRefLength => e.afterBytes e.matchLength
  | _ => e

/-- A Yield state's turn depends on what follows the field only as it acts on the unit with another accumulator
(R88). -/
theorem Enc.yieldField_congr {v w room : Nat} {e : Enc} {next next' : Enc → Enc}
    (h : ∀ a, next (e.withAccumulatorOf a) = next' (e.withAccumulatorOf a)) :
    e.yieldField v w room next = e.yieldField v w room next' := by
  have hpushed : next (e.pushField v w room).1 = next' (e.pushField v w room).1 := by
    rw [Enc.pushField_withAccumulatorOf]
    exact h _
  rw [Enc.yieldField, Enc.yieldField, hpushed]

section
variable {e : Enc}

/-- The field of a Yield state fits its width, at most 15 bits (R86, R107 to R111). -/
theorem Enc.Sound.field_fits (h : e.Sound) (hyield : e.state.isYield = true) :
    e.field.1 < 2 ^ e.field.2 ∧ e.field.2 ≤ 15 := by
  obtain ⟨-, hW, -, hLW⟩ := legalParameters_iff.1 h.legal
  cases hst : e.state <;> simp only [hst, EncState.isYield, Bool.false_eq_true] at hyield
  case yieldTagBit =>
    simp only [Enc.field, hst]
    split <;> simp
  case yieldLiteral =>
    simp only [Enc.field, hst]
    exact ⟨BitVec.isLt _, by decide⟩
  case yieldBackRefIndex =>
    obtain ⟨hhigh, hlow⟩ := h.backref_index hst
    simp only [Enc.field, hst]
    exact ⟨by unfold Enc.N at hlow; omega, hW⟩
  case yieldBackRefLength =>
    obtain ⟨htwo, hM, -⟩ := h.backref_length hst
    simp only [Enc.field, hst]
    exact ⟨by unfold Enc.M at hM; omega, by omega⟩

/-- The action of a Yield state: push its field, then what follows it (R107 to R111). -/
theorem Enc.Sound.stateAction_yield (h : e.Sound) (hyield : e.state.isYield = true) (room : Nat) :
    e.stateAction room = .ok (e.yieldField e.field.1 e.field.2 room Enc.afterField) := by
  cases hst : e.state <;> simp only [hst, EncState.isYield, Bool.false_eq_true] at hyield
  case yieldTagBit =>
    by_cases hliteral : e.matchLength = 0
    · simp only [Enc.stateAction, hst, Enc.stepYieldTagBit, if_pos hliteral, Enc.field]
      exact congrArg Except.ok (Enc.yieldField_congr fun a => by
        simp only [Enc.afterField, Enc.withAccumulatorOf, hst, if_pos hliteral])
    · simp only [Enc.stateAction, hst, Enc.stepYieldTagBit, if_neg hliteral, Enc.field]
      exact congrArg Except.ok (Enc.yieldField_congr fun a => by
        simp only [Enc.afterField, Enc.withAccumulatorOf, hst, if_neg hliteral])
  case yieldLiteral =>
    have hmsi := h.yielding (by rw [hst]; rfl)
    obtain ⟨hsize, -⟩ := (Enc.inRange_iff e).1 h.ranges
    have hinside : e.position < 2 * e.N := by unfold Enc.position; omega
    simp only [Enc.stateAction, hst, Enc.stepYieldLiteral, Enc.field, if_pos hinside]
    exact congrArg Except.ok (Enc.yieldField_congr fun a => by
      simp only [Enc.afterField, Enc.afterBytes, Enc.withAccumulatorOf, hst])
  case yieldBackRefIndex =>
    simp only [Enc.stateAction, hst, Enc.stepYieldBackRefIndex, Enc.field, if_pos (h.backref_index hst)]
    exact congrArg Except.ok (Enc.yieldField_congr fun a => by
      simp only [Enc.afterField, Enc.withAccumulatorOf, hst])
  case yieldBackRefLength =>
    obtain ⟨htwo, hM, -⟩ := h.backref_length hst
    simp only [Enc.stateAction, hst, Enc.stepYieldBackRefLength, Enc.field, if_pos (And.intro htwo hM)]
    exact congrArg Except.ok (Enc.yieldField_congr fun a => by
      simp only [Enc.afterField, Enc.afterBytes, Enc.withAccumulatorOf, hst])

/-- An action of a sound ENC is its micro-step (R17, R100). -/
theorem Enc.Sound.microStep_of_stateAction {room : Nat} {t : Turn Enc} (h : e.Sound) (ht : e.stateAction room = .ok t) :
    e.microStep room = .ok t := by
  obtain ⟨t', ht', -⟩ := Enc.microStep_follows h room
  cases ht.symm.trans (Enc.microStep_ok ht').1
  exact ht'

/-- The micro-step of a Yield state (R107 to R111). -/
theorem Enc.Sound.microStep_yield (h : e.Sound) (hyield : e.state.isYield = true) (room : Nat) :
    e.microStep room = .ok (e.yieldField e.field.1 e.field.2 room Enc.afterField) :=
  h.microStep_of_stateAction (h.stateAction_yield hyield room)

/-- A micro-step of a sound ENC leaves it sound. -/
theorem Enc.Sound.microStep {room : Nat} {t : Turn Enc} (h : e.Sound) (ht : e.microStep room = .ok t) :
    t.unit.Sound := by
  obtain ⟨t', ht', hfollows⟩ := Enc.microStep_follows h room
  cases ht.symm.trans ht'
  exact hfollows.sound

end

end Sys2Proof.Machine
end

section
/-! SUPPORT. More slots for a micro-step of ENC: one that continues is the same, and one that stalls goes on as the next
POLL would (R89, R100). -/

namespace Sys2Proof.Machine

/-- A PushField that is DONE is the same with more slots (R88). -/
theorem Enc.pushField_room {v w room : Nat} {e : Enc} (hdone : (e.pushField v w room).2.2 = true)
    (hbit : 1 ≤ e.bitIndex) (more : Nat) : e.pushField v w (room + more) = e.pushField v w room :=
  (Enc.pushLoop_room (Prod.ext rfl (Prod.ext rfl hdone)) (hbit.trans_eq (Enc.pushLoad_bitIndex v w e).symm) more).trans
    (Prod.ext rfl (Prod.ext rfl hdone.symm))

/-- With a field in progress PushField goes on with it (R86). -/
theorem Enc.pushField_of_pending {e : Enc} (hpos : 0 < e.outgoingBitsCount) (v w room : Nat) :
    e.pushField v w room = Enc.pushLoop (e.outgoingBitsCount + 1) room e := by
  rw [Enc.pushField, Enc.pushLoad, if_neg hpos.ne']

/-- With more slots a PushField that STALLs is this push, and then one that is entered again (R86, R88, R89). -/
theorem Enc.pushField_resume {v w room : Nat} {e : Enc} (hstall : (e.pushField v w room).2.2 = false)
    (hbit : 1 ≤ e.bitIndex) (more : Nat) :
    e.pushField v w (room + more) =
      Enc.pushAfter (e.pushField v w room).2.1 ((e.pushField v w room).1.pushField v w more) := by
  obtain ⟨hpos, -, hgo⟩ := Enc.pushLoop_stall (Prod.ext rfl (Prod.ext rfl hstall))
    (hbit.trans_eq (Enc.pushLoad_bitIndex v w e).symm) (Nat.le_succ _)
  rw [Enc.pushField_of_pending (e := (e.pushField v w room).1) hpos]
  exact hgo _ more (Nat.le_succ _)

/-- The turn `t` after the bytes `out`. -/
def Turn.after {σ : Type} (out : List Byte) (t : Turn σ) : Turn σ := { t with out := out ++ t.out }

/-- With more slots a Yield state that stalls is this turn, and then one of the stalled unit (R88, R89). -/
theorem Enc.yieldField_resume {v w room : Nat} {e : Enc} (hstall : (e.pushField v w room).2.2 = false)
    (hbit : 1 ≤ e.bitIndex) (more : Nat) (next : Enc → Enc) :
    e.yieldField v w (room + more) next =
      ((e.pushField v w room).1.yieldField v w more next).after (e.pushField v w room).2.1 := by
  rw [Enc.yieldField, Enc.pushField_resume hstall hbit, Enc.yieldField]
  cases hdone : ((e.pushField v w room).1.pushField v w more).2.2 <;> simp [Enc.pushAfter, Turn.after, hdone]

section
variable {e : Enc} {room : Nat} {t : Turn Enc}

/-- Away from the Yield states and FlushBits a micro-step needs no slot, and never stalls (R100). -/
theorem Enc.stateAction_slotless (hyield : e.state.isYield = false) (hflush : e.state ≠ .flushBits)
    (h : e.stateAction room = .ok t) : t.outcome ≠ .stall ∧ ∀ room', e.stateAction room' = .ok t := by
  cases hst : e.state <;>
    simp only [hst, EncState.isYield, Bool.true_eq_false, ne_eq, not_true_eq_false] at hyield hflush
  all_goals simp only [Enc.stateAction, hst] at h ⊢
  all_goals refine ⟨?_, fun _ => h⟩
  case notFull =>
    unfold Enc.stepNotFull at h
    split_ifs at h <;> cases h <;> nofun
  case filled =>
    unfold Enc.stepFilled at h
    split_ifs at h <;> cases h <;> nofun
  case search =>
    unfold Enc.stepSearch at h
    dsimp only at h
    split_ifs at h
    · cases h
      nofun
    · split at h
      · cases h
      · split_ifs at h <;> cases h <;> nofun
  case saveBacklog =>
    cases h
    nofun
  case done =>
    cases h
    nofun

/-- With more slots a micro-step of FlushBits that does not stall is the same (R90, R114). -/
theorem Enc.stateAction_flush_room (hst : e.state = .flushBits) (h : e.stateAction room = .ok t) (more : Nat) :
    (t.outcome = .continues → e.stateAction (room + more) = .ok t) ∧
    (t.outcome = .stall → room = 0 ∧ t = .stop e .stall) := by
  simp only [Enc.stateAction, hst, Enc.stepFlushBits, Enc.flushPad] at h ⊢
  by_cases hempty : e.bitIndex = 8
  · simp only [if_pos hempty] at h ⊢
    cases h
    exact ⟨fun _ => rfl, nofun⟩
  · simp only [if_neg hempty] at h ⊢
    by_cases hroom : room = 0
    · simp only [if_pos hroom] at h
      cases h
      exact ⟨nofun, fun _ => ⟨hroom, rfl⟩⟩
    · simp only [if_neg hroom] at h
      cases h
      exact ⟨fun _ => by simp [hroom], nofun⟩

/-- A micro-step of a sound ENC that continues is the same with more slots (R89, R100). -/
theorem Enc.Sound.microStep_room (h : e.Sound) (ht : e.microStep room = .ok t) (hcontinues : t.outcome = .continues)
    (more : Nat) : e.microStep (room + more) = .ok t := by
  have haction := (Enc.microStep_ok ht).1
  by_cases hyield : e.state.isYield = true
  · cases (h.stateAction_yield hyield room).symm.trans haction
    rcases Enc.yieldField_cases e.field.1 e.field.2 room e Enc.afterField with ⟨hdone, heq⟩ | ⟨-, heq⟩
    · have hsame := Enc.pushField_room hdone h.accumulator.bitIndex.1 more
      rw [h.microStep_yield hyield, Enc.yieldField, hsame]
      rfl
    · simp [heq] at hcontinues
  · refine h.microStep_of_stateAction ?_
    by_cases hflush : e.state = .flushBits
    · exact (Enc.stateAction_flush_room hflush haction more).1 hcontinues
    · exact (Enc.stateAction_slotless (by simpa using hyield) hflush haction).2 _

/-- A micro-step of a sound ENC that stalls has used every slot. With more slots it goes on as a micro-step of the
stalled unit does (R89, R100; log 10). -/
theorem Enc.Sound.microStep_resume (h : e.Sound) (ht : e.microStep room = .ok t) (hstall : t.outcome = .stall) :
    t.out.length = room ∧ ∀ {more : Nat} {t' : Turn Enc}, t.unit.microStep more = .ok t' →
      e.microStep (room + more) = .ok (t'.after t.out) := by
  have haction := (Enc.microStep_ok ht).1
  by_cases hyield : e.state.isYield = true
  · have hsound := h.microStep ht
    cases (h.stateAction_yield hyield room).symm.trans haction
    rcases Enc.yieldField_cases e.field.1 e.field.2 room e Enc.afterField with ⟨-, heq⟩ | ⟨hstalled, heq⟩
    · simp [heq] at hstall
    rw [heq] at hsound ⊢
    have hbit := h.accumulator.bitIndex.1
    refine ⟨(Enc.pushField_stall hstalled hbit).2, fun {more t'} ht' => ?_⟩
    have hfield := Enc.pushField_same (f := Enc.field) (fun _ _ => rfl) e.field.1 e.field.2 room e
    have hyield' :=
      (Enc.pushField_same (f := (·.state.isYield)) (fun _ _ => rfl) e.field.1 e.field.2 room e).trans hyield
    cases (hsound.microStep_yield hyield' more).symm.trans ht'
    rw [h.microStep_yield hyield, Enc.yieldField_resume hstalled hbit, hfield]
  · by_cases hflush : e.state = .flushBits
    · obtain ⟨rfl, rfl⟩ := (Enc.stateAction_flush_room hflush haction 0).2 hstall
      exact ⟨rfl, fun {more t'} ht' => by rwa [Nat.zero_add]⟩
    · exact absurd hstall (Enc.stateAction_slotless (by simpa using hyield) hflush haction).1

end

end Sys2Proof.Machine
end

section
/-! PROOFS. ENC.POLL as a run under some bound, and two POLLs in a row (O25). -/

namespace Sys2Proof.Machine

/-- A POLL has one answer, whatever bound it is found under (R116, R149). -/
theorem pollLoop_unique {σ : Type} {micro : Nat → σ → Except Fault (Turn σ)} {bound : Fault} {left left' room : Nat}
    {u : σ} {r r' : σ × List Byte × Status} (h : pollLoop micro bound left room u = .ok r)
    (h' : pollLoop micro bound left' room u = .ok r') : r = r' :=
  Except.ok.inj ((pollLoop_of_le (Nat.le_max_left left left') h).symm.trans (pollLoop_of_le (Nat.le_max_right _ _) h'))

/-- ENC.POLL from `e`, within some bound: the bytes emitted, the status, the unit after it (R98). -/
def Enc.PollRun (room : Nat) (e : Enc) (out : List Byte) (st : Status) (e' : Enc) : Prop :=
  ∃ left, pollLoop Enc.microStep (.microStepBound .enc) left room e = .ok (e', out, st)

section
variable {room : Nat} {e e' : Enc} {out : List Byte} {st : Status}

/-- A POLL of a sound encoder within some bound is its POLL within the bound of R116. -/
theorem Enc.PollRun.poll (h : e.PollRun room out st e') (hs : e.Sound) : e.poll room = .ok (e', out, st) := by
  obtain ⟨left, hrun⟩ := h
  obtain ⟨e₁, out₁, st₁, hpoll, -⟩ := Enc.poll_answers hs room
  cases pollLoop_unique hrun hpoll
  exact hpoll

/-- A POLL begins with a micro-step that continues, and goes on from it (R98). -/
theorem Enc.PollRun.step {t : Turn Enc} (ht : e.microStep room = .ok t) (hcontinues : t.outcome = .continues)
    (h : t.unit.PollRun (room - t.out.length) out st e') : e.PollRun room (t.out ++ out) st e' := by
  obtain ⟨left, hrest⟩ := h
  exact ⟨left + 1, by simp only [pollLoop, ht, hcontinues, Micro.pollStatus, hrest]⟩

/-- A POLL ends with a micro-step that does not continue (R98). -/
theorem Enc.PollRun.last {t : Turn Enc} (ht : e.microStep room = .ok t) (hst : t.outcome.pollStatus = some st) :
    e.PollRun room t.out st t.unit :=
  ⟨1, by simp only [pollLoop, ht, hst]⟩

/-- Everything the first micro-step of a POLL can be (R98). -/
theorem Enc.PollRun.first (h : e.PollRun room out st e') :
    ∃ t, e.microStep room = .ok t ∧
      ((t.outcome.pollStatus = some st ∧ e' = t.unit ∧ out = t.out) ∨
       (t.outcome = .continues ∧ ∃ rest, t.unit.PollRun (room - t.out.length) rest st e' ∧ out = t.out ++ rest)) := by
  obtain ⟨left, hrun⟩ := h
  obtain ⟨left', t, -, ht, hcase⟩ := pollLoop_ok hrun
  exact ⟨t, ht, hcase.imp_right fun ⟨hcontinues, rest, hrest, hout⟩ =>
    ⟨Micro.pollStatus_none hcontinues, rest, ⟨left', hrest⟩, hout⟩⟩

/-- Induction over the POLL of a sound encoder: from the micro-step that ends it, backwards over those that continue
(R98). -/
theorem Enc.PollRun.induction {R : Nat → Enc → List Byte → Prop}
    (hlast : ∀ {room e t}, e.Sound → e.microStep room = .ok t → t.outcome.pollStatus = some st → t.unit = e' →
      R room e t.out)
    (hmore : ∀ {room e t rest}, e.Sound → e.microStep room = .ok t → t.outcome = .continues →
      R (room - t.out.length) t.unit rest → R room e (t.out ++ rest))
    (h : e.Sound) (hrun : e.PollRun room out st e') : R room e out := by
  obtain ⟨left, hrun⟩ := hrun
  induction left generalizing room e out with
  | zero => cases hrun
  | succ left ih =>
    obtain ⟨left', t, hleft, ht, hcase⟩ := pollLoop_ok hrun
    obtain rfl : left = left' := Nat.succ.inj hleft
    rcases hcase with ⟨hst, rfl, rfl⟩ | ⟨hcontinues, rest, hrest, rfl⟩
    · exact hlast h ht hst rfl
    · exact hmore h ht (Micro.pollStatus_none hcontinues) (ih (h.microStep ht) hrest)

/-- A micro-step that stalls, and then a POLL of the stalled unit, are one POLL with the slots of both (R89). -/
theorem Enc.Sound.pollRun_of_stall {t : Turn Enc} (h : e.Sound) (ht : e.microStep room = .ok t)
    (hstall : t.outcome = .stall) {more : Nat} (hrun : t.unit.PollRun more out st e') :
    e.PollRun (room + more) (t.out ++ out) st e' := by
  obtain ⟨hused, hresume⟩ := h.microStep_resume ht hstall
  obtain ⟨t', ht', ⟨hst, rfl, rfl⟩ | ⟨hcontinues, rest, hrest, rfl⟩⟩ := hrun.first
  · exact .last (hresume ht') hst
  · have hslots : room + more - (t'.after t.out).out.length = more - t'.out.length := by
      simp only [Turn.after, List.length_append, hused]
      omega
    have hstep := Enc.PollRun.step (hresume ht') hcontinues (hslots ▸ hrest)
    simpa only [Turn.after, List.append_assoc] using hstep

/-- A POLL that responds MORE, and then a second POLL, are one POLL with the slots of both, by induction on the first
(R89, R119). -/
theorem Enc.Sound.pollRun_append {more : Nat} {e'' : Enc} {out' : List Byte} (h : e.Sound)
    (hrun : e.PollRun room out .more e') (hrun' : e'.PollRun more out' st e'') :
    e.PollRun (room + more) (out ++ out') st e'' := by
  refine Enc.PollRun.induction (R := fun room e out => e.PollRun (room + more) (out ++ out') st e'')
    (fun {room e t} h ht hst heq => ?_) (fun {room e t rest} h ht hcontinues hrest => ?_) h hrun
  · have hstall : t.outcome = .stall := by cases ho : t.outcome <;> simp [ho, Micro.pollStatus] at hst ⊢
    exact h.pollRun_of_stall ht hstall (heq ▸ hrun')
  · have hlen := (Enc.microStep_does ht).length
    rw [List.append_assoc]
    exact .step (h.microStep_room ht hcontinues more) hcontinues (Nat.sub_add_comm hlen ▸ hrest)

/-- A POLL keeps the configuration and the flags (R18, R22). -/
theorem Enc.PollRun.configuration (h : e.PollRun room out st e') : e'.configuration = e.configuration := by
  obtain ⟨left, hrun⟩ := h
  exact pollLoop_keeps (P := fun u => u.configuration = e.configuration)
    (fun _ _ _ hu ht => (Enc.microStep_does ht).configuration.trans hu) rfl hrun

/-- A POLL leaves a usable encoder usable (R44). -/
theorem Enc.PollRun.usable (h : e.PollRun room out st e') : e'.usable = e.usable :=
  (congrArg (fun c : Bool × Nat × Nat × Bool × Bool × Bool × Nat => c.1 && !c.2.2.2.2.1) h.configuration :)

/-- What ENC.POLL of a usable encoder answers (R98). -/
theorem execEncPoll_run {capacity : Nat} {s t : State} {r : Response} (husable : s.enc.usable = true)
    (h : execEncPoll capacity s = .next t) (hresponse : t.response = some r) :
    ∃ e, s.enc.PollRun capacity r.out r.status e ∧ t = (s.setEnc e).setResponse r := by
  rcases execEncPoll_next h with ⟨hnot, -⟩ | ⟨-, e, out, st, hpoll, rfl⟩
  · simp [husable] at hnot
  · cases hresponse
    exact ⟨e, ⟨_, hpoll⟩, rfl⟩

/-- ENC.POLL answers what its run says (R98). -/
theorem Enc.PollRun.exec {s : State} (hrun : s.enc.PollRun room out st e') (h : s.enc.Sound)
    (husable : s.enc.usable = true) :
    execEncPoll room s = .next ((s.setEnc e').setResponse ⟨st, out.length, out⟩) := by
  rw [execEncPoll, husable, hrun.poll h]
  rfl

end

/-- Settles O25: the second POLL goes on from the micro-step in which the first one stalled. -/
theorem encPollInPartsIsOnePoll : Obligations.EncPollInPartsIsOnePoll := by
  unfold Obligations.EncPollInPartsIsOnePoll
  intro a b s t u st n out out' hsound husable ha hmore hb hresponse
  obtain ⟨e, hrun, rfl⟩ := execEncPoll_run husable ha hmore
  obtain ⟨e', hrun', rfl⟩ :=
    execEncPoll_run (s := (s.setEnc e).setResponse _) (hrun.usable.trans husable) hb hresponse
  exact (hsound.pollRun_append hrun hrun').exec hsound husable

end Sys2Proof.Machine
end

section
/-! SUPPORT. The match that Search finds, by either search, agrees with the bytes at `p` (R104, R125), so copying it
back gives those bytes (R63). -/

namespace Sys2Proof.Machine

/-- No bytes agree. -/
theorem agree_zero (buf : ByteMemory) (q p : Nat) : agree buf q p 0 := fun j hj => absurd hj (Nat.not_lt_zero j)

/-- `k` agreeing bytes and the next one agreeing are `k + 1` agreeing bytes. -/
theorem agree.snoc {buf : ByteMemory} {q p k : Nat} (h : agree buf q p k)
    (hnext : buf.read (q + k) = buf.read (p + k)) : agree buf q p (k + 1) := by
  intro j hj
  rcases Nat.lt_succ_iff_lt_or_eq.1 hj with hlt | rfl
  · exact h j hlt
  · exact hnext

/-- The bytes that `len(q)` counts agree (R104). -/
theorem matchLen_agrees {buf : ByteMemory} {q p k : Nat} (h : agree buf q p k) (left : Nat) :
    agree buf q p (matchLen buf q p left k) := by
  induction left generalizing k with
  | zero => exact h
  | succ left ih =>
    unfold matchLen
    split
    · next hnext => exact ih (h.snoc hnext)
    · exact h

section
variable {buf : ByteMemory} {p maxlen : Nat} {best : Nat × Nat}

/-- A better candidate's match agrees (R125). -/
theorem tryCandidate_agrees (h : agree buf best.2 p best.1) (q : Nat) :
    agree buf (tryCandidate buf p maxlen q best).2 p (tryCandidate buf p maxlen q best).1 := by
  unfold tryCandidate
  dsimp only
  split_ifs
  · exact matchLen_agrees (agree_zero buf q p) maxlen
  · exact h
  · exact h

/-- The match of the linear scan agrees (R104). -/
theorem scanFrom_agrees {low n : Nat} (hn : low + n ≤ p) (h : agree buf best.2 p best.1) :
    agree buf (scanFrom buf p maxlen low n best).2 p (scanFrom buf p maxlen low n best).1 := by
  induction n generalizing best with
  | zero => exact h
  | succ n ih =>
    have hbest := tryCandidate_agrees (maxlen := maxlen) h (low + n)
    rw [scanFrom_succ buf (by omega)]
    split
    · exact hbest
    · exact ih (by omega) hbest

/-- The match of the walk along a chain agrees (R125). -/
theorem walkChain_agrees {N left : Nat} {next : LinkMemory} {entry : Option Nat} {best' : Nat × Nat}
    (h : agree buf best.2 p best.1) (hwalk : walkChain N buf next p maxlen left entry best = .ok best') :
    agree buf best'.2 p best'.1 := by
  induction left generalizing entry best with
  | zero =>
    cases hwalk
    exact h
  | succ left ih =>
    cases entry with
    | none =>
      cases hwalk
      exact h
    | some q =>
      have hbest := tryCandidate_agrees (maxlen := maxlen) h q
      rw [walkChain] at hwalk
      dsimp only at hwalk
      split_ifs at hwalk
      · cases hwalk
        exact h
      · cases hwalk
        exact hbest
      · split at hwalk
        · cases hwalk
        · exact ih hbest hwalk

/-- A match that counts agrees (R105). -/
theorem atLeastTwo_agrees (h : agree buf best.2 p best.1) : agree buf (atLeastTwo best).2 p (atLeastTwo best).1 := by
  unfold atLeastTwo
  split
  · exact h
  · exact agree_zero buf 0 p

end

/-- The match that the search of a block finds agrees, whichever search `INDEXED` selects (R103 to R106). -/
theorem Enc.findMatch_agrees {e : Enc} {maxlen : Nat} {found : Nat × Nat}
    (h : e.findMatch e.position maxlen = .ok found) : agree e.buf found.2 e.position found.1 := by
  have hstart : agree e.buf (0, 0).2 e.position (0, 0).1 := agree_zero _ _ _
  unfold Enc.findMatch at h
  split at h
  · unfold indexedMatch at h
    split at h
    · cases h
      exact hstart
    · cases hwalk : walkChain e.N e.buf e.next e.position maxlen (chainCap e.N)
        (e.head.read (prefix2 e.buf e.position)) (0, 0) with
      | error f => simp [hwalk, Except.map] at h
      | ok best =>
        simp only [hwalk, Except.map, Except.ok.injEq] at h
        exact h ▸ atLeastTwo_agrees (walkChain_agrees hstart hwalk)
  · cases h
    exact atLeastTwo_agrees (scanFrom_agrees (by unfold Enc.position; omega) hstart)

section
variable (e : Enc)

/-- Bytes of `BUF`, and the bytes right after them. -/
theorem Enc.bufBytes_add (base m n : Nat) : e.bufBytes base (m + n) = e.bufBytes base m ++ e.bufBytes (base + m) n := by
  simp [Enc.bufBytes, List.range_add, Nat.add_assoc, Function.comp_def]

/-- The first `p` bytes of `BUF`, and the bytes right after them. -/
theorem Enc.bufBytes_append (p n : Nat) : e.bufBytes 0 p ++ e.bufBytes p n = e.bufBytes 0 (p + n) := by
  rw [e.bufBytes_add, Nat.zero_add]

/-- The byte at `p`. -/
theorem Enc.bufBytes_one (p : Nat) : e.bufBytes p 1 = [e.buf.read p] := rfl

/-- The byte `D` back from `p` (R68). -/
theorem Enc.byteBack_bufBytes {D p : Nat} (hD : 1 ≤ D) (hp : D ≤ p) :
    byteBack (e.bufBytes 0 p) D = e.buf.read (p - D) := by
  have hlt : p - D < p := by omega
  simp [byteBack, Enc.bufBytes, List.getD_eq_getElem?_getD, hlt]

/-- Copying a match back, byte by byte, gives the bytes it agrees with (R63). -/
theorem Enc.copyBytes_bufBytes {D p n : Nat} (hD : 1 ≤ D) (hp : D ≤ p) (h : agree e.buf (p - D) p n) :
    copyBytes D n (e.bufBytes 0 p) = e.bufBytes p n := by
  induction n generalizing p with
  | zero => rfl
  | succ n ih =>
    have hbyte : e.buf.read (p - D) = e.buf.read p := h 0 (Nat.succ_pos n)
    have hrest : agree e.buf (p + 1 - D) (p + 1) n := fun j hj => by
      have := h (j + 1) (Nat.succ_lt_succ hj)
      rwa [show p - D + (j + 1) = p + 1 - D + j by omega, show p + (j + 1) = p + 1 + j by omega] at this
    rw [copyBytes, e.byteBack_bufBytes hD hp, hbyte, ← e.bufBytes_one, e.bufBytes_append, ih (by omega) hrest,
      Nat.add_comm n 1, e.bufBytes_add]
    rfl

/-- A token that stands for the next `n` bytes, and tokens that stand for the `m` bytes after those. -/
theorem Enc.expandTokens_bufBytes {p n m : Nat} {i : Instr} {is : List Instr}
    (hi : expandToken (e.bufBytes 0 p) i = e.bufBytes p n)
    (his : expandTokens (e.bufBytes 0 (p + n)) is = e.bufBytes (p + n) m) :
    expandTokens (e.bufBytes 0 p) (i :: is) = e.bufBytes p (n + m) := by
  rw [expandTokens, hi, e.bufBytes_append, his, e.bufBytes_add]

end

end Sys2Proof.Machine
end

section
/-! SUPPORT. What of a block is coded so far: the token under way, its bits still to be pushed, and how far the bits
pushed and to be pushed for it reach (R103 to R111). -/

namespace Sys2Proof.Machine

section
variable (e : Enc)

/-- The token that ENC is about to push or is pushing (R107). -/
def Enc.token : Instr :=
  if e.matchLength = 0 then .lit (e.buf.read e.position)
  else .bref (e.position - e.matchPos - 1) (e.matchLength - 2)

/-- How many bytes the token codes (R108, R111). -/
def Enc.tokenLength : Nat := if e.matchLength = 0 then 1 else e.matchLength

/-- How many bytes of the lookahead are coded, those of the token under way included. -/
def Enc.codedTo : Nat :=
  match e.state with
  | .notFull | .filled => 0
  | .search => e.matchScanIndex
  | .yieldTagBit | .yieldLiteral | .yieldBackRefIndex | .yieldBackRefLength => e.matchScanIndex + e.tokenLength
  | .saveBacklog | .flushBits | .done => e.inputSize

/-- The bits of the token under way that are still to be pushed (R66, R67). -/
def Enc.bitsAhead : List Bool :=
  match e.state with
  | .yieldTagBit => tokenBits e.W e.L e.token
  | .yieldLiteral => byteBits (e.buf.read e.position)
  | .yieldBackRefIndex => fieldBits e.W (e.position - e.matchPos - 1) ++ fieldBits e.L (e.matchLength - 2)
  | .yieldBackRefLength => fieldBits e.L (e.matchLength - 2)
  | .notFull | .filled | .search | .saveBacklog | .flushBits | .done => []

end

section
variable {e : Enc}

/-- Away from the Yield states no bit is ahead. -/
theorem Enc.bitsAhead_eq_nil (hyield : e.state.isYield = false) : e.bitsAhead = [] := by
  unfold Enc.bitsAhead
  cases hst : e.state <;> simp only [hst, EncState.isYield, Bool.true_eq_false] at hyield ⊢

/-- After a token no bit of it is ahead (R109). -/
theorem Enc.bitsAhead_afterBytes (e : Enc) (n : Nat) : (e.afterBytes n).bitsAhead = [] := by
  refine Enc.bitsAhead_eq_nil ?_
  simp only [Enc.afterBytes, Enc.afterToken]
  split_ifs <;> rfl

/-- After a token its bytes are coded (R109). -/
theorem Enc.codedTo_afterBytes {n : Nat} (h : e.matchScanIndex + n ≤ e.inputSize) :
    (e.afterBytes n).codedTo = e.matchScanIndex + n := by
  simp only [Enc.codedTo, Enc.afterBytes, Enc.afterToken]
  split_ifs with hend
  · exact Nat.le_antisymm hend h
  · rfl

/-- The token under way lies inside the lookahead (R41). -/
theorem Enc.Sound.tokenLength_le (h : e.Sound) (hyield : e.state.isYield = true) :
    e.matchScanIndex + e.tokenLength ≤ e.inputSize := by
  have hmsi := h.yielding hyield
  obtain ⟨-, -, hlength, -⟩ := (Enc.inRange_iff e).1 h.ranges
  unfold Enc.tokenLength
  split_ifs with hliteral
  · exact hmsi
  · exact (h.matchInside hyield (hlength.resolve_left hliteral).1).1

/-- The field of a Yield state is the next part of the token's bits (R66, R67, R107 to R111). -/
theorem Enc.bitsAhead_yield (hyield : e.state.isYield = true) :
    e.bitsAhead = fieldBits e.field.2 e.field.1 ++ e.afterField.bitsAhead := by
  cases hst : e.state <;> simp only [hst, EncState.isYield, Bool.false_eq_true] at hyield
  case yieldTagBit =>
    simp only [Enc.bitsAhead, hst, Enc.field, Enc.afterField, Enc.token]
    split_ifs <;> rfl
  case yieldLiteral =>
    simp only [Enc.afterField, hst, Enc.bitsAhead_afterBytes, List.append_nil]
    simp only [Enc.bitsAhead, hst, Enc.field, byteBits]
  case yieldBackRefIndex => simp only [Enc.bitsAhead, hst, Enc.field, Enc.afterField]
  case yieldBackRefLength =>
    simp only [Enc.afterField, hst, Enc.bitsAhead_afterBytes, List.append_nil]
    simp only [Enc.bitsAhead, hst, Enc.field]

/-- Placing a field of the token does not change how far the token reaches (R107 to R111). -/
theorem Enc.Sound.codedTo_afterField (h : e.Sound) (hyield : e.state.isYield = true) :
    e.afterField.codedTo = e.codedTo := by
  have hinside := h.tokenLength_le hyield
  cases hst : e.state <;> simp only [hst, EncState.isYield, Bool.false_eq_true] at hyield
  case yieldTagBit =>
    simp only [Enc.codedTo, hst, Enc.afterField]
    split_ifs <;> rfl
  case yieldLiteral =>
    rw [Enc.tokenLength, if_pos (h.literal hst)] at hinside
    simp only [Enc.afterField, hst, Enc.codedTo_afterBytes hinside]
    simp only [Enc.codedTo, hst, Enc.tokenLength, if_pos (h.literal hst)]
  case yieldBackRefIndex =>
    simp only [Enc.codedTo, hst, Enc.afterField]
    rfl
  case yieldBackRefLength =>
    have hmatch : e.matchLength ≠ 0 := by have := h.backref (.inr hst); omega
    rw [Enc.tokenLength, if_neg hmatch] at hinside
    simp only [Enc.afterField, hst, Enc.codedTo_afterBytes hinside]
    simp only [Enc.codedTo, hst, Enc.tokenLength, if_neg hmatch]

/-- What follows a field leaves everything but the place in the block (R107 to R111). -/
theorem Enc.afterField_frame (e : Enc) :
    e.afterField.configuration = e.configuration ∧ e.afterField.buf = e.buf ∧ e.afterField.inputSize = e.inputSize ∧
    e.afterField.pendingBits = e.pendingBits ∧ e.afterField.outgoingBitsCount = e.outgoingBitsCount := by
  unfold Enc.afterField
  split <;> exact ⟨rfl, rfl, rfl, rfl, rfl⟩

/-- What follows a field is not NotFull (R107 to R111). -/
theorem Enc.afterField_state (hyield : e.state.isYield = true) : e.afterField.state ≠ .notFull := by
  cases hst : e.state <;> simp only [hst, EncState.isYield, Bool.false_eq_true] at hyield
  all_goals simp only [Enc.afterField, hst, Enc.afterBytes, Enc.afterToken]
  case yieldBackRefIndex => nofun
  all_goals split_ifs <;> nofun

/-- The token of a sound encoder is a well-formed one (R41, R68, R69). -/
theorem Enc.Sound.token_wellFormed (h : e.Sound) (hyield : e.state.isYield = true) :
    e.token.isToken = true ∧ e.token.wellFormed e.W e.L = true := by
  obtain ⟨-, -, hlength, -⟩ := (Enc.inRange_iff e).1 h.ranges
  unfold Enc.token
  split_ifs with hliteral
  · exact ⟨rfl, rfl⟩
  · obtain ⟨htwo, hM⟩ := hlength.resolve_left hliteral
    obtain ⟨-, hlow, hhigh⟩ := h.matchInside hyield htwo
    have hN := e.N_pos
    refine ⟨rfl, bref_wellFormed_iff.2 ⟨?_, ?_⟩⟩
    · unfold Enc.N at hN hlow
      omega
    · unfold Enc.M at hM
      omega

/-- Where its match agrees, the token stands for the bytes it codes (R63, R66, R68, R69). -/
theorem Enc.Sound.expandToken_token (h : e.Sound) (hyield : e.state.isYield = true)
    (hagree : agree e.buf e.matchPos e.position e.matchLength) :
    expandToken (e.bufBytes 0 e.position) e.token = e.bufBytes e.position e.tokenLength := by
  obtain ⟨-, -, hlength, -⟩ := (Enc.inRange_iff e).1 h.ranges
  unfold Enc.token Enc.tokenLength
  split_ifs with hliteral
  · simp [expandToken, Enc.bufBytes]
  · obtain ⟨htwo, -⟩ := hlength.resolve_left hliteral
    obtain ⟨-, -, hhigh⟩ := h.matchInside hyield htwo
    rw [expandToken, show e.position - e.matchPos - 1 + 1 = e.position - e.matchPos by omega,
      Nat.sub_add_cancel htwo]
    exact e.copyBytes_bufBytes (by omega) (Nat.sub_le _ _) (by rwa [Nat.sub_sub_self hhigh.le])

end

end Sys2Proof.Machine
end

section
/-! SUPPORT. The rest of a block's coding: the tokens that a POLL still codes and the padding it adds, backwards from
its last micro-step (R91, R103 to R114, R148). -/

namespace Sys2Proof

/-- Tokens that stand for no bytes are no tokens: each stands for at least one (R66, R69). -/
theorem eq_nil_of_expandTokens_eq_nil {h : List Byte} {is : List Instr} (htokens : ∀ i ∈ is, i.isToken = true)
    (hnone : expandTokens h is = []) : is = [] := by
  cases is with
  | nil => rfl
  | cons i is =>
    have hbytes := (List.append_eq_nil_iff.1 hnone).1
    cases i with
    | lit b => cases hbytes
    | bref index count => cases hbytes
    | _ => cases htokens _ List.mem_cons_self

/-- At most 7 padding bits that are whole bytes are none (R148). -/
theorem padding_eq_zero {pad : Nat} {out : List Byte} (hpad : pad < 8)
    (h : List.replicate pad true = out.flatMap byteBits) : pad = 0 ∧ out = [] := by
  have hlen : pad = out.length * 8 := by simpa [List.length_flatMap] using congrArg List.length h
  exact ⟨by omega, List.length_eq_zero_iff.1 (by omega)⟩

namespace Machine

/-- From `e` to the end of a POLL in `e'`, the tokens `is` and `pad` one-bits code the bytes of the lookahead that are
not coded yet: they, the bits pending and those ahead are what is emitted and left pending (R91, R148). -/
structure Enc.Coding (e : Enc) (is : List Instr) (pad : Nat) (out : List Byte) (e' : Enc) : Prop where
  tokens : ∀ i ∈ is, i.isToken = true ∧ i.wellFormed e.W e.L = true
  bytes : expandTokens (e.bufBytes 0 (e.N + e.codedTo)) is = e.bufBytes (e.N + e.codedTo) (e.inputSize - e.codedTo)
  bits : e.pendingBits ++ e.bitsAhead ++ is.flatMap (tokenBits e.W e.L) ++ List.replicate pad true =
    out.flatMap byteBits ++ e'.pendingBits
  more : e.finishing = false → pad = 0 ∧ e'.state = .notFull
  done : e.finishing = true → pad < 8 ∧ e'.state = .done ∧ e'.pendingBits = []

/-- ENC between two micro-steps of a POLL that stalls nowhere: no field is half pushed, and in NotFull the lookahead is
empty or ready to be coded (R40, R101). -/
structure Enc.Ready (e : Enc) : Prop where
  nothingPending : e.outgoingBitsCount = 0
  notPartial : e.state = .notFull → e.inputSize = 0 ∨ e.inputSize = e.N ∨ e.finishing = true

/-- The micro-step `t` of `e` carries the coding of the block on: the unit it leaves is ready, and with what that codes
`e` codes its block. -/
def Enc.CodesOn (e : Enc) (t : Turn Enc) : Prop :=
  t.unit.Ready ∧ ∀ {is pad rest e'}, t.unit.Coding is pad rest e' → ∃ is' pad', e.Coding is' pad' (t.out ++ rest) e'

/-- A micro-step that only moves bits on: the block and how far it is coded stay, and the bits pending and ahead are the
bits emitted and those pending and ahead after it. -/
structure Enc.Moves (e : Enc) (t : Turn Enc) : Prop where
  configuration : t.unit.configuration = e.configuration
  buf : t.unit.buf = e.buf
  inputSize : t.unit.inputSize = e.inputSize
  codedTo : t.unit.codedTo = e.codedTo
  bits : t.out.flatMap byteBits ++ (t.unit.pendingBits ++ t.unit.bitsAhead) = e.pendingBits ++ e.bitsAhead

section
variable {room : Nat} {e e' : Enc} {t : Turn Enc}

/-- A micro-step that only moves bits on carries the coding on. -/
theorem Enc.Moves.codesOn (h : e.Moves t) (hready : t.unit.Ready) : e.CodesOn t := by
  obtain ⟨hcfg, hbuf, hsize, hcoded, hbits⟩ := h
  simp only [Enc.configuration, Prod.mk.injEq] at hcfg
  obtain ⟨-, hW, hL, -, -, hfin, -⟩ := hcfg
  refine ⟨hready, fun {is pad rest e'} hrest => ⟨is, pad, ?_⟩⟩
  obtain ⟨htokens, hbytes, hstream, hmore, hdone⟩ := hrest
  simp only [Enc.N, Enc.bufBytes, hW, hL, hbuf, hsize, hcoded, hfin] at htokens hbytes hstream hmore hdone
  refine ⟨htokens, hbytes, ?_, hmore, hdone⟩
  simp only [← hbits, List.flatMap_append, List.append_assoc] at hstream ⊢
  rw [hstream]

/-- Where the whole lookahead is coded, no token is left (R109). -/
theorem Enc.Coding.no_tokens {is : List Instr} {pad : Nat} {out : List Byte} (h : e.Coding is pad out e')
    (hall : e.inputSize ≤ e.codedTo) : is = [] := by
  have hbytes := h.bytes
  rw [Nat.sub_eq_zero_of_le hall] at hbytes
  exact eq_nil_of_expandTokens_eq_nil (fun i hi => (h.tokens i hi).1) hbytes

/-- The field of a Yield state moves bits on (R88, R107 to R111). -/
theorem Enc.Sound.codesOn_yield (h : e.Sound) (hready : e.Ready) (hyield : e.state.isYield = true)
    (ht : e.microStep room = .ok t) (hcontinues : t.outcome = .continues) : e.CodesOn t := by
  cases (h.microStep_yield hyield room).symm.trans ht
  obtain ⟨hfits, hwidth⟩ := h.field_fits hyield
  rcases Enc.yieldField_cases e.field.1 e.field.2 room e Enc.afterField with ⟨hplaced, heq⟩ | ⟨-, heq⟩
  · rw [heq]
    have hbits := h.accumulator.pushField_bits hready.nothingPending hfits hwidth room
    obtain ⟨hpushed, hcount⟩ := Enc.pushField_pushed h hyield hfits hwidth room
    have hfield := Enc.pushField_same (f := Enc.field) (fun _ _ => rfl) e.field.1 e.field.2 room e
    have hahead := Enc.pushField_same (f := Enc.bitsAhead) (fun _ _ => rfl) e.field.1 e.field.2 room e
    have hcoded := Enc.pushField_same (f := Enc.codedTo) (fun _ _ => rfl) e.field.1 e.field.2 room e
    have hcfg := Enc.pushField_same (f := Enc.configuration) (fun _ _ => rfl) e.field.1 e.field.2 room e
    have hbuf := Enc.pushField_same (f := Enc.buf) (fun _ _ => rfl) e.field.1 e.field.2 room e
    generalize e.pushField e.field.1 e.field.2 room = r at *
    have hyield' : r.1.state.isYield = true := hpushed.state ▸ hyield
    obtain ⟨hcfg', hbuf', hsize', hpending', hcount'⟩ := Enc.afterField_frame r.1
    refine Enc.Moves.codesOn ⟨hcfg'.trans hcfg, hbuf'.trans hbuf, hsize'.trans hpushed.inputSize,
      (hpushed.sound.codedTo_afterField hyield').trans hcoded, ?_⟩ ⟨hcount'.trans (hcount hplaced), fun hst => ?_⟩
    · show r.2.1.flatMap byteBits ++ (r.1.afterField.pendingBits ++ r.1.afterField.bitsAhead) = _
      rw [hpending', ← List.append_assoc, hbits, List.append_assoc, ← hfield, ← Enc.bitsAhead_yield hyield', hahead]
    · exact absurd hst (Enc.afterField_state hyield')
  · simp [heq] at hcontinues

/-- ENC with the match that Search found, at the tag of its token (R103, R105). -/
def Enc.withMatch (len pos : Nat) (e : Enc) : Enc :=
  { e with matchLength := len, matchPos := pos, state := .yieldTagBit }

/-- Everything Search can do: end the block, or find the next token, whose match agrees (R103 to R106). -/
theorem Enc.search_cases (hst : e.state = .search) (ht : e.microStep room = .ok t) :
    (e.inputSize ≤ e.matchScanIndex ∧ t = .go { e with state := .saveBacklog }) ∨
    ∃ len pos, t = .go (e.withMatch len pos) ∧ agree e.buf pos e.position len := by
  have haction := (Enc.microStep_ok ht).1
  simp only [Enc.stateAction, hst, Enc.stepSearch] at haction
  split_ifs at haction with hend
  · cases haction
    exact .inl ⟨hend, rfl⟩
  · split at haction
    · cases haction
    · next found hfound =>
      split_ifs at haction <;> cases haction
      · exact .inr ⟨found.1, found.2, rfl, Enc.findMatch_agrees hfound⟩
      · exact .inr ⟨0, e.matchPos, rfl, agree_zero _ _ _⟩

/-- Search puts the token it found before those of the rest (R91, R103). -/
theorem Enc.Sound.codesOn_search (h : e.Sound) (hst : e.state = .search) (ht : e.microStep room = .ok t) :
    e.CodesOn t := by
  have hsound := h.microStep ht
  have hnone : e.outgoingBitsCount = 0 := h.pending (by rw [hst]; rfl)
  rcases Enc.search_cases hst ht with ⟨hend, rfl⟩ | ⟨len, pos, rfl, hagree⟩
  · have hcoded : e.inputSize = e.codedTo := by
      simp only [Enc.codedTo, hst]
      exact Nat.le_antisymm hend (h.searching hst)
    refine Enc.Moves.codesOn ⟨rfl, rfl, rfl, hcoded, ?_⟩ ⟨hnone, nofun⟩
    simp only [Enc.bitsAhead, hst]
    rfl
  · have hcoded : e.codedTo = e.matchScanIndex := by simp only [Enc.codedTo, hst]
    have hahead : e.bitsAhead = [] := by simp only [Enc.bitsAhead, hst]
    have htoken := hsound.expandToken_token rfl hagree
    have hinside : e.matchScanIndex + (e.withMatch len pos).tokenLength ≤ e.inputSize := hsound.tokenLength_le rfl
    have hsplit : e.inputSize - e.matchScanIndex = (e.withMatch len pos).tokenLength +
        (e.inputSize - (e.matchScanIndex + (e.withMatch len pos).tokenLength)) := by omega
    refine ⟨⟨hnone, nofun⟩, fun {is pad rest e'} hrest => ⟨(e.withMatch len pos).token :: is, pad, ?_⟩⟩
    obtain ⟨htokens, hbytes, hstream, hmore, hdone⟩ := hrest
    refine ⟨List.forall_mem_cons.2 ⟨hsound.token_wellFormed rfl, htokens⟩, ?_, ?_, hmore, hdone⟩
    · rw [hcoded, hsplit]
      exact e.expandTokens_bufBytes htoken (Nat.add_assoc e.N _ _ ▸ hbytes)
    · rw [hahead, List.append_nil, List.flatMap_cons, ← List.append_assoc]
      exact hstream

/-- NotFull starts the block (R101). -/
theorem Enc.codesOn_notFull (hst : e.state = .notFull) (hready : e.Ready) (ht : e.microStep room = .ok t)
    (hcontinues : t.outcome = .continues) : e.CodesOn t := by
  have haction := (Enc.microStep_ok ht).1
  simp only [Enc.stateAction, hst, Enc.stepNotFull] at haction
  split_ifs at haction <;> cases haction
  · refine Enc.Moves.codesOn ⟨rfl, rfl, rfl, ?_, ?_⟩ ⟨hready.nothingPending, nofun⟩
    · simp only [Enc.codedTo, hst]
      rfl
    · simp only [Enc.bitsAhead, hst]
      rfl
  · cases hcontinues

/-- Filled starts the search of the block (R102). -/
theorem Enc.codesOn_filled (hst : e.state = .filled) (hready : e.Ready) (ht : e.microStep room = .ok t) :
    e.CodesOn t := by
  have haction := (Enc.microStep_ok ht).1
  simp only [Enc.stateAction, hst, Enc.stepFilled] at haction
  have hcoded : 0 = e.codedTo := by simp only [Enc.codedTo, hst]
  have hahead : e.bitsAhead = [] := by simp only [Enc.bitsAhead, hst]
  split_ifs at haction <;> cases haction <;>
    exact Enc.Moves.codesOn ⟨rfl, rfl, rfl, hcoded, hahead ▸ rfl⟩ ⟨hready.nothingPending, nofun⟩

/-- SaveBacklog comes after the whole lookahead is coded, and leaves none (R109, R113). -/
theorem Enc.codesOn_saveBacklog (hst : e.state = .saveBacklog) (hready : e.Ready) (ht : e.microStep room = .ok t) :
    e.CodesOn t := by
  have haction := (Enc.microStep_ok ht).1
  simp only [Enc.stateAction, hst] at haction
  cases haction
  refine ⟨⟨hready.nothingPending, fun _ => .inl rfl⟩, fun {is pad rest e'} hrest => ⟨[], pad, ?_⟩⟩
  obtain rfl := hrest.no_tokens (Nat.zero_le _)
  obtain ⟨-, -, hstream, hmore, hdone⟩ := hrest
  rw [Enc.bitsAhead_eq_nil (by dsimp only [Turn.go]; split_ifs <;> rfl)] at hstream
  refine ⟨nofun, ?_, ?_, hmore, hdone⟩
  · simp [Enc.codedTo, hst, expandTokens, Enc.bufBytes]
  · rw [Enc.bitsAhead_eq_nil (by rw [hst]; rfl)]
    exact hstream

/-- FlushBits emits the bits pending and at most 7 one-bits (R90, R114, R148). -/
theorem Enc.Sound.flushBits_pads (h : e.Sound) (hst : e.state = .flushBits) (ht : e.microStep room = .ok t)
    (hcontinues : t.outcome = .continues) :
    t.unit = { e with currentByte := 0, bitIndex := 8, state := .done } ∧
    ∃ pad < 8, t.out.flatMap byteBits = e.pendingBits ++ List.replicate pad true := by
  have haction := (Enc.microStep_ok ht).1
  simp only [Enc.stateAction, hst, Enc.stepFlushBits] at haction
  have hnone : e.outgoingBitsCount = 0 := h.pending (by rw [hst]; rfl)
  obtain ⟨hbit, hbit'⟩ := h.accumulator.bitIndex
  obtain ⟨hempty, hstall, hpads⟩ := flushPadFillsWithOnes room e hbit hbit' h.partialByte
  rcases h.accumulator.flushPad_cases room with heq | ⟨out, heq⟩ <;> rw [heq] at haction <;> cases haction
  · cases hcontinues
  refine ⟨rfl, ?_⟩
  rcases hbit'.eq_or_lt with hfull | hplaced
  · rw [hempty hfull] at heq
    obtain rfl : [] = out := congrArg (·.2.1) heq
    exact ⟨0, by decide, by simp [Enc.pendingBits, hnone, hfull, fieldBits]⟩
  · have hroom : 0 < room := Nat.pos_of_ne_zero fun hzero => by simp [hstall hplaced hzero] at heq
    obtain ⟨b, hflush, hbyte⟩ := hpads hplaced hroom
    rw [hflush] at heq
    obtain rfl : [b] = out := congrArg (·.2.1) heq
    exact ⟨e.bitIndex, hplaced, by simp [Enc.pendingBits, hnone, hbyte, fieldBits]⟩

/-- FlushBits ends the coding with its padding (R114, R148). -/
theorem Enc.Sound.codesOn_flushBits (h : e.Sound) (hst : e.state = .flushBits) (ht : e.microStep room = .ok t)
    (hcontinues : t.outcome = .continues) : e.CodesOn t := by
  have hnone : e.outgoingBitsCount = 0 := h.pending (by rw [hst]; rfl)
  have hfin : e.finishing = true := h.flushing (.inl hst)
  obtain ⟨hunit, pad, hpad, hbits⟩ := h.flushBits_pads hst ht hcontinues
  refine ⟨hunit ▸ ⟨hnone, nofun⟩, fun {is pad' rest e'} hrest => ⟨[], pad, ?_⟩⟩
  rw [hunit] at hrest
  obtain rfl := hrest.no_tokens (Nat.le_refl e.inputSize)
  obtain ⟨hpad', hdone, hflushed⟩ := hrest.done hfin
  have hrestBits : List.replicate pad' true = rest.flatMap byteBits := by
    have hstream := hrest.bits
    rw [hflushed] at hstream
    simpa [Enc.pendingBits, Enc.bitsAhead, hnone, fieldBits] using hstream
  obtain ⟨-, rfl⟩ := padding_eq_zero hpad' hrestBits
  refine ⟨nofun, ?_, ?_, by simp [hfin], fun _ => ⟨hpad, hdone, hflushed⟩⟩
  · simp [Enc.codedTo, hst, expandTokens, Enc.bufBytes]
  · simp [Enc.bitsAhead, hst, hbits, hflushed]

/-- Every micro-step of a sound encoder that is ready carries the coding of its block on (R100). -/
theorem Enc.Sound.codesOn (h : e.Sound) (hready : e.Ready) (ht : e.microStep room = .ok t)
    (hcontinues : t.outcome = .continues) : e.CodesOn t := by
  cases hst : e.state
  case notFull => exact Enc.codesOn_notFull hst hready ht hcontinues
  case filled => exact Enc.codesOn_filled hst hready ht
  case search => exact h.codesOn_search hst ht
  case saveBacklog => exact Enc.codesOn_saveBacklog hst hready ht
  case flushBits => exact h.codesOn_flushBits hst ht hcontinues
  case done =>
    have haction := (Enc.microStep_ok ht).1
    simp only [Enc.stateAction, hst] at haction
    cases haction
    cases hcontinues
  all_goals exact h.codesOn_yield hready (by rw [hst]; rfl) ht hcontinues

/-- Only in NotFull and Done does a micro-step end the POLL other than by a stall (R100). -/
theorem Enc.Sound.continues_or_stalls (h : e.Sound) (hnotFull : e.state ≠ .notFull) (hdone : e.state ≠ .done)
    (ht : e.microStep room = .ok t) : t.outcome = .continues ∨ t.outcome = .stall := by
  have haction := (Enc.microStep_ok ht).1
  by_cases hyield : e.state.isYield = true
  · cases (h.microStep_yield hyield room).symm.trans ht
    rcases Enc.yieldField_cases e.field.1 e.field.2 room e Enc.afterField with ⟨-, heq⟩ | ⟨-, heq⟩ <;> rw [heq]
    · exact .inl rfl
    · exact .inr rfl
  cases hst : e.state <;> simp only [hst, EncState.isYield, ne_eq, not_true_eq_false] at hyield hnotFull hdone
  case filled =>
    simp only [Enc.stateAction, hst, Enc.stepFilled] at haction
    split_ifs at haction <;> cases haction <;> exact .inl rfl
  case search =>
    rcases Enc.search_cases hst ht with ⟨-, rfl⟩ | ⟨_, _, rfl, -⟩ <;> exact .inl rfl
  case saveBacklog =>
    simp only [Enc.stateAction, hst] at haction
    cases haction
    exact .inl rfl
  case flushBits =>
    simp only [Enc.stateAction, hst, Enc.stepFlushBits] at haction
    rcases h.accumulator.flushPad_cases room with heq | ⟨out, heq⟩ <;> rw [heq] at haction <;> cases haction
    · exact .inr rfl
    · exact .inl rfl

/-- Where a POLL ends EMPTY nothing is left to code: it waits for input with an empty lookahead, or is Done (R98, R101,
R114). -/
theorem Enc.Sound.coding_nil (h : e.Sound) (hready : e.Ready) (ht : e.microStep room = .ok t)
    (hempty : t.outcome.pollStatus = some .empty) : e.Coding [] 0 t.out t.unit := by
  have haction := (Enc.microStep_ok ht).1
  by_cases hnotFull : e.state = .notFull
  · simp only [Enc.stateAction, hnotFull, Enc.stepNotFull] at haction
    split_ifs at haction with hfull <;> cases haction
    · cases hempty
    · rw [not_or, Bool.not_eq_true] at hfull
      obtain ⟨hsize, hfin⟩ := hfull
      have hzero : e.inputSize = 0 := by simpa [hsize, hfin] using hready.notPartial hnotFull
      refine ⟨nofun, ?_, ?_, fun _ => ⟨rfl, hnotFull⟩, by simp [hfin]⟩
      · simp [hzero, expandTokens, Enc.bufBytes]
      · simp [Enc.bitsAhead, hnotFull, Turn.stop]
  · by_cases hdone : e.state = .done
    · simp only [Enc.stateAction, hdone] at haction
      cases haction
      have hfin := h.flushing (.inr hdone)
      have hflushed : e.pendingBits = [] := by
        simp [Enc.pendingBits, hready.nothingPending, h.flushed hdone, fieldBits]
      refine ⟨nofun, ?_, ?_, by simp [hfin], fun _ => ⟨by decide, hdone, hflushed⟩⟩
      · simp [Enc.codedTo, hdone, expandTokens, Enc.bufBytes]
      · simp [Enc.bitsAhead, hdone, Turn.stop]
    · rcases h.continues_or_stalls hnotFull hdone ht with ho | ho <;> rw [ho] at hempty <;> cases hempty

/-- A POLL of a sound encoder that is ready, and that responds EMPTY, codes what is left of the block (R91, R148). -/
theorem Enc.Sound.pollRun_codes {out : List Byte} (h : e.Sound) (hready : e.Ready)
    (hrun : e.PollRun room out .empty e') : ∃ is pad, e.Coding is pad out e' := by
  refine Enc.PollRun.induction (R := fun _ e out => e.Ready → ∃ is pad, e.Coding is pad out e')
    (fun {room e t} h ht hempty heq hready => ?_) (fun {room e t rest} h ht hcontinues hrest hready => ?_) h hrun hready
  · exact ⟨[], 0, heq ▸ h.coding_nil hready ht hempty⟩
  · obtain ⟨hready', hcodes⟩ := h.codesOn hready ht hcontinues
    obtain ⟨is, pad, hcoding⟩ := hrest hready'
    exact hcodes hcoding

end

end Machine
end Sys2Proof
end

section
/-! PROOFS. ENC.POLL codes a block (O28). -/

namespace Sys2Proof.Machine

/-- Settles O28: a POLL that starts a block and responds EMPTY is ready at its start, and codes the whole block. -/
theorem encPollCodesTheBlock : Obligations.EncPollCodesTheBlock := by
  unfold Obligations.EncPollCodesTheBlock
  intro capacity s t out _ hsound husable hst hblock hexec hresponse
  obtain ⟨e, hrun, rfl⟩ := execEncPoll_run husable hexec hresponse
  have hready : s.enc.Ready := ⟨hsound.pending (by rw [hst]; rfl), fun _ => .inr hblock⟩
  obtain ⟨is, pad, htokens, hbytes, hbits, hmore, hdone⟩ := hsound.pollRun_codes hready hrun
  have hcoded : s.enc.codedTo = 0 := by simp only [Enc.codedTo, hst]
  rw [hcoded] at hbytes
  rw [Enc.bitsAhead_eq_nil (by rw [hst]; rfl), List.append_nil] at hbits
  exact ⟨is, pad, htokens, hbytes, hbits, hmore, hdone⟩

end Sys2Proof.Machine
end

section
/-! PROOFS. The round trip of the last block between ENC and DEC (O49). -/

namespace Sys2Proof.Machine

/-- ENC.POLL of a sound encoder keeps the memories canonical (R113, R123). -/
theorem execEncPoll_canonical {capacity : Nat} {s t : State} (hmem : s.MemoryCanonical) (hsound : s.enc.Sound)
    (h : execEncPoll capacity s = .next t) : t.MemoryCanonical := by
  rcases execEncPoll_next h with ⟨-, rfl⟩ | ⟨-, e, out, st, hpoll, rfl⟩
  · exact ⟨hmem.buf, hmem.head, hmem.next, hmem.win, hmem.inb⟩
  · obtain ⟨-, hbuf, hhead, hnext⟩ := pollLoop_keeps (P := fun u : Enc => u.Sound ∧ u.Canonical)
      (fun _ _ _ hu ht => Enc.microStep_keeps hu ht) ⟨hsound, hmem.toEnc⟩ hpoll
    exact ⟨hbuf, hhead, hnext, hmem.win, hmem.inb⟩

/-- DEC with the bytes `src` after its input (R130). -/
def Dec.appendInput (src : List Byte) (d : Dec) : Dec :=
  { d with inb := d.inb.writeList d.inputSize src, inputSize := d.inputSize + src.length }

/-- A SINK that responds OK with the count of its bytes has sunk them all (R130). -/
theorem execDecSink_all {src : List Byte} {s t : State} (h : execDecSink src s = .next t)
    (hresponse : t.response = some ⟨.ok, src.length, []⟩) :
    s.dec.inputSize + src.length ≤ s.dec.ibs ∧
    t = (s.setDec (s.dec.appendInput src)).setResponse ⟨.ok, src.length, []⟩ := by
  rcases execDecSink_next h with ⟨-, rfl⟩ | ⟨-, -, rfl⟩ | ⟨-, -, -, rfl⟩ | ⟨-, -, hroom, taken, rfl, rfl⟩
  · cases hresponse
  · cases hresponse
  · cases hresponse
  · have hlen : (sinkTaken (s.dec.ibs - s.dec.inputSize) src).length = src.length :=
      congrArg Response.n (Option.some.inj hresponse)
    have hfits : src.length ≤ s.dec.ibs - s.dec.inputSize := by
      rw [← hlen, sinkTaken]
      exact List.length_take_le _ _
    rw [sinkTaken_of_fits hfits]
    exact ⟨by omega, rfl⟩

/-- The bytes sunk are read after those unread before (R33, R130). -/
theorem Dec.unreadBytes_appendInput {d : Dec} (h : Memory.wf 0 d.inb) (hcursors : d.inputIndex ≤ d.inputSize)
    (src : List Byte) : (d.appendInput src).unreadBytes = d.unreadBytes ++ src := by
  have hread (a : Nat) : (d.inb.writeList d.inputSize src).read a =
      if d.inputSize ≤ a ∧ a < d.inputSize + src.length then src.getD (a - d.inputSize) 0 else d.inb.read a :=
    Memory.read_writeList 0 h _ _ _
  simp only [Dec.unreadBytes, Dec.appendInput, hread]
  rw [Nat.sub_add_comm hcursors, List.range_add, List.map_append, List.map_map]
  congr 1
  · refine List.map_congr_left fun k hk => if_neg ?_
    have := List.mem_range.1 hk
    omega
  · refine List.ext_getElem (by simp) fun k hk _ => ?_
    have hlt : k < src.length := by simpa using hk
    simp [← Nat.add_assoc, Nat.add_sub_of_le hcursors, hlt]

/-- SINK appends its bytes' bits to those unread (R37, R130). -/
theorem Dec.Sound.unreadBits_appendInput {d : Dec} (h : d.Sound) (hmem : Memory.wf 0 d.inb) (src : List Byte) :
    (d.appendInput src).unreadBits = d.unreadBits ++ src.flatMap byteBits := by
  have hcursors : d.inputIndex ≤ d.inputSize := by
    have := h.cursors
    omega
  rw [Dec.unreadBits, Dec.unreadBytes_appendInput hmem hcursors, List.flatMap_append, ← List.append_assoc]
  rfl

/-- A whole stream sunk into DEC, between tokens with no bit unread, is decoded to what its tokens stand for (R65, R142,
R143). -/
theorem exec_decPoll_sunk_stream {capacity pad : Nat} {is : List Instr} {out : List Byte} {s t : State}
    (hmem : s.MemoryCanonical) (hbetween : s.dec.betweenTokens) (hunread : s.dec.unreadBits = [])
    (htokens : ∀ i ∈ is, i.isToken = true ∧ i.wellFormed s.dec.W s.dec.L = true) (hpad : pad < 8)
    (hbits : is.flatMap (tokenBits s.dec.W s.dec.L) ++ List.replicate pad true = out.flatMap byteBits)
    (hsink : execDecSink out s = .next t) (hok : t.response = some ⟨.ok, out.length, []⟩)
    (hcapacity : (expandTokens s.dec.history is).length < capacity) :
    ∃ d : Dec, exec (.decPoll capacity) t = .next (t.respondEmpty d (expandTokens s.dec.history is)) ∧ d.AtEnd := by
  obtain ⟨husable, hsound, htag⟩ := hbetween
  obtain ⟨hfits, rfl⟩ := execDecSink_all hsink hok
  have hbits' : (s.dec.appendInput out).unreadBits =
      is.flatMap (tokenBits s.dec.W s.dec.L) ++ List.replicate pad true := by
    rw [hsound.unreadBits_appendInput hmem.inb, hunread, hbits, List.nil_append]
  exact exec_decPoll_stream (s := (s.setDec (s.dec.appendInput out)).setResponse ⟨.ok, out.length, []⟩)
    ⟨hmem.buf, hmem.head, hmem.next, hmem.win, Memory.writeList_wf hmem.inb _ _⟩
    ⟨husable, hsound.sink hfits, htag⟩ htokens hpad hbits' hcapacity

/-- Settles O49: the bytes emitted are the tokens' bits and the padding (O28), and DEC decodes such a stream to what the
tokens stand for (O48). -/
theorem blockRoundTrips : Obligations.BlockRoundTrips := by
  unfold Obligations.BlockRoundTrips
  intro c c' s t u v out hmem hsound husable hst hfin hbetween hW hL hwindow hnone hunread hpoll hempty hsink hok
    hcapacity hdecode
  obtain ⟨is, pad, htokens, hbytes, hbits, -, hdone⟩ :=
    encPollCodesTheBlock c s t out hmem hsound husable hst (.inr hfin) hpoll hempty
  obtain ⟨hpad, -, hflushed⟩ := hdone hfin
  rw [hnone, hflushed, List.nil_append, List.append_nil] at hbits
  rw [hwindow] at hbytes
  rw [← hW, ← hL] at htokens hbits
  have hlen : (s.enc.bufBytes (2 ^ s.enc.W) s.enc.inputSize).length = s.enc.inputSize := by simp [Enc.bufBytes]
  obtain ⟨hdec, -⟩ := encPollFrame c s t hmem hsound hpoll
  rw [← hdec] at hbetween hunread htokens hbits hbytes
  obtain ⟨d, hdecode', hend⟩ := exec_decPoll_sunk_stream (execEncPoll_canonical hmem hsound hpoll) hbetween hunread
    htokens hpad hbits hsink hok (by rwa [hbytes, hlen])
  cases hdecode.symm.trans hdecode'
  refine ⟨?_, execDecFinish_of_atEnd hend⟩
  rw [hbytes, State.respondEmpty, hlen]
  rfl

end Sys2Proof.Machine
end

section
/-! PROOFS. The linear search gives the longest match, the closest of equals (O30). -/

namespace Sys2Proof.Machine

section
variable {buf : ByteMemory} {p maxlen : Nat}

/-- `len(q)` counts every byte that agrees, up to the number asked for (R104). -/
theorem le_matchLen {q k left i : Nat} (h : agree buf q p k) (hk : k ≤ i + left) : k ≤ matchLen buf q p left i := by
  induction left generalizing i with
  | zero => exact hk
  | succ left ih =>
    unfold matchLen
    split
    · exact ih (by omega)
    · next hdiffers => exact Nat.le_of_not_lt fun hlt => hdiffers (h i hlt)

/-- `len(q)` of R104 for the search at `p`. -/
def candidateLen (buf : ByteMemory) (p maxlen q : Nat) : Nat := matchLen buf q p maxlen 0

/-- A candidate's length is at most `maxlen` (R104). -/
theorem candidateLen_le (q : Nat) : candidateLen buf p maxlen q ≤ maxlen :=
  (matchLen_le buf q p maxlen 0).trans_eq (Nat.zero_add maxlen)

/-- As many bytes agree as a candidate's length says, and no more of the first `maxlen` (R104). -/
theorem le_candidateLen_iff {q k : Nat} (hk : k ≤ maxlen) : k ≤ candidateLen buf p maxlen q ↔ agree buf q p k :=
  ⟨fun h j hj => matchLen_agrees (agree_zero buf q p) maxlen j (Nat.lt_of_lt_of_le hj h),
    fun h => le_matchLen h (by omega)⟩

/-- A candidate is taken where it is longer than the best match so far (R125). -/
theorem tryCandidate_of_lt {q : Nat} (hq : q < p) (best : Nat × Nat) :
    tryCandidate buf p maxlen q best =
      if best.1 < candidateLen buf p maxlen q then (candidateLen buf p maxlen q, q) else best := if_pos hq

/-- Looking at a candidate leaves the longer of the two lengths (R104). -/
theorem tryCandidate_fst {q : Nat} (hq : q < p) (best : Nat × Nat) :
    (tryCandidate buf p maxlen q best).1 = max best.1 (candidateLen buf p maxlen q) := by
  rw [tryCandidate_of_lt hq]
  split <;> omega

/-- `r` is the best match of a scan that starts with `best`, over the candidates from `low` to below `low + n`: no
candidate is longer, and a candidate taken in place of `best` is longer than every closer one (R104). -/
structure IsBestOf (buf : ByteMemory) (p maxlen low n : Nat) (best r : Nat × Nat) : Prop where
  grows : best.1 ≤ r.1
  longest : ∀ q, low ≤ q → q < low + n → candidateLen buf p maxlen q ≤ r.1
  closest : r = best ∨ (best.1 < r.1 ∧ low ≤ r.2 ∧ r.2 < low + n ∧ candidateLen buf p maxlen r.2 = r.1 ∧
    ∀ q, r.2 < q → q < low + n → candidateLen buf p maxlen q < r.1)

/-- The best match after the closest candidate was looked at is the best with that candidate (R104). -/
theorem IsBestOf.of_closest {low n : Nat} {best r : Nat × Nat} (hn : low + n < p)
    (h : IsBestOf buf p maxlen low n (tryCandidate buf p maxlen (low + n) best) r) :
    IsBestOf buf p maxlen low (n + 1) best r := by
  obtain ⟨hgrows, hlongest, hclosest⟩ := h
  rw [tryCandidate_fst hn, Nat.max_le] at hgrows
  have hall (q : Nat) (hlow : low ≤ q) (hq : q < low + (n + 1)) : candidateLen buf p maxlen q ≤ r.1 := by
    rcases Nat.lt_succ_iff_lt_or_eq.1 (show q < (low + n) + 1 from hq) with hlt | rfl
    · exact hlongest q hlow hlt
    · exact hgrows.2
  refine ⟨hgrows.1, hall, ?_⟩
  rcases hclosest with heq | ⟨hlonger, hlow, hhigh, hlen, hcloser⟩
  · rw [tryCandidate_of_lt hn] at heq
    split at heq
    · next htaken =>
      subst heq
      exact .inr ⟨htaken, Nat.le_add_right _ _, Nat.lt_succ_self _, rfl, fun q hq hq' => by simp only at hq; omega⟩
    · exact .inl heq
  · rw [tryCandidate_fst hn, Nat.max_lt] at hlonger
    refine .inr ⟨hlonger.1, hlow, Nat.lt_succ_of_lt hhigh, hlen, fun q hq hq' => ?_⟩
    rcases Nat.lt_succ_iff_lt_or_eq.1 (show q < (low + n) + 1 from hq') with hlt | rfl
    · exact hcloser q hq hlt
    · exact hlonger.2

/-- The linear scan gives the best match of its candidates (R104). -/
theorem scanFrom_isBestOf {low n : Nat} (hn : low + n ≤ p) (best : Nat × Nat) :
    IsBestOf buf p maxlen low n best (scanFrom buf p maxlen low n best) := by
  induction n generalizing best with
  | zero => exact ⟨Nat.le_refl _, fun q _ _ => by omega, .inl rfl⟩
  | succ n ih =>
    rw [scanFrom_succ buf (by omega)]
    refine IsBestOf.of_closest (by omega) ?_
    split
    · next hfull => exact ⟨Nat.le_refl _, fun q _ _ => (candidateLen_le q).trans_eq hfull.symm, .inl rfl⟩
    · exact ih (by omega) _

end

/-- Settles O30: the scan's result is the best match, which counts where it has at least 2 bytes. -/
theorem longestMatchIsClosestLongest : Obligations.LongestMatchIsClosestLongest := by
  unfold Obligations.LongestMatchIsClosestLongest
  intro N buf p maxlen hN
  obtain ⟨-, hlongest, hclosest⟩ := scanFrom_isBestOf (buf := buf) (maxlen := maxlen) (n := N)
    (show p - N + N ≤ p by omega) (0, 0)
  rw [Nat.sub_add_cancel hN] at hlongest hclosest
  unfold longestMatch
  generalize scanFrom buf p maxlen (p - N) N (0, 0) = r at hlongest hclosest
  have hagree (q k : Nat) (hlow : p - N ≤ q) (hq : q < p) (hk : k ≤ maxlen) (h : agree buf q p k) : k ≤ r.1 :=
    ((le_candidateLen_iff hk).2 h).trans (hlongest q hlow hq)
  by_cases htwo : 2 ≤ r.1
  · obtain rfl | ⟨-, hlow, hhigh, hlen, hcloser⟩ := hclosest
    · cases htwo
    have hmax : r.1 ≤ maxlen := hlen ▸ candidateLen_le r.2
    rw [atLeastTwo, if_pos htwo]
    exact .inr ⟨htwo, hmax, hlow, hhigh, (le_candidateLen_iff hmax).1 hlen.ge, hagree,
      fun q k hq hq' hk h => Nat.lt_of_le_of_lt ((le_candidateLen_iff hk).2 h) (hcloser q hq hq')⟩
  · rw [atLeastTwo, if_neg htwo]
    exact .inl ⟨rfl, fun q k hlow hq hk h => Nat.lt_of_le_of_lt (hagree q k hlow hq hk h) (Nat.lt_of_not_le htwo)⟩

end Sys2Proof.Machine
end

section
/-! SUPPORT. The chains of the index of a block (R123, R124). -/

namespace Sys2Proof.Machine

section
variable (buf : ByteMemory)

/-- Indexing position `n` puts it at the head of its key's chain (R123). -/
theorem buildIndex_succ_head (n key : Nat) :
    (buildIndex buf (n + 1)).1.read key =
      if prefix2 buf n = key then some n else (buildIndex buf n).1.read key := by
  have hwf := (buildIndex_wf buf n).1.1
  split
  · next heq => exact heq ▸ Memory.read_write_same none hwf _ _
  · next hne => exact Memory.read_write_ne none hwf (Ne.symm hne) _

/-- Indexing position `n` links it to the chain before it, and leaves the other links (R123). -/
theorem buildIndex_succ_next (n a : Nat) :
    (buildIndex buf (n + 1)).2.read a =
      if a = n then (buildIndex buf n).1.read (prefix2 buf n) else (buildIndex buf n).2.read a := by
  have hwf := (buildIndex_wf buf n).2.1
  split
  · next heq => exact heq ▸ Memory.read_write_same none hwf _ _
  · next hne => exact Memory.read_write_ne none hwf hne _

/-- The positions below `n` with a key, the closest first (R124). -/
def keyPositions (n key : Nat) : List Nat := ((List.range n).filter (fun i => prefix2 buf i = key)).reverse

/-- The positions with a key, one more position considered. -/
theorem keyPositions_succ (n key : Nat) :
    keyPositions buf (n + 1) key =
      if prefix2 buf n = key then n :: keyPositions buf n key else keyPositions buf n key := by
  unfold keyPositions
  rw [List.range_succ, List.filter_append, List.reverse_append]
  split <;> simp [*]

/-- A chain along links that agree below `n` is the same, when it starts, and its links stay, below `n`. -/
theorem chainFrom_congr {next next' : LinkMemory} {n : Nat} (hagree : ∀ a < n, next'.read a = next.read a)
    (hbelow : ∀ a q, next.read a = some q → q < n) (left : Nat) {entry : Option Nat}
    (hentry : ∀ q, entry = some q → q < n) : chainFrom next' left entry = chainFrom next left entry := by
  induction left generalizing entry with
  | zero => rfl
  | succ left ih =>
    cases entry with
    | none => rfl
    | some q => rw [chainFrom, chainFrom, hagree q (hentry q rfl), ih (hbelow q)]

/-- The chain of a key is the positions with that key, the closest first, and then ends (R124). -/
theorem chainFrom_buildIndex {n left : Nat} (h : n ≤ left) (key : Nat) :
    chainFrom (buildIndex buf n).2 left ((buildIndex buf n).1.read key) = keyPositions buf n key := by
  induction n generalizing left key with
  | zero => cases left <;> rfl
  | succ n ih =>
    obtain ⟨left, rfl⟩ : ∃ left', left = left' + 1 := ⟨left - 1, by omega⟩
    obtain ⟨⟨-, hhead⟩, -, hnext⟩ := buildIndex_inside buf (Nat.le_refl n)
    have hchain (left : Nat) (key : Nat) : chainFrom (buildIndex buf (n + 1)).2 left ((buildIndex buf n).1.read key) =
        chainFrom (buildIndex buf n).2 left ((buildIndex buf n).1.read key) :=
      chainFrom_congr (fun a ha => by rw [buildIndex_succ_next, if_neg (Nat.ne_of_lt ha)])
        (fun _ _ => LinkMemory.read_lt hnext) left (fun _ => LinkMemory.read_lt hhead)
    rw [buildIndex_succ_head, keyPositions_succ]
    split
    · next hkey =>
      rw [chainFrom, buildIndex_succ_next, if_pos rfl, hchain, hkey, ih (by omega)]
    · rw [hchain, ih (by omega)]

end

end Sys2Proof.Machine
end

section
/-! PROOFS. The walk along a chain gives what the linear search gives (O32). -/

namespace Sys2Proof.Machine

section
variable {buf : ByteMemory} {p maxlen : Nat}

/-- The scan of a list of candidates: each is looked at in turn, and a match of `maxlen` ends the scan (R104, R125). -/
def scanList (buf : ByteMemory) (p maxlen : Nat) : List Nat → Nat × Nat → Nat × Nat
  | [], best => best
  | q :: qs, best =>
    if (tryCandidate buf p maxlen q best).1 = maxlen then tryCandidate buf p maxlen q best
    else scanList buf p maxlen qs (tryCandidate buf p maxlen q best)

/-- The candidates from `low` to below `low + n`, the closest first (R104). -/
def candidates (low n : Nat) : List Nat := (List.range' low n).reverse

/-- The closest candidate comes first. -/
theorem candidates_succ (low n : Nat) : candidates low (n + 1) = (low + n) :: candidates low n := by
  simp [candidates, List.range'_concat]

/-- The linear scan is the scan of its candidates (R104). -/
theorem scanFrom_eq_scanList {low n : Nat} (hn : low + n ≤ p) (best : Nat × Nat) :
    scanFrom buf p maxlen low n best = scanList buf p maxlen (candidates low n) best := by
  induction n generalizing best with
  | zero => rfl
  | succ n ih => rw [scanFrom_succ buf (by omega), candidates_succ, scanList, ih (by omega)]

/-- Two best matches so far that make no difference to the search: the same, or both too short to count (R105). -/
def SameMatch (a b : Nat × Nat) : Prop := a = b ∨ a.1 < 2 ∧ b.1 < 2

/-- Matches that make no difference give the same result (R105). -/
theorem SameMatch.atLeastTwo_eq {a b : Nat × Nat} (h : SameMatch a b) : atLeastTwo a = atLeastTwo b := by
  rcases h with rfl | ⟨ha, hb⟩
  · rfl
  · rw [atLeastTwo, atLeastTwo, if_neg (Nat.not_le.2 ha), if_neg (Nat.not_le.2 hb)]

/-- A candidate keeps the difference immaterial (R105). -/
theorem SameMatch.tryCandidate {a b : Nat × Nat} (h : SameMatch a b) {q : Nat} (hq : q < p) :
    SameMatch (tryCandidate buf p maxlen q a) (tryCandidate buf p maxlen q b) := by
  rcases h with rfl | ⟨ha, hb⟩
  · exact .inl rfl
  · by_cases htwo : 2 ≤ candidateLen buf p maxlen q
    · rw [tryCandidate_of_lt hq, tryCandidate_of_lt hq, if_pos (by omega), if_pos (by omega)]
      exact .inl rfl
    · refine .inr ?_
      rw [tryCandidate_fst hq, tryCandidate_fst hq]
      omega

/-- A candidate whose match is too short to count makes no difference (R105). -/
theorem SameMatch.tryCandidate_short {a b : Nat × Nat} (h : SameMatch a b) {q : Nat} (hq : q < p)
    (hshort : candidateLen buf p maxlen q < 2) : SameMatch (Machine.tryCandidate buf p maxlen q a) b := by
  by_cases htwo : 2 ≤ a.1
  · rw [tryCandidate_of_lt hq, if_neg (by omega)]
    exact h
  · have hb : b.1 < 2 := by
      rcases h with rfl | ⟨-, hb⟩ <;> omega
    refine .inr ⟨?_, hb⟩
    rw [tryCandidate_fst hq]
    omega

/-- Matches that make no difference have full length together (R105). -/
theorem SameMatch.fst_eq_iff {a b : Nat × Nat} (h : SameMatch a b) (hmaxlen : 2 ≤ maxlen) :
    a.1 = maxlen ↔ b.1 = maxlen := by
  rcases h with rfl | ⟨ha, hb⟩
  · exact Iff.rfl
  · omega

/-- Candidates whose match is too short to count may be left out (R105, R127). -/
theorem scanList_filter (hmaxlen : 2 ≤ maxlen) {P : Nat → Bool} {qs : List Nat} (hbefore : ∀ q ∈ qs, q < p)
    (hshort : ∀ q ∈ qs, P q = false → candidateLen buf p maxlen q < 2) {a b : Nat × Nat} (h : SameMatch a b)
    (ha : a.1 ≠ maxlen) :
    SameMatch (scanList buf p maxlen qs a) (scanList buf p maxlen (qs.filter P) b) := by
  induction qs generalizing a b with
  | nil => exact h
  | cons q qs ih =>
    rw [List.forall_mem_cons] at hbefore hshort
    obtain ⟨hq, hbefore⟩ := hbefore
    obtain ⟨hshortq, hshort⟩ := hshort
    by_cases hkeep : P q = true
    · have hstep := h.tryCandidate (buf := buf) (maxlen := maxlen) hq
      have hfull := hstep.fst_eq_iff hmaxlen
      rw [List.filter_cons_of_pos hkeep, scanList, scanList]
      by_cases hend : (tryCandidate buf p maxlen q a).1 = maxlen
      · rw [if_pos hend, if_pos (hfull.1 hend)]
        exact hstep
      · rw [if_neg hend, if_neg (mt hfull.2 hend)]
        exact ih hbefore hshort hstep hend
    · have hlen := hshortq (Bool.eq_false_of_not_eq_true hkeep)
      have hend : (tryCandidate buf p maxlen q a).1 ≠ maxlen := by
        rw [tryCandidate_fst hq]
        omega
      rw [List.filter_cons_of_neg hkeep, scanList, if_neg hend]
      exact ih hbefore hshort (h.tryCandidate_short hq hlen) hend

/-- The candidate is in the window before `p` (R104). -/
def inWindow (N p q : Nat) : Bool := decide (p - N ≤ q) && decide (q < p)

/-- The window in inequalities. -/
theorem inWindow_iff {N q : Nat} : inWindow N p q = true ↔ p - N ≤ q ∧ q < p := by simp [inWindow]

/-- The walk along a chain that goes down is the scan of the chain's candidates (R125). -/
theorem walkChain_eq_scanList {N : Nat} {next : LinkMemory} {left : Nat} {entry : Option Nat} {best : Nat × Nat}
    (hdown : (chainFrom next left entry).Pairwise (· > ·)) (hinside : ∀ q ∈ chainFrom next left entry, q < 2 * N)
    (hbest : best.1 ≠ maxlen) :
    walkChain N buf next p maxlen left entry best =
      .ok (scanList buf p maxlen ((chainFrom next left entry).filter (inWindow N p)) best) := by
  induction left generalizing entry best with
  | zero => rfl
  | succ left ih =>
    cases entry with
    | none => rfl
    | some q =>
      rw [chainFrom] at hdown hinside ⊢
      obtain ⟨hbelow, hdown⟩ := List.pairwise_cons.1 hdown
      obtain ⟨hq, hinside⟩ := List.forall_mem_cons.1 hinside
      rw [walkChain_step N buf next p maxlen left q best hq]
      by_cases hlow : q < p - N
      · have hnone : (q :: chainFrom next left (next.read q)).filter (inWindow N p) = [] := by
          refine List.filter_eq_nil_iff.2 (List.forall_mem_cons.2 ⟨?_, fun q' hq' => ?_⟩) <;> rw [inWindow_iff]
          · omega
          · have := hbelow q' hq'
            omega
        rw [if_pos hlow, hnone, scanList]
      · rw [if_neg hlow]
        by_cases hbefore : q < p
        · rw [List.filter_cons_of_pos (inWindow_iff.2 ⟨Nat.le_of_not_lt hlow, hbefore⟩), scanList]
          by_cases hend : (tryCandidate buf p maxlen q best).1 = maxlen
          · rw [if_pos ⟨hbefore, hend⟩, if_pos hend]
          · rw [if_neg (fun h => hend h.2), if_neg hend, ih hdown hinside hend]
        · have hskip : tryCandidate buf p maxlen q best = best := if_neg hbefore
          rw [List.filter_cons_of_neg (fun h => hbefore (inWindow_iff.1 h).2), if_neg (fun h => hbefore h.1), hskip,
            ih hdown hinside hbest]

/-- The positions with a key go down. -/
theorem keyPositions_pairwise (buf : ByteMemory) (n key : Nat) : (keyPositions buf n key).Pairwise (· > ·) :=
  List.pairwise_reverse.2 (List.pairwise_lt_range.filter _)

/-- The positions with a key are below the number indexed. -/
theorem keyPositions_lt {n key q : Nat} (h : q ∈ keyPositions buf n key) : q < n := by
  simp only [keyPositions, List.mem_reverse, List.mem_filter, List.mem_range] at h
  exact h.1

/-- The positions in the window, of those below `n`. -/
theorem range_filter_inWindow {N n : Nat} (hN : N ≤ p) (hn : p ≤ n) :
    (List.range n).filter (inWindow N p) = List.range' (p - N) N := by
  have hsplit : List.range n = List.range' 0 (p - N) ++ List.range' (p - N) N ++ List.range' p (n - p) := by
    have hp : p - N + N = p := Nat.sub_add_cancel hN
    have h1 := List.range'_append_1 (s := 0) (m := p - N) (n := N)
    have h2 := List.range'_append_1 (s := 0) (m := p) (n := n - p)
    rw [Nat.zero_add] at h1 h2
    rw [h1, hp, h2, Nat.add_sub_of_le hn, List.range_eq_range']
  rw [hsplit, List.filter_append, List.filter_append, List.filter_eq_nil_iff.2, List.filter_eq_self.2,
    List.filter_eq_nil_iff.2, List.nil_append, List.append_nil]
  all_goals
    intro q hq
    rw [List.mem_range'_1] at hq
    rw [inWindow_iff]
    omega

/-- The positions with a key in the window are the candidates with that key (R127). -/
theorem keyPositions_inWindow {N n : Nat} (hN : N ≤ p) (hn : p ≤ n) (key : Nat) :
    (keyPositions buf n key).filter (inWindow N p) =
      (candidates (p - N) N).filter (fun q => prefix2 buf q = key) := by
  rw [keyPositions, candidates, List.filter_reverse, List.filter_reverse, ← range_filter_inWindow hN hn,
    List.filter_filter, List.filter_filter]
  simp only [Bool.and_comm]

/-- A candidate with another key than `p` has no match that counts (R127). -/
theorem candidateLen_lt_of_prefix2_ne {q : Nat} (hmaxlen : 2 ≤ maxlen) (hkey : prefix2 buf q ≠ prefix2 buf p) :
    candidateLen buf p maxlen q < 2 := by
  refine Nat.lt_of_not_le fun htwo => hkey ?_
  have hagree := (le_candidateLen_iff hmaxlen).1 htwo
  have hfirst : buf.read q = buf.read p := hagree 0 (by decide)
  rw [prefix2, prefix2, hfirst, hagree 1 (by decide)]

end

/-- Settles O32: the chain of `p`'s key is the candidates with that key, and the others have no match that counts. -/
theorem indexedMatchIsLongestMatch : Obligations.IndexedMatchIsLongestMatch := by
  unfold Obligations.IndexedMatchIsLongestMatch
  intro N buf inputSize p maxlen hsize hN hinside
  unfold indexedMatch
  split
  · next hshort =>
    rcases longestMatchIsClosestLongest N buf p maxlen hN with ⟨hnone, -⟩ | ⟨htwo, hmax, -⟩
    · rw [hnone]
    · omega
  · next hmaxlen =>
    rw [longestMatch, scanFrom_eq_scanList (by omega)]
    have hmaxlen : 2 ≤ maxlen := Nat.le_of_not_lt hmaxlen
    have hchain := chainFrom_buildIndex buf (show N + inputSize - 1 ≤ chainCap N by unfold chainCap; omega)
      (prefix2 buf p)
    rw [walkChain_eq_scanList (by rw [hchain]; exact keyPositions_pairwise _ _ _)
      (fun q hq => by have := keyPositions_lt (hchain ▸ hq); omega) (by simp only; omega), hchain,
      keyPositions_inWindow hN (by omega)]
    refine congrArg Except.ok (SameMatch.atLeastTwo_eq ?_).symm
    refine scanList_filter hmaxlen (fun q hq => ?_) (fun q _ hkey => ?_) (.inl rfl) (by simp only; omega)
    · simp only [candidates, List.mem_reverse, List.mem_range'_1] at hq
      omega
    · exact candidateLen_lt_of_prefix2_ne hmaxlen (by simpa using hkey)

end Sys2Proof.Machine
end

section
/-! PROOFS. What Search records (O33) and what SaveBacklog leaves (O37). -/

namespace Sys2Proof.Machine

/-- The longest match is none, or counts (R104, R105). -/
theorem longestMatch_cases (N : Nat) (buf : ByteMemory) (p maxlen : Nat) :
    longestMatch N buf p maxlen = (0, 0) ∨ 2 ≤ (longestMatch N buf p maxlen).1 := by
  unfold longestMatch atLeastTwo
  split
  · next htwo => exact .inr htwo
  · exact .inl rfl

section
variable {e : Enc}

/-- Inside the block both searches find the longest match (R103, R123, R127). -/
theorem Enc.Sound.findMatch_eq (h : e.Sound) (hst : e.state = .search) {maxlen : Nat}
    (hmaxlen : e.matchScanIndex + maxlen ≤ e.inputSize) :
    e.findMatch e.position maxlen = .ok (longestMatch e.N e.buf e.position maxlen) := by
  unfold Enc.findMatch
  split
  · next hindexed =>
    obtain ⟨hhead, hnext⟩ := Prod.ext_iff.1 (h.indexFresh hindexed (.inl hst))
    obtain ⟨hsize, -⟩ := (Enc.inRange_iff e).1 h.ranges
    dsimp only at hhead hnext
    rw [hhead, hnext]
    exact indexedMatchIsLongestMatch e.N e.buf e.inputSize e.position maxlen hsize (Nat.le_add_right _ _)
      (by unfold Enc.position; omega)
  · rfl

/-- The longest match at the next byte to be coded (R103, R104). -/
def Enc.longestHere (e : Enc) : Nat × Nat :=
  longestMatch e.N e.buf e.position (min e.M (e.inputSize - e.matchScanIndex))

/-- Search at a byte still to be coded records the longest match there (R103, R105, R106). -/
theorem Enc.Sound.stepSearch_eq (h : e.Sound) (hst : e.state = .search) (hmsi : e.matchScanIndex < e.inputSize) :
    e.stepSearch =
      .ok (.go (e.withMatch e.longestHere.1 (if e.longestHere.1 = 0 then e.matchPos else e.longestHere.2))) := by
  obtain ⟨hsize, -⟩ := (Enc.inRange_iff e).1 h.ranges
  have hmaxlen := Nat.min_le_right e.M (e.inputSize - e.matchScanIndex)
  have hfind : e.findMatch e.position (min e.M (e.inputSize - e.matchScanIndex)) = .ok e.longestHere :=
    h.findMatch_eq hst (by omega)
  simp only [Enc.stepSearch, if_neg (Nat.not_le.2 hmsi), hfind,
    if_pos (show e.position + min e.M (e.inputSize - e.matchScanIndex) ≤ 2 * e.N by unfold Enc.position; omega)]
  rcases longestMatch_cases e.N e.buf e.position (min e.M (e.inputSize - e.matchScanIndex)) with hnone | htwo
  · have hnone : e.longestHere = (0, 0) := hnone
    rw [hnone]
    rfl
  · have htwo : 2 ≤ e.longestHere.1 := htwo
    rw [if_pos htwo, if_neg (by omega)]
    rfl

/-- The micro-step of Search at a byte still to be coded (R103). -/
theorem Enc.Sound.microStep_search (h : e.Sound) (hst : e.state = .search) (hmsi : e.matchScanIndex < e.inputSize)
    (room : Nat) :
    e.microStep room =
      .ok (.go (e.withMatch e.longestHere.1 (if e.longestHere.1 = 0 then e.matchPos else e.longestHere.2))) :=
  h.microStep_of_stateAction (by rw [Enc.stateAction, hst]; exact h.stepSearch_eq hst hmsi)

/-- Search at the end of the block goes on to SaveBacklog (R103). -/
theorem Enc.stepSearch_of_end (hend : ¬ e.matchScanIndex < e.inputSize) :
    e.stepSearch = .ok (.go { e with state := .saveBacklog }) := if_pos (Nat.le_of_not_lt hend)

/-- The micro-step of Search at the end of the block (R103). -/
theorem Enc.Sound.microStep_searchEnds (h : e.Sound) (hst : e.state = .search)
    (hend : ¬ e.matchScanIndex < e.inputSize) (room : Nat) :
    e.microStep room = .ok (.go { e with state := .saveBacklog }) :=
  h.microStep_of_stateAction (by rw [Enc.stateAction, hst]; exact Enc.stepSearch_of_end hend)

/-- SaveBacklog slides the window (R113). -/
theorem Enc.Sound.microStep_saveBacklog (h : e.Sound) (hst : e.state = .saveBacklog) (room : Nat) :
    e.microStep room = .ok (.go { e with
      buf := Memory.slide e.N e.buf
      inputSize := 0
      state := if e.finishing then .flushBits else .notFull }) :=
  h.microStep_of_stateAction (by rw [Enc.stateAction, hst]; rfl)

end

/-- Settles O33: by the equality of the searches, and as a match that does not count is `(0, 0)`. -/
theorem searchRecordsLongestMatch : Obligations.SearchRecordsLongestMatch := by
  unfold Obligations.SearchRecordsLongestMatch
  intro room e h hst hmsi
  exact h.microStep_search hst hmsi room

/-- Settles O37: by what a slide leaves at every index. -/
theorem saveBacklogSlidesTheWindow : Obligations.SaveBacklogSlidesTheWindow := by
  unfold Obligations.SaveBacklogSlidesTheWindow
  intro room e h hwf hst
  have hread (a : Nat) : ByteMemory.read (Memory.slide e.N e.buf) a =
      if a < e.N then e.buf.read (e.N + a) else e.buf.read a := Memory.read_slide 0 hwf.1 h.bufInside a
  exact ⟨Memory.slide e.N e.buf, h.microStep_saveBacklog hst room, fun k hk => (hread k).trans (if_pos hk),
    fun a ha => (hread a).trans (if_neg (Nat.not_lt.2 ha))⟩

end Sys2Proof.Machine
end

section
/-! PROOFS. A POLL through the index is the POLL without it (O34): a simulation, micro-step by micro-step. -/

namespace Sys2Proof.Machine

/-- The turn with `f` of its unit. -/
def Turn.map {σ τ : Type} (f : σ → τ) (t : Turn σ) : Turn τ := { unit := f t.unit, out := t.out, outcome := t.outcome }

/-- A POLL of `f u` is the POLL of `u`, when every micro-step of a unit with `P` is, and keeps `P` (R98, R131). -/
theorem pollLoop_map {σ : Type} {micro : Nat → σ → Except Fault (Turn σ)} {bound : Fault} {P : σ → Prop} {f : σ → σ}
    (hmicro : ∀ room u t, P u → micro room u = .ok t → P t.unit ∧ micro room (f u) = .ok (t.map f)) :
    ∀ {left room : Nat} {u u' : σ} {out : List Byte} {st : Status}, P u →
      pollLoop micro bound left room u = .ok (u', out, st) →
        pollLoop micro bound left room (f u) = .ok (f u', out, st) := by
  intro left
  induction left with
  | zero => intro _ _ _ _ _ _ h; cases h
  | succ left ih =>
    intro room u u' out st hu h
    obtain ⟨left', t, hleft, ht, hcase⟩ := pollLoop_ok h
    obtain rfl : left = left' := Nat.succ.inj hleft
    obtain ⟨hP, hf⟩ := hmicro room u t hu ht
    rcases hcase with ⟨hst, rfl, rfl⟩ | ⟨hnone, rest, hrest, rfl⟩
    · simp only [pollLoop, hf, Turn.map, hst]
    · simp only [pollLoop, hf, Turn.map, hnone, ih hP hrest]

/-- The same encoder without the index (R30). -/
def Enc.withoutIndex (e : Enc) : Enc := { e with indexed := false, head := [], next := [] }

/-- Without the index a sound encoder is sound. -/
theorem Enc.Sound.withoutIndex {e : Enc} (h : e.Sound) : e.withoutIndex.Sound :=
  { h with
    headInside := ⟨nofun, nofun⟩, nextInside := ⟨nofun, nofun⟩
    indexAbsent := fun _ => ⟨rfl, rfl⟩, indexFresh := nofun }

section
variable (e : Enc) (room : Nat)

/-- A PushStep does not look at the index (R87). -/
theorem Enc.pushStep_withoutIndex :
    e.withoutIndex.pushStep room = (e.pushStep room).map (Prod.map Enc.withoutIndex id) := by
  unfold Enc.pushStep
  dsimp only
  rw [apply_ite (Option.map _), apply_ite (Option.map _)]
  rfl

/-- The loop of PushField does not look at the index (R88). -/
theorem Enc.pushLoop_withoutIndex (left : Nat) :
    Enc.pushLoop left room e.withoutIndex =
      (Enc.pushLoop left room e).map Enc.withoutIndex id := by
  induction left generalizing room e with
  | zero => rfl
  | succ left ih =>
    by_cases hdone : e.outgoingBitsCount = 0
    · rw [Enc.pushLoop_done hdone, Enc.pushLoop_done (e := e.withoutIndex) hdone]
      rfl
    · have hdone' : ¬ e.withoutIndex.outgoingBitsCount = 0 := hdone
      simp only [Enc.pushLoop, if_neg hdone, if_neg hdone', Enc.pushStep_withoutIndex]
      cases e.pushStep room with
      | none => rfl
      | some r =>
        simp only [Option.map_some, Prod.map_fst, Prod.map_snd, id_eq, ih]
        rfl

/-- Starting a field does not look at the index (R86). -/
theorem Enc.pushLoad_withoutIndex (v w : Nat) : e.withoutIndex.pushLoad v w = (e.pushLoad v w).withoutIndex := by
  rw [Enc.pushLoad, Enc.pushLoad, apply_ite Enc.withoutIndex]
  rfl

/-- PushField does not look at the index (R88). -/
theorem Enc.pushField_withoutIndex (v w : Nat) :
    e.withoutIndex.pushField v w room = (e.pushField v w room).map Enc.withoutIndex id := by
  rw [Enc.pushField, Enc.pushLoad_withoutIndex]
  exact Enc.pushLoop_withoutIndex _ _ _

/-- What follows a field does not look at the index (R107 to R111). -/
theorem Enc.afterField_withoutIndex : e.withoutIndex.afterField = e.afterField.withoutIndex := by
  cases hst : e.state <;> simp only [Enc.afterField, Enc.withoutIndex, Enc.afterBytes, hst]

/-- A Yield state without the index takes the same turn (R88). -/
theorem Enc.yieldField_withoutIndex (v w : Nat) :
    e.withoutIndex.yieldField v w room Enc.afterField =
      (e.yieldField v w room Enc.afterField).map Enc.withoutIndex := by
  rw [Enc.yieldField, Enc.pushField_withoutIndex, Prod.map_fst, Enc.afterField_withoutIndex, Enc.yieldField,
    apply_ite (Turn.map Enc.withoutIndex)]
  rfl

/-- FlushPad does not look at the index (R90). -/
theorem Enc.flushPad_withoutIndex :
    e.withoutIndex.flushPad room = (e.flushPad room).map Enc.withoutIndex id := by
  rw [Enc.flushPad, Enc.flushPad, apply_ite (Prod.map Enc.withoutIndex id), apply_ite (Prod.map Enc.withoutIndex id)]
  rfl

end

section
variable {e : Enc}

/-- The search of a block without the index records the same match (R103, R127). -/
theorem Enc.Sound.stepSearch_withoutIndex (h : e.Sound) (hst : e.state = .search) :
    e.withoutIndex.stepSearch = e.stepSearch.map (Turn.map Enc.withoutIndex) := by
  by_cases hmsi : e.matchScanIndex < e.inputSize
  · rw [h.stepSearch_eq hst hmsi, h.withoutIndex.stepSearch_eq hst hmsi]
    rfl
  · rw [Enc.stepSearch_of_end hmsi]
    exact Enc.stepSearch_of_end (e := e.withoutIndex) hmsi

/-- The start of a block without the index is the same, but for the index that is built (R102, R123). -/
theorem Enc.Sound.stepFilled_withoutIndex (h : e.Sound) :
    e.withoutIndex.stepFilled = e.stepFilled.map (Turn.map Enc.withoutIndex) := by
  obtain ⟨hsize, -⟩ := (Enc.inRange_iff e).1 h.ranges
  rw [Enc.stepFilled.eq_def e]
  by_cases hindexed : e.indexed = true
  · rw [if_pos hindexed, if_pos (by omega)]
    rfl
  · rw [if_neg hindexed]
    rfl

/-- The action of every state of a sound encoder is the same without the index, the index apart (R100, R123, R127). -/
theorem Enc.Sound.stateAction_withoutIndex (h : e.Sound) (room : Nat) :
    e.withoutIndex.stateAction room = (e.stateAction room).map (Turn.map Enc.withoutIndex) := by
  by_cases hyield : e.state.isYield = true
  · rw [h.stateAction_yield hyield, h.withoutIndex.stateAction_yield hyield]
    exact congrArg Except.ok (e.yieldField_withoutIndex room e.field.1 e.field.2)
  have hsame : e.withoutIndex.state = e.state := rfl
  unfold Enc.stateAction
  rw [hsame]
  cases hst : e.state <;> simp only [hst, EncState.isYield, not_true_eq_false] at hyield
  case notFull =>
    dsimp only
    rw [Enc.stepNotFull, Enc.stepNotFull, apply_ite (Except.map (Turn.map Enc.withoutIndex))]
    rfl
  case filled => exact h.stepFilled_withoutIndex
  case search => exact h.stepSearch_withoutIndex hst
  case saveBacklog => rfl
  case flushBits =>
    dsimp only
    rw [Enc.stepFlushBits, Enc.stepFlushBits, Enc.flushPad_withoutIndex,
      apply_ite (Except.map (Turn.map Enc.withoutIndex))]
    rfl
  case done => rfl

/-- The micro-steps of a sound encoder without the index are its micro-steps, the index apart (R100). -/
theorem Enc.Sound.microStep_withoutIndex (h : e.Sound) {room : Nat} {t : Turn Enc} (ht : e.microStep room = .ok t) :
    e.withoutIndex.microStep room = .ok (t.map Enc.withoutIndex) :=
  h.withoutIndex.microStep_of_stateAction (by rw [h.stateAction_withoutIndex, (Enc.microStep_ok ht).1]; rfl)

/-- ENC.POLL without the index is ENC.POLL with it, the index apart (R117). -/
theorem Enc.Sound.poll_withoutIndex (h : e.Sound) {capacity : Nat} {e' : Enc} {out : List Byte} {st : Status}
    (hpoll : e.poll capacity = .ok (e', out, st)) :
    e.withoutIndex.poll capacity = .ok (e'.withoutIndex, out, st) := by
  have hbound : e.withoutIndex.pollBound = e.pollBound := rfl
  have hmap := pollLoop_map (micro := Enc.microStep) (P := Enc.Sound) (f := Enc.withoutIndex)
    (fun _ _ _ hu ht => ⟨hu.microStep ht, hu.microStep_withoutIndex ht⟩) h hpoll
  rwa [Enc.poll, hbound]

end

/-- Settles O34: the POLLs of an encoder and of the encoder without the index take the same micro-steps. -/
theorem indexedPollIsLinearPoll : Obligations.IndexedPollIsLinearPoll := by
  unfold Obligations.IndexedPollIsLinearPoll
  intro capacity s t hsound husable _ hexec
  rcases execEncPoll_next (hexec : execEncPoll capacity s = .next t) with ⟨hnot, -⟩ | ⟨-, e, out, st, hpoll, rfl⟩
  · simp [husable] at hnot
  have hrun : s.enc.withoutIndex.PollRun capacity out st e.withoutIndex := ⟨_, hsound.poll_withoutIndex hpoll⟩
  exact Enc.PollRun.exec (s := s.setEnc s.enc.withoutIndex) hrun hsound.withoutIndex husable

end Sys2Proof.Machine
end

section
/-! PROOFS. How ENC.POLL ends (O23), and where it waits or is at its end (O26, O27). -/

namespace Sys2Proof.Machine

section
variable {e : Enc} {room : Nat} {t : Turn Enc}

/-- NotFull waits for input where the lookahead is not full and the stream goes on (R101, R115). -/
theorem Enc.Sound.microStep_waits (h : e.Sound) (hst : e.state = .notFull)
    (hwaits : ¬ (e.inputSize = e.N ∨ e.finishing = true)) (room : Nat) :
    e.microStep room = .ok (.stop e .needInput) :=
  h.microStep_of_stateAction (by simp only [Enc.stateAction, hst, Enc.stepNotFull, if_neg hwaits])

/-- NotFull starts a block that is full or the last (R101). -/
theorem Enc.Sound.microStep_starts (h : e.Sound) (hst : e.state = .notFull)
    (hstarts : e.inputSize = e.N ∨ e.finishing = true) (room : Nat) :
    e.microStep room = .ok (.go { e with state := .filled }) :=
  h.microStep_of_stateAction (by simp only [Enc.stateAction, hst, Enc.stepNotFull, if_pos hstarts])

/-- Done stays (R114). -/
theorem Enc.Sound.microStep_done (h : e.Sound) (hst : e.state = .done) (room : Nat) :
    e.microStep room = .ok (.stop e .finished) :=
  h.microStep_of_stateAction (by simp only [Enc.stateAction, hst, Enc.stepDone])

/-- ENC has nothing more to do: it waits for input, or is at the end of the stream (R98). -/
def Enc.AtRest (e : Enc) : Prop :=
  e.state = .done ∨ e.state = .notFull ∧ e.finishing = false ∧ e.inputSize < e.N

/-- A sound encoder at rest ends its POLL with EMPTY and nothing changed (R98, R101, R114). -/
theorem Enc.Sound.pollRun_atRest (h : e.Sound) (hrest : e.AtRest) (room : Nat) : e.PollRun room [] .empty e := by
  rcases hrest with hdone | ⟨hnotFull, hfin, hsize⟩
  · exact .last (h.microStep_done hdone room) rfl
  · exact .last (h.microStep_waits hnotFull (by simp [hfin, hsize.ne]) room) rfl

/-- A micro-step of a sound encoder that ends the POLL stalls with every slot used, or leaves ENC, at rest, as it is
(R98, R100). -/
theorem Enc.Sound.microStep_ends (h : e.Sound) (ht : e.microStep room = .ok t) {st : Status}
    (hst : t.outcome.pollStatus = some st) :
    (st = .more ∧ t.outcome = .stall ∧ t.out.length = room) ∨ (st = .empty ∧ e.AtRest ∧ t.unit = e ∧ t.out = []) := by
  by_cases hnotFull : e.state = .notFull
  · by_cases hstarts : e.inputSize = e.N ∨ e.finishing = true
    · cases (h.microStep_starts hnotFull hstarts room).symm.trans ht
      cases hst
    · cases (h.microStep_waits hnotFull hstarts room).symm.trans ht
      cases hst
      obtain ⟨hsize, -⟩ := (Enc.inRange_iff e).1 h.ranges
      rw [not_or, Bool.not_eq_true] at hstarts
      exact .inr ⟨rfl, .inr ⟨hnotFull, hstarts.2, hsize.lt_of_ne hstarts.1⟩, rfl, rfl⟩
  · by_cases hdone : e.state = .done
    · cases (h.microStep_done hdone room).symm.trans ht
      cases hst
      exact .inr ⟨rfl, .inl hdone, rfl, rfl⟩
    · rcases h.continues_or_stalls hnotFull hdone ht with ho | ho <;> rw [ho] at hst <;> cases hst
      exact .inl ⟨rfl, ho, (h.microStep_resume ht ho).1⟩

/-- A POLL of a sound encoder ends with MORE and every slot used, or with EMPTY and ENC at rest (R98). -/
theorem Enc.Sound.pollRun_ends {e' : Enc} {out : List Byte} {st : Status} (h : e.Sound)
    (hrun : e.PollRun room out st e') :
    (st = .more ∧ out.length = room) ∨ (st = .empty ∧ out.length ≤ room ∧ e'.AtRest) := by
  refine Enc.PollRun.induction
    (R := fun room _ out => (st = .more ∧ out.length = room) ∨ (st = .empty ∧ out.length ≤ room ∧ e'.AtRest))
    (fun {room e t} h ht hst heq => ?_) (fun {room e t rest} _ ht _ hrest => ?_) h hrun
  · refine (h.microStep_ends ht hst).imp (fun hmore => ⟨hmore.1, hmore.2.2⟩) fun hempty => ?_
    obtain ⟨rfl, hatRest, hunit, hout⟩ := hempty
    rw [← heq, hunit, hout]
    exact ⟨rfl, Nat.zero_le _, hatRest⟩
  · have hlen := (Enc.microStep_does ht).length
    rw [List.length_append]
    refine hrest.imp (fun hmore => ⟨hmore.1, by omega⟩) fun hempty => ?_
    exact ⟨hempty.1, by omega, hempty.2.2⟩

end

/-- Settles O23: the micro-steps left stay below the bound, and the one that ends the POLL says how. -/
theorem encPollCompletes : Obligations.EncPollCompletes := by
  unfold Obligations.EncPollCompletes
  intro capacity s h husable
  obtain ⟨e, out, st, hpoll, -⟩ := Enc.poll_answers h capacity
  have hrun : s.enc.PollRun capacity out st e := ⟨_, hpoll⟩
  exact ⟨e, out, st, hpoll, hrun.exec h husable, h.pollRun_ends hrun⟩

/-- Settles O26: ENC is at rest. -/
theorem encPollEmptyBeforeFullBlock : Obligations.EncPollEmptyBeforeFullBlock := by
  unfold Obligations.EncPollEmptyBeforeFullBlock
  intro capacity s h husable hst hfin hsize
  exact (h.pollRun_atRest (.inr ⟨hst, hfin, hsize⟩) capacity).exec h husable

/-- What ENC.FINISH of a usable encoder answers (R99). -/
theorem execEncFinish_of_usable {s : State} (husable : s.enc.usable = true) :
    execEncFinish s = .next ((s.setEnc { s.enc with finishing := true }).setResponse
      ⟨if s.enc.state = .done then .done else .more, 0, []⟩) := by
  rw [execEncFinish, husable]
  rfl

/-- Settles O16: an unusable ENC only responds, and the state decides between DONE and MORE. -/
theorem encFinishSetsFinishing : Obligations.EncFinishSetsFinishing := by
  unfold Obligations.EncFinishSetsFinishing
  refine fun s => ⟨fun hunusable => ?_, fun husable hst => ?_, fun husable hst => ?_⟩
  · show execEncFinish s = _
    rw [execEncFinish, hunusable]
    rfl
  · exact (execEncFinish_of_usable husable).trans (by rw [if_pos hst]; rfl)
  · exact (execEncFinish_of_usable husable).trans (by rw [if_neg hst]; rfl)

/-- Settles O27: in Done ENC is at rest and `finishing` is set. -/
theorem encDoneIsTerminal : Obligations.EncDoneIsTerminal := by
  unfold Obligations.EncDoneIsTerminal
  intro capacity src s h husable hst
  have hfin : s.enc.finishing = true := h.flushing (.inr hst)
  have hsame : { s.enc with finishing := true } = s.enc := by rw [← hfin]
  obtain ⟨-, hfinish, -⟩ := encFinishSetsFinishing s
  refine ⟨(h.pollRun_atRest (.inl hst) capacity).exec h husable, ?_, ?_⟩
  · rw [hfinish husable hst, hsame]
  · show execEncSink src s = _
    rw [execEncSink, husable, hfin]
    rfl

end Sys2Proof.Machine
end

section
/-! PROOFS. The transitions of ENC's FSM (O29). -/

namespace Sys2Proof.Machine

section
variable {e : Enc} {room : Nat} {t : Turn Enc}

/-- Filled goes on to Search at the start of the block (R102). -/
theorem Enc.microStep_filled (hst : e.state = .filled) (ht : e.microStep room = .ok t) :
    ∃ head next, t = .go { e with matchScanIndex := 0, head := head, next := next, state := .search } := by
  have haction := (Enc.microStep_ok ht).1
  simp only [Enc.stateAction, hst, Enc.stepFilled] at haction
  split_ifs at haction <;> cases haction
  · exact ⟨_, _, rfl⟩
  · exact ⟨e.head, e.next, rfl⟩

/-- A Yield state changes the accumulator, and where its field is placed goes on to what follows it (R88). -/
theorem Enc.Sound.yield_cases (h : e.Sound) (hyield : e.state.isYield = true) (ht : e.microStep room = .ok t) :
    ∃ a, (t.outcome = .continues ∧ t.unit = (e.withAccumulatorOf a).afterField) ∨
      (t.outcome = .stall ∧ t.unit = e.withAccumulatorOf a) := by
  cases (h.microStep_yield hyield room).symm.trans ht
  have hpushed := Enc.pushField_withAccumulatorOf e.field.1 e.field.2 room e
  refine ⟨(e.pushField e.field.1 e.field.2 room).1, ?_⟩
  rcases Enc.yieldField_cases e.field.1 e.field.2 room e Enc.afterField with ⟨-, heq⟩ | ⟨-, heq⟩ <;> rw [heq, ← hpushed]
  · exact .inl ⟨rfl, rfl⟩
  · exact .inr ⟨rfl, rfl⟩

/-- What follows a field leaves the match (R112). -/
theorem Enc.afterField_match (e : Enc) :
    e.afterField.matchLength = e.matchLength ∧ e.afterField.matchPos = e.matchPos := by
  unfold Enc.afterField
  cases e.state <;> exact ⟨rfl, rfl⟩

/-- A micro-step that ends the POLL stays in its state (R100; log 10). -/
theorem Enc.Sound.state_of_not_continues (h : e.Sound) (ht : e.microStep room = .ok t)
    (hends : t.outcome ≠ .continues) :
    t.unit.state = e.state := by
  by_cases hyield : e.state.isYield = true
  · obtain ⟨a, ⟨hcontinues, -⟩ | ⟨-, hunit⟩⟩ := h.yield_cases hyield ht
    · exact absurd hcontinues hends
    · rw [hunit]
      rfl
  · obtain ⟨st, hst⟩ : ∃ st, t.outcome.pollStatus = some st :=
      Option.ne_none_iff_exists'.1 fun hnone => hends (Micro.pollStatus_none hnone)
    rcases h.microStep_ends ht hst with ⟨-, hstall, -⟩ | ⟨-, -, hunit, -⟩
    · have haction := (Enc.microStep_ok ht).1
      by_cases hflush : e.state = .flushBits
      · rw [((Enc.stateAction_flush_room hflush haction 0).2 hstall).2]
        rfl
      · exact absurd hstall (Enc.stateAction_slotless (by simpa using hyield) hflush haction).1
    · rw [hunit]

/-- Only Search writes the match (R112). -/
theorem Enc.Sound.match_of_not_search (h : e.Sound) (ht : e.microStep room = .ok t) (hsearch : e.state ≠ .search) :
    t.unit.matchLength = e.matchLength ∧ t.unit.matchPos = e.matchPos := by
  by_cases hyield : e.state.isYield = true
  · obtain ⟨a, ⟨-, hunit⟩ | ⟨-, hunit⟩⟩ := h.yield_cases hyield ht <;> rw [hunit]
    · exact Enc.afterField_match (e.withAccumulatorOf a)
    · exact ⟨rfl, rfl⟩
  · have haction := (Enc.microStep_ok ht).1
    cases hst : e.state <;> simp only [hst, EncState.isYield, not_true_eq_false, ne_eq] at hyield hsearch
    case notFull =>
      simp only [Enc.stateAction, hst, Enc.stepNotFull] at haction
      split_ifs at haction <;> cases haction <;> exact ⟨rfl, rfl⟩
    case filled =>
      obtain ⟨_, _, rfl⟩ := Enc.microStep_filled hst ht
      exact ⟨rfl, rfl⟩
    case saveBacklog =>
      cases (h.microStep_saveBacklog hst room).symm.trans ht
      exact ⟨rfl, rfl⟩
    case flushBits =>
      simp only [Enc.stateAction, hst, Enc.stepFlushBits] at haction
      rcases h.accumulator.flushPad_cases room with heq | ⟨out, heq⟩ <;> rw [heq] at haction <;> cases haction <;>
        exact ⟨rfl, rfl⟩
    case done =>
      cases (h.microStep_done hst room).symm.trans ht
      exact ⟨rfl, rfl⟩

end

/-- Settles O29: state by state; a Yield state that goes on does so to what follows its field. -/
theorem encMicroStepTransitions : Obligations.EncMicroStepTransitions := by
  unfold Obligations.EncMicroStepTransitions
  intro room e t h ht
  refine ⟨h.state_of_not_continues ht, fun hcontinues => ?_, h.match_of_not_search ht⟩
  have hyield (hy : e.state.isYield = true) : ∃ a, t.unit = (e.withAccumulatorOf a).afterField := by
    obtain ⟨a, ⟨-, hunit⟩ | ⟨hstall, -⟩⟩ := h.yield_cases hy ht
    · exact ⟨a, hunit⟩
    · rw [hstall] at hcontinues
      cases hcontinues
  cases hst : e.state with
  | notFull =>
    by_cases hstarts : e.inputSize = e.N ∨ e.finishing = true
    · cases (h.microStep_starts hst hstarts room).symm.trans ht
      exact ⟨rfl, hstarts⟩
    · cases (h.microStep_waits hst hstarts room).symm.trans ht
      cases hcontinues
  | filled =>
    obtain ⟨_, _, rfl⟩ := Enc.microStep_filled hst ht
    exact ⟨rfl, rfl⟩
  | search =>
    by_cases hmsi : e.matchScanIndex < e.inputSize
    · cases (h.microStep_search hst hmsi room).symm.trans ht
      exact .inr ⟨rfl, hmsi⟩
    · cases (h.microStep_searchEnds hst hmsi room).symm.trans ht
      exact .inl ⟨rfl, Nat.le_of_not_lt hmsi⟩
  | yieldTagBit =>
    obtain ⟨a, hunit⟩ := hyield (by rw [hst]; rfl)
    obtain ⟨-, -, hlength, -⟩ := (Enc.inRange_iff e).1 h.ranges
    simp only [hunit, Enc.afterField, Enc.withAccumulatorOf, hst]
    split_ifs with hliteral
    · exact .inl ⟨rfl, hliteral⟩
    · exact .inr ⟨rfl, (hlength.resolve_left hliteral).1⟩
  | yieldLiteral =>
    obtain ⟨a, hunit⟩ := hyield (by rw [hst]; rfl)
    simp only [hunit, Enc.afterField, Enc.withAccumulatorOf, hst]
    exact ⟨rfl, rfl⟩
  | yieldBackRefIndex =>
    obtain ⟨a, hunit⟩ := hyield (by rw [hst]; rfl)
    simp only [hunit, Enc.afterField, Enc.withAccumulatorOf, hst]
  | yieldBackRefLength =>
    obtain ⟨a, hunit⟩ := hyield (by rw [hst]; rfl)
    simp only [hunit, Enc.afterField, Enc.withAccumulatorOf, hst]
    exact ⟨rfl, rfl⟩
  | saveBacklog =>
    cases (h.microStep_saveBacklog hst room).symm.trans ht
    rfl
  | flushBits =>
    rw [(h.flushBits_pads hst ht hcontinues).1]
    exact ⟨rfl, rfl⟩
  | done =>
    cases (h.microStep_done hst room).symm.trans ht
    cases hcontinues

end Sys2Proof.Machine
end

section
/-! PROOFS. ENC.NEW (O9) and ENC.SINK (O12). -/

namespace Sys2Proof.Machine

/-- A field of the configuration word, as a number (R79). -/
theorem CfgWord.toNat_extractLsb' (cfg : CfgWord) (start len : Nat) :
    (cfg.extractLsb' start len).toNat = cfg.toNat / 2 ^ start % 2 ^ len := by
  rw [BitVec.extractLsb'_toNat, Nat.shiftRight_eq_div_pow]

/-- INDEXED is bit 8 of the configuration word (R79). -/
theorem cfgIndexed_eq (cfg : CfgWord) : cfgIndexed cfg = decide (cfg.toNat / 256 % 2 = 1) := by
  rw [cfgIndexed, BitVec.getLsbD, Nat.testBit_eq_decide_div_mod_eq]

/-- The window exponent is `cfg[3:0]` (R79). -/
theorem cfgW_eq (cfg : CfgWord) : cfgW cfg = cfg.toNat % 16 :=
  (CfgWord.toNat_extractLsb' cfg 0 4).trans (by rw [Nat.pow_zero, Nat.div_one]; rfl)

/-- The lookahead exponent is `cfg[7:4]` (R79). -/
theorem cfgL_eq (cfg : CfgWord) : cfgL cfg = cfg.toNat / 16 % 16 := CfgWord.toNat_extractLsb' cfg 4 4

/-- ENC accepts legal parameters with the reserved bits 0 (R79, R96). -/
theorem encCfgValid_iff (cfg : CfgWord) : encCfgValid cfg = true ↔
    8 ≤ cfg.toNat % 16 ∧ 4 ≤ cfg.toNat / 16 % 16 ∧ cfg.toNat / 16 % 16 < cfg.toNat % 16 ∧
      cfg.toNat / 512 % 128 = 0 ∧ cfg.toNat / 65536 = 0 := by
  have hlow : cfg.extractLsb' 9 7 = 0 ↔ cfg.toNat / 512 % 128 = 0 := by
    rw [← BitVec.toNat_inj, CfgWord.toNat_extractLsb']
    rfl
  have hhigh : cfg.extractLsb' 16 16 = 0 ↔ cfg.toNat / 65536 = 0 := by
    have hlt : cfg.toNat / 65536 < 65536 := by have := cfg.isLt; omega
    rw [← BitVec.toNat_inj, CfgWord.toNat_extractLsb']
    exact iff_of_eq (congrArg (· = 0) (Nat.mod_eq_of_lt hlt))
  rw [encCfgValid, Bool.and_eq_true, Bool.and_eq_true, legalParameters_iff, decide_eq_true_iff, decide_eq_true_iff,
    hlow, hhigh, cfgW_eq, cfgL_eq]
  omega

/-- Settles O9: by what makes a configuration word valid. -/
theorem encNewConstructsOrRefuses : Obligations.EncNewConstructsOrRefuses := by
  unfold Obligations.EncNewConstructsOrRefuses
  intro cfg s
  rw [← encCfgValid_iff]
  refine ⟨fun hvalid => ?_, fun hinvalid => ⟨s.enc.afterRefusedNew, rfl, ?_⟩⟩
  · rw [← cfgW_eq, ← cfgL_eq, ← cfgIndexed_eq]
    exact if_pos hvalid
  · exact if_neg hinvalid

/-- A SINK takes as many bytes as there are, and as there is room for (R97, R130). -/
theorem length_sinkTaken (room : Nat) (src : List Byte) : (sinkTaken room src).length = min src.length room := by
  rw [sinkTaken, List.length_take, Nat.min_comm]

/-- The bytes that a SINK takes are the first of `src` (R97, R130). -/
theorem getElem?_sinkTaken {room k : Nat} {src : List Byte} (hk : k < min src.length room) :
    src[k]? = some ((sinkTaken room src).getD k 0) := by
  have hroom : k < room := by omega
  have hsrc : k < src.length := by omega
  simp [sinkTaken, hroom, hsrc]

/-- What ENC.SINK answers where there is room (R97). -/
theorem execEncSink_of_room {src : List Byte} {s : State} (husable : s.enc.usable = true)
    (hfin : s.enc.finishing = false) (hroom : s.enc.inputSize < s.enc.N) :
    execEncSink src s = .next ((s.setEnc (s.enc.sunk src)).setResponse
      ⟨.ok, (sinkTaken (s.enc.N - s.enc.inputSize) src).length, []⟩) := by
  rw [execEncSink, husable, hfin]
  exact if_neg (Nat.sub_ne_zero_of_lt hroom)

/-- What every index of `BUF` reads as after a SINK (R97). -/
theorem Enc.read_sunk {e : Enc} (h : Memory.wf 0 e.buf) (src : List Byte) (a : Nat) :
    (e.sunk src).buf.read a =
      if e.N + e.inputSize ≤ a ∧ a < e.N + e.inputSize + min src.length (e.N - e.inputSize) then
        (sinkTaken (e.N - e.inputSize) src).getD (a - (e.N + e.inputSize)) 0
      else e.buf.read a := by
  rw [← length_sinkTaken]
  exact Memory.read_writeList 0 h _ _ a

/-- Settles O12: by what the bytes written leave at every index. -/
theorem encSinkTakesWhatFits : Obligations.EncSinkTakesWhatFits := by
  unfold Obligations.EncSinkTakesWhatFits
  refine fun src s hmem => ⟨fun hunusable => ?_, fun husable hfin => ?_, fun husable hfin hfull => ?_,
    fun husable hfin hroom => ⟨(s.enc.sunk src).buf, ?_, fun k hk => ?_, fun a ha => ?_⟩⟩
  · show execEncSink src s = _
    rw [execEncSink, hunusable]
    rfl
  · show execEncSink src s = _
    rw [execEncSink, husable, hfin]
    rfl
  · show execEncSink src s = _
    rw [execEncSink, husable, hfin]
    exact if_pos (Nat.sub_eq_zero_of_le hfull)
  · refine (execEncSink_of_room husable hfin hroom).trans ?_
    rw [Enc.sunk, length_sinkTaken]
    rfl
  · show _ = some ((s.enc.sunk src).buf.read (s.enc.N + s.enc.inputSize + k))
    rw [Enc.read_sunk hmem.buf, if_pos ⟨by omega, Nat.add_lt_add_left hk _⟩, Nat.add_sub_cancel_left]
    exact getElem?_sinkTaken hk
  · rw [Enc.read_sunk hmem.buf, if_neg]
    rintro ⟨hlow, hhigh⟩
    exact ha (a - (s.enc.N + s.enc.inputSize)) (by change _ < min _ (s.enc.N - _); omega)
      (by change a = s.enc.N + _ + _; omega)

end Sys2Proof.Machine
end

section
/-! PROOFS. The chains of the index list the positions of their keys (O31). -/

namespace Sys2Proof.Machine

/-- Settles O31: by induction on the positions indexed (`chainFrom_buildIndex`), each becoming the head of its key's chain
and leaving the links below it. -/
theorem chainListsThePositions : Obligations.ChainListsThePositions := by
  unfold Obligations.ChainListsThePositions
  intro buf n key left hleft
  exact chainFrom_buildIndex buf hleft key

end Sys2Proof.Machine
end

section
/-! SUPPORT. How a micro-step of DEC ends the POLL, and what it leaves where the POLL goes on (R133). -/

namespace Sys2Proof.Machine

/-- Why DEC cannot go on, as a micro-step says it: a byte is due and there is no slot, or the bits left are fewer than
the state pulls (R133, R142). -/
def Dec.CannotGoOn (room : Nat) (d : Dec) (r : Micro) : Prop :=
  r = .stall ∧ room = 0 ∧ (d.state = .yieldLiteral ∨ d.state = .yieldBackref) ∨
  r = .underflow ∧ ∃ w, d.pullWidth = some w ∧ d.unreadBits.length < w

/-- DEC after the number `r` pulled in a state that emits nothing (R134, R136 to R139). -/
def Dec.afterPull (st : DecState) (r : Nat) (d : Dec) : Dec :=
  match st with
  | .tagBit => d.afterTag r
  | .backrefIndexMSB => d.afterIndexHigh r
  | .backrefIndexLSB => d.afterIndexLow r
  | .backrefCountMSB => d.afterCountHigh r
  | .backrefCountLSB => d.afterCountLow r
  | .yieldLiteral => d
  | .yieldBackref => d

section
variable {field : DecState → Nat → Nat} {room w v : Nat} {d e : Dec} {t : Turn Dec}

/-- Every pulling state but YieldLiteral pulls its width and moves on within the token (R133, R141). -/
theorem Dec.stateAction_pulls (hw : d.pullWidth = some w) (hst : d.state ≠ .yieldLiteral) :
    d.stateAction field room = d.pulling w field fun r e => .ok (.go (e.afterPull d.state r)) := by
  cases hstate : d.state <;> rw [Dec.pullWidth, hstate] at hw <;> cases hw
  case yieldLiteral.refl => exact absurd hstate hst
  case tagBit.refl => exact Dec.stateAction_tagBit hstate
  case backrefIndexMSB.refl => exact Dec.stateAction_backrefIndexMSB hstate
  case backrefIndexLSB.refl => exact Dec.stateAction_backrefIndexLSB hstate
  case backrefCountMSB.refl => exact Dec.stateAction_backrefCountMSB hstate
  case backrefCountLSB.refl => exact Dec.stateAction_backrefCountLSB hstate

/-- YieldBackref is the state that pulls nothing (R141). -/
theorem Dec.pullWidth_eq_none : d.pullWidth = none ↔ d.state = .yieldBackref := by
  cases hst : d.state <;> simp [Dec.pullWidth, hst]

/-- A pull underflows where fewer bits are unread than it takes (R93). -/
theorem Dec.pull_underflows (h : d.pull w = .ok none) : d.unreadBits.length < w := by
  rw [Dec.unreadBits_length]
  unfold Dec.pull at h
  split at h
  · assumption
  · split at h <;> cases h

/-- A pulling state that does not continue underflows (R133). -/
theorem Dec.pulling_cannotGoOn {next : Nat → Dec → Except Fault (Turn Dec)} (hw : d.pullWidth = some w)
    (h : d.pulling w field next = .ok t) (hnext : ∀ r e, next r e = .ok t → t.outcome = .continues)
    (hend : t.outcome ≠ .continues) : d.CannotGoOn room t.outcome := by
  rcases Dec.pulling_ok h with ⟨hpull, rfl⟩ | ⟨v, e, -, ht⟩
  · exact .inr ⟨rfl, w, hw, Dec.pull_underflows hpull⟩
  · exact absurd (hnext _ _ ht) hend

/-- In the two states that emit, DEC stalls without a slot (R135, R140). -/
theorem Dec.stateAction_stalls (hst : d.state = .yieldLiteral ∨ d.state = .yieldBackref) :
    d.stateAction field 0 = .ok (.stop d .stall) := by
  rcases hst with hst | hst <;> rw [Dec.stateAction, hst] <;> rfl

/-- With a slot YieldBackref goes on (R140). -/
theorem Dec.stepYieldBackref_continues (hroom : room ≠ 0) (h : d.stepYieldBackref room = .ok t) :
    t.outcome = .continues := by
  rw [Dec.stepYieldBackref, if_neg hroom] at h
  split at h
  · cases h
  · split at h
    · cases h
    · split at h <;> cases h
      rfl

/-- A micro-step that does not continue says why DEC cannot go on (R133). -/
theorem Dec.microStep_cannotGoOn (h : d.microStep field room = .ok t) (hend : t.outcome ≠ .continues) :
    d.CannotGoOn room t.outcome := by
  have haction := (Dec.microStep_ok h).1
  by_cases hstall : room = 0 ∧ (d.state = .yieldLiteral ∨ d.state = .yieldBackref)
  · obtain ⟨rfl, hst⟩ := hstall
    cases (Dec.stateAction_stalls hst).symm.trans haction
    exact .inl ⟨rfl, rfl, hst⟩
  · cases hw : d.pullWidth with
    | none =>
      have hst := Dec.pullWidth_eq_none.1 hw
      rw [Dec.stateAction, hst] at haction
      exact absurd (Dec.stepYieldBackref_continues (fun hroom => hstall ⟨hroom, .inr hst⟩) haction) hend
    | some w =>
      by_cases hst : d.state = .yieldLiteral
      · rw [Dec.stateAction, hst, Dec.stepYieldLiteral, if_neg fun hroom => hstall ⟨hroom, .inl hst⟩] at haction
        refine Dec.pulling_cannotGoOn (by rw [Dec.pullWidth, hst]) haction (fun r e ht => ?_) hend
        split at ht <;> cases ht
        rfl
      · rw [Dec.stateAction_pulls hw hst] at haction
        refine Dec.pulling_cannotGoOn hw haction (fun r e ht => ?_) hend
        cases ht
        rfl

/-- Where the tag is pulled, it is the next unread bit (R134). -/
theorem Dec.Sound.pull_tag (h : d.Sound) (hpull : d.pull 1 = .ok (some (v, e))) :
    v = 1 ∧ d.unreadBits.head? = some true ∨ v = 0 ∧ d.unreadBits.head? = some false := by
  obtain ⟨-, hfew, henough⟩ := pullReadsTheNextBits 1 d h (by decide)
  cases hbits : d.unreadBits with
  | nil =>
    rw [hbits] at hfew
    cases hpull.symm.trans (hfew (by decide))
  | cons b rest =>
    rw [hbits] at henough
    obtain ⟨e', hreads, -⟩ := henough (Nat.succ_pos _)
    cases hpull.symm.trans hreads
    cases b
    · exact .inr ⟨rfl, rfl⟩
    · exact .inl ⟨rfl, rfl⟩

/-- A pulling state other than YieldLiteral goes on with what it pulled (R133, R134, R136 to R139). -/
theorem Dec.microStep_pulls (h : d.microStep asPulled room = .ok t) (hcontinues : t.outcome = .continues)
    (hw : d.pullWidth = some w) (hst : d.state ≠ .yieldLiteral) :
    ∃ v e, d.pull w = .ok (some (v, e)) ∧ e.W = d.W ∧ e.L = d.L ∧ t.unit = e.afterPull d.state v := by
  have haction := (Dec.microStep_ok h).1
  rw [Dec.stateAction_pulls hw hst] at haction
  rcases Dec.pulling_ok haction with ⟨-, rfl⟩ | ⟨v, e, hpull, ht⟩
  · cases hcontinues
  · cases ht
    obtain ⟨-, hW, hL, -⟩ := (Dec.Runs.of_pull hpull).flags
    exact ⟨v, e, hpull, hW, hL, rfl⟩

/-- The state a pulling state goes on to, when what it pulled does not matter to that (R136 to R139). -/
theorem Dec.microStep_goes (h : d.microStep asPulled room = .ok t) (hcontinues : t.outcome = .continues)
    (hw : d.pullWidth = some w) (hst : d.state ≠ .yieldLiteral) {st : DecState}
    (hnext : ∀ (v : Nat) (e : Dec), e.L = d.L → (e.afterPull d.state v).state = st) : t.unit.state = st := by
  obtain ⟨v, e, -, -, hL, hunit⟩ := Dec.microStep_pulls h hcontinues hw hst
  rw [hunit]
  exact hnext v e hL

/-- In the two states that emit, DEC goes on with a slot only (R135, R140). -/
theorem Dec.microStep_slot (h : d.microStep field room = .ok t) (hcontinues : t.outcome = .continues)
    (hst : d.state = .yieldLiteral ∨ d.state = .yieldBackref) : room ≠ 0 := by
  rintro rfl
  cases (Dec.stateAction_stalls hst).symm.trans (Dec.microStep_ok h).1
  cases hcontinues

/-- A literal that is emitted ends its token (R135). -/
theorem Dec.microStep_literal (h : d.microStep field room = .ok t) (hcontinues : t.outcome = .continues)
    (hst : d.state = .yieldLiteral) : t.unit.state = .tagBit := by
  have haction := (Dec.microStep_ok h).1
  have hroom := Dec.microStep_slot h hcontinues (.inl hst)
  rw [Dec.stateAction, hst, Dec.stepYieldLiteral, if_neg hroom] at haction
  rcases Dec.pulling_ok haction with ⟨-, rfl⟩ | ⟨v, e, -, ht⟩
  · cases hcontinues
  · split at ht <;> cases ht
    rfl

/-- YieldBackref of a sound DEC goes on with one byte copied (R140). -/
theorem Dec.Sound.microStep_copies (hs : d.Sound) (h : d.microStep field room = .ok t)
    (hcontinues : t.outcome = .continues) (hst : d.state = .yieldBackref) : t.unit = d.afterCopy := by
  have haction := (Dec.microStep_ok h).1
  have hroom := Dec.microStep_slot h hcontinues (.inr hst)
  rw [Dec.stateAction, hst] at haction
  obtain ⟨hleft, -⟩ := hs.copying hst
  cases (Dec.stepYieldBackref_copies hroom (Nat.ne_of_gt hleft) hs.headIndex_lt).symm.trans haction
  rfl

end

end Sys2Proof.Machine
end

section
/-! PROOFS. The transitions of DEC's FSM (O40). -/

namespace Sys2Proof.Machine

/-- Settles O40: by why a micro-step cannot go on, and by the state each state goes on to. -/
theorem decMicroStepTransitions : Obligations.DecMicroStepTransitions := by
  unfold Obligations.DecMicroStepTransitions
  refine fun room d t h ht => ⟨fun hend => ?_, fun hcontinues => ?_⟩
  · obtain ⟨r, rfl⟩ := Dec.microStep_ends ht hend
    exact ⟨rfl, rfl, Dec.microStep_cannotGoOn ht hend⟩
  · cases hst : d.state with
    | tagBit =>
      obtain ⟨v, e, hpull, hW, -, hunit⟩ :=
        Dec.microStep_pulls ht hcontinues (by rw [Dec.pullWidth, hst]) (by simp [hst])
      obtain ⟨hW8, -⟩ := legalParameters_iff.1 h.legal
      rw [hst] at hunit
      rcases h.pull_tag hpull with ⟨rfl, hbit⟩ | ⟨rfl, hbit⟩
      · exact .inl ⟨hbit, by rw [hunit]; rfl⟩
      · have hstate : t.unit.state = if 8 < d.W then .backrefIndexMSB else .backrefIndexLSB := by
          rw [hunit, ← hW]
          rfl
        refine .inr (hW8.lt_or_eq.imp (fun hlong => ⟨hbit, hlong, ?_⟩) fun hshort => ⟨hbit, hshort.symm, ?_⟩)
        · rw [hstate, if_pos hlong]
        · rw [hstate, if_neg (by omega)]
    | yieldLiteral => exact Dec.microStep_literal ht hcontinues hst
    | backrefIndexMSB =>
      exact Dec.microStep_goes ht hcontinues (by rw [Dec.pullWidth, hst]) (by simp [hst]) fun v e _ => by rw [hst]; rfl
    | backrefIndexLSB =>
      refine Dec.microStep_goes ht hcontinues (by rw [Dec.pullWidth, hst]) (by simp [hst]) fun v e hL => ?_
      rw [hst, ← hL]
      rfl
    | backrefCountMSB =>
      exact Dec.microStep_goes ht hcontinues (by rw [Dec.pullWidth, hst]) (by simp [hst]) fun v e _ => by rw [hst]; rfl
    | backrefCountLSB =>
      exact Dec.microStep_goes ht hcontinues (by rw [Dec.pullWidth, hst]) (by simp [hst]) fun v e _ => by rw [hst]; rfl
    | yieldBackref =>
      rw [h.microStep_copies ht hcontinues hst]
      exact ⟨rfl, by simp only [Dec.afterCopy, Nat.pos_iff_ne_zero, ne_eq, ite_not]⟩

end Sys2Proof.Machine
end

section
/-! PROOFS. How DEC.POLL ends (O41), and two POLLs in a row (O43). -/

namespace Sys2Proof.Machine

section
variable {room : Nat} {d d' : Dec} {out : List Byte} {st : Status}

/-- How a POLL ends: with every slot used and a byte to emit, or with fewer bits left than the state pulls (R131,
R142). -/
def Dec.PollEnds (room : Nat) (out : List Byte) (st : Status) (d : Dec) : Prop :=
  (st = .more ∧ out.length = room ∧ (d.state = .yieldLiteral ∨ d.state = .yieldBackref)) ∨
  (st = .empty ∧ out.length ≤ room ∧ ∃ w, d.pullWidth = some w ∧ d.unreadBits.length < w)

/-- A micro-step with which a POLL ends does not continue (R131). -/
theorem Micro.ne_continues_of_pollStatus {r : Micro} (h : r.pollStatus = some st) : r ≠ .continues := by
  rintro rfl
  cases h

/-- A micro-step that ends the POLL leaves DEC as it is, and what DEC then waits for is what the status says (R131,
R133). -/
theorem Dec.microStep_pollEnds {t : Turn Dec} (ht : d.microStep asPulled room = .ok t)
    (hst : t.outcome.pollStatus = some st) : t.unit = d ∧ t.out = [] ∧ Dec.PollEnds room [] st d := by
  have hend := Micro.ne_continues_of_pollStatus hst
  obtain ⟨r, rfl⟩ := Dec.microStep_ends ht hend
  refine ⟨rfl, rfl, ?_⟩
  rcases Dec.microStep_cannotGoOn ht hend with ⟨rfl, rfl, hstate⟩ | ⟨rfl, hfew⟩ <;> cases hst
  · exact .inl ⟨rfl, rfl, hstate⟩
  · exact .inr ⟨rfl, Nat.zero_le _, hfew⟩

/-- The bytes that DEC emitted before the end of a POLL use their slots (R131). -/
theorem Dec.PollEnds.append {before : List Byte} (h : Dec.PollEnds (room - before.length) out st d)
    (hfits : before.length ≤ room) : Dec.PollEnds room (before ++ out) st d := by
  unfold Dec.PollEnds at h ⊢
  rw [List.length_append]
  exact h.imp (fun ⟨hmore, hlen, hstate⟩ => ⟨hmore, by omega, hstate⟩)
    fun ⟨hempty, hlen, hfew⟩ => ⟨hempty, by omega, hfew⟩

/-- A POLL ends full or for want of bits, by induction from its last micro-step (R131, R142). -/
theorem Dec.PollRun.ends (h : d.PollRun room out st d') : Dec.PollEnds room out st d' := by
  obtain ⟨left, hrun⟩ := h
  refine pollLoop_induction (R := fun room _ out st d' => Dec.PollEnds room out st d')
    (fun room u t st ht hst => ?_) (fun room u t rest st u' ht hrest => ?_) hrun
  · obtain ⟨hunit, hout, hends⟩ := Dec.microStep_pollEnds ht hst
    rwa [hunit, hout]
  · exact hrest.append (Dec.microStep_runs ht).2

/-- A POLL that responds MORE, and then a second POLL, are one POLL with the slots of both, by induction on the first:
the micro-step that stalls changes nothing, so the second POLL goes on from it (R147). -/
theorem Dec.PollRun.append {more : Nat} {d'' : Dec} {out' : List Byte} (h : d.PollRun room out .more d')
    (h' : d'.PollRun more out' st d'') : d.PollRun (room + more) (out ++ out') st d'' := by
  obtain ⟨left, hrun⟩ := h
  induction left generalizing room d out with
  | zero => cases hrun
  | succ left ih =>
    obtain ⟨left', t, hleft, ht, ⟨hst, rfl, rfl⟩ | ⟨hst, rest, hrest, rfl⟩⟩ := pollLoop_ok hrun
    · obtain ⟨hunit, hout, ⟨-, hfull, -⟩ | ⟨hempty, -⟩⟩ := Dec.microStep_pollEnds ht hst
      · rw [hunit] at h'
        rw [hout, ← hfull, List.length_nil, Nat.zero_add]
        exact h'
      · cases hempty
    · obtain rfl : left = left' := Nat.succ.inj hleft
      have hcontinues := Micro.pollStatus_none hst
      have hfits := (Dec.microStep_runs ht).2
      rw [List.append_assoc]
      exact .step (Dec.microStep_room ht hcontinues (by omega)) hcontinues (Nat.sub_add_comm hfits ▸ ih hrest)

/-- A POLL leaves DEC as usable as it was (R154, R156). -/
theorem Dec.PollRun.usable_eq (h : d.PollRun room out st d') : d'.usable = d.usable := by
  obtain ⟨left, hrun⟩ := h
  exact (pollLoop_relates (R := Dec.Runs) Dec.Runs.trans (fun _ _ _ ht => (Dec.microStep_runs ht).1) hrun).usable_eq

/-- What DEC.POLL of a usable decoder answers (R131). -/
theorem execDecPoll_run {capacity : Nat} {s t : State} {r : Response} (husable : s.dec.usable = true)
    (h : execDecPoll capacity s = .next t) (hresponse : t.response = some r) :
    ∃ d, s.dec.PollRun capacity r.out r.status d ∧ t = (s.setDec d).setResponse r := by
  rcases execDecPoll_next h with ⟨hnot, -⟩ | ⟨-, d, out, st, hpoll, rfl⟩
  · cases hnot.symm.trans husable
  · cases hresponse
    exact ⟨d, ⟨_, hpoll⟩, rfl⟩

/-- DEC.POLL answers what its run says (R131). -/
theorem Dec.PollRun.exec {s : State} (hrun : s.dec.PollRun room out st d') (h : s.dec.Sound)
    (husable : s.dec.usable = true) :
    execDecPoll room s = .next ((s.setDec d').setResponse ⟨st, out.length, out⟩) := by
  rw [execDecPoll, husable, hrun.poll h]
  rfl

end

/-- Settles O41: slots and unread bits go down with every micro-step that continues (`Dec.poll_answers`), and the last one
says why DEC cannot go on. -/
theorem decPollCompletes : Obligations.DecPollCompletes := by
  unfold Obligations.DecPollCompletes
  intro capacity s h husable
  obtain ⟨d, out, st, hpoll, -⟩ := Dec.poll_answers h capacity
  have hrun : s.dec.PollRun capacity out st d := ⟨_, hpoll⟩
  exact ⟨d, out, st, hpoll, hrun.exec h husable, hrun.ends⟩

/-- Settles O43: the second POLL begins with the micro-step in which the first one stalled. -/
theorem decPollInPartsIsOnePoll : Obligations.DecPollInPartsIsOnePoll := by
  unfold Obligations.DecPollInPartsIsOnePoll
  intro a b s t u st n out out' hsound husable ha hmore hb hresponse
  obtain ⟨d, hrun, rfl⟩ := execDecPoll_run husable ha hmore
  obtain ⟨d', hrun', rfl⟩ :=
    execDecPoll_run (s := (s.setDec d).setResponse _) (hrun.usable_eq.trans husable) hb hresponse
  exact (hrun.append hrun').exec hsound husable

end Sys2Proof.Machine
end

section
/-! PROOFS. DEC.NEW (O10), DEC.SINK (O13) and DEC.FINISH (O17). -/

namespace Sys2Proof.Machine

/-- IBS is `cfg[31:16]` (R79). -/
theorem cfgIbs_eq (cfg : CfgWord) : cfgIbs cfg = cfg.toNat / 65536 := by
  have hlt : cfg.toNat / 65536 < 65536 := by have := cfg.isLt; omega
  exact (CfgWord.toNat_extractLsb' cfg 16 16).trans (Nat.mod_eq_of_lt hlt)

/-- DEC accepts legal parameters with the reserved bits 0 and an input buffer (R79, R129). -/
theorem decCfgValid_iff (cfg : CfgWord) : decCfgValid cfg = true ↔
    8 ≤ cfg.toNat % 16 ∧ 4 ≤ cfg.toNat / 16 % 16 ∧ cfg.toNat / 16 % 16 < cfg.toNat % 16 ∧
      cfg.toNat / 256 % 256 = 0 ∧ cfg.toNat / 65536 ≠ 0 := by
  have hreserved : cfg.extractLsb' 8 8 = 0 ↔ cfg.toNat / 256 % 256 = 0 := by
    rw [← BitVec.toNat_inj, CfgWord.toNat_extractLsb']
    rfl
  rw [decCfgValid, Bool.and_eq_true, Bool.and_eq_true, legalParameters_iff, decide_eq_true_iff, decide_eq_true_iff,
    hreserved, cfgW_eq, cfgL_eq, cfgIbs_eq]
  omega

/-- Settles O10: by what makes a configuration word valid. -/
theorem decNewConstructsOrRefuses : Obligations.DecNewConstructsOrRefuses := by
  unfold Obligations.DecNewConstructsOrRefuses
  intro cfg s
  rw [← decCfgValid_iff]
  refine ⟨fun hvalid => ?_, fun hinvalid => ⟨s.dec.afterRefusedNew, rfl, ?_⟩⟩
  · rw [← cfgW_eq, ← cfgL_eq, ← cfgIbs_eq]
    exact if_pos hvalid
  · exact if_neg hinvalid

/-- What DEC.SINK answers where there is room (R130). -/
theorem execDecSink_of_room {src : List Byte} {s : State} (husable : s.dec.usable = true)
    (hdone : s.dec.doneReported = false) (hroom : s.dec.inputSize < s.dec.ibs) :
    execDecSink src s = .next ((s.setDec (s.dec.sunk src)).setResponse
      ⟨.ok, (sinkTaken (s.dec.ibs - s.dec.inputSize) src).length, []⟩) := by
  rw [execDecSink, husable, hdone]
  exact if_neg (Nat.sub_ne_zero_of_lt hroom)

/-- What every index of `INB` reads as after a SINK (R130). -/
theorem Dec.read_sunk {d : Dec} (h : Memory.wf 0 d.inb) (src : List Byte) (a : Nat) :
    (d.sunk src).inb.read a =
      if d.inputSize ≤ a ∧ a < d.inputSize + min src.length (d.ibs - d.inputSize) then
        (sinkTaken (d.ibs - d.inputSize) src).getD (a - d.inputSize) 0
      else d.inb.read a := by
  rw [← length_sinkTaken]
  exact Memory.read_writeList 0 h _ _ a

/-- Settles O13: by what the bytes written leave at every index. -/
theorem decSinkTakesWhatFits : Obligations.DecSinkTakesWhatFits := by
  unfold Obligations.DecSinkTakesWhatFits
  refine fun src s hmem => ⟨fun hunusable => ?_, fun husable hdone => ?_, fun husable hdone hfull => ?_,
    fun husable hdone hroom => ⟨(s.dec.sunk src).inb, ?_, fun k hk => ?_, fun a ha => ?_⟩⟩
  · show execDecSink src s = _
    rw [execDecSink, hunusable]
    rfl
  · show execDecSink src s = _
    rw [execDecSink, husable, hdone]
    rfl
  · show execDecSink src s = _
    rw [execDecSink, husable, hdone]
    exact if_pos (Nat.sub_eq_zero_of_le hfull)
  · refine (execDecSink_of_room husable hdone hroom).trans ?_
    rw [Dec.sunk, length_sinkTaken]
    rfl
  · rw [Dec.read_sunk hmem.inb, if_pos ⟨by omega, Nat.add_lt_add_left hk _⟩, Nat.add_sub_cancel_left]
    exact getElem?_sinkTaken hk
  · rw [Dec.read_sunk hmem.inb, if_neg]
    rintro ⟨hlow, hhigh⟩
    exact ha (a - s.dec.inputSize) (by omega) (by omega)

/-- Where AllOnes holds every unread bit is 1 (R95). -/
theorem Dec.unreadBits_of_allOnes {d : Dec} (h : d.allOnes = true) : ∀ b ∈ d.unreadBits, b = true := by
  rw [Dec.allOnes, Bool.and_eq_true, decide_eq_true_eq, List.all_eq_true] at h
  obtain ⟨hcurrent, hbytes⟩ := h
  rw [Dec.unreadBits, List.forall_mem_append]
  constructor
  · rw [← fieldBits_mod le_rfl, hcurrent, fieldBits_ones]
    exact fun b hb => List.eq_of_mem_replicate hb
  · intro b hb
    obtain ⟨byte, hbyte, hbit⟩ := List.mem_flatMap.1 hb
    rw [of_decide_eq_true (hbytes byte hbyte)] at hbit
    exact List.eq_of_mem_replicate (a := true) (n := 8) hbit

/-- Short of the end of a stream FINISH responds MORE (R132, R143). -/
theorem execDecFinish_of_not_atEnd {s : State} (h : s.dec.Sound) (husable : s.dec.usable = true)
    (hnot : ¬ s.dec.AtEnd) : execDecFinish s = .next (s.setResponse ⟨.more, 0, []⟩) := by
  obtain ⟨hsize, -⟩ := (Dec.inRange_iff _).1 h.ranges
  cases hw : s.dec.pullWidth with
  | none =>
    simp only [execDecFinish, husable, hw]
    rfl
  | some w =>
    by_cases hbits : w ≤ s.dec.avail
    · simp only [execDecFinish, husable, hw, if_pos hbits]
      rfl
    · have hones : ¬ s.dec.allOnes = true := fun hones =>
        hnot ⟨husable, h, ⟨w, hw, Nat.lt_of_not_le hbits⟩, Dec.unreadBits_of_allOnes hones⟩
      simp only [execDecFinish, husable, hw, if_neg hbits, if_neg (Nat.not_lt.2 hsize), if_neg hones]
      rfl

/-- Settles O17: the width that the statement gives each state is what it pulls, so its condition is that DEC is at the
end of a stream. -/
theorem decFinishDetectsEnd : Obligations.DecFinishDetectsEnd := by
  unfold Obligations.DecFinishDetectsEnd
  refine fun s h => ⟨fun hunusable => ?_, fun husable hend => execDecFinish_of_atEnd ?_, fun husable hnot =>
    execDecFinish_of_not_atEnd h husable fun hend => hnot ?_⟩
  · show execDecFinish s = _
    rw [execDecFinish, hunusable]
    rfl
  · obtain ⟨w, hw, hfew, hones⟩ := hend
    refine ⟨husable, h, ⟨w, ?_, s.dec.unreadBits_length ▸ hfew⟩, hones⟩
    rw [Dec.pullWidth]
    cases hst : s.dec.state <;> rw [hst] at hw <;> subst hw
    case yieldBackref => exact absurd hfew (Nat.not_lt_zero _)
    all_goals rfl
  · obtain ⟨-, -, ⟨w, hw, hfew⟩, hones⟩ := hend
    refine ⟨w, ?_, s.dec.unreadBits_length.symm ▸ hfew, hones⟩
    rw [Dec.pullWidth] at hw
    cases hst : s.dec.state <;> rw [hst] at hw <;> cases hw <;> rfl

end Sys2Proof.Machine
end

section
/-! PROOFS. A unit that is unconfigured or latched (O18), the two commands that latch it (O19), and a token that DEC cannot
take (O46). -/

namespace Sys2Proof.Machine

/-- ENC is turned away when it is unconfigured (R154) or latched (R156). -/
theorem Enc.usable_eq_false_iff (e : Enc) : e.usable = false ↔ e.cfgValid = false ∨ e.fault = true := by
  rw [Enc.usable, Bool.and_eq_false_iff, Bool.not_eq_false']

/-- DEC is turned away when it is unconfigured (R154) or latched (R156). -/
theorem Dec.usable_eq_false_iff (d : Dec) : d.usable = false ↔ d.cfgValid = false ∨ d.fault = true := by
  rw [Dec.usable, Bool.and_eq_false_iff, Bool.not_eq_false']

section
variable {i : Instr} {s t : State}

/-- An unusable ENC answers MISUSE(0) to every instruction of it but NEW, and nothing else changes (R154, R156). -/
theorem exec_of_enc_unusable (hi : i.forEnc = true) (hnew : ∀ cfg, i ≠ .encNew cfg) (h : s.enc.usable = false) :
    exec i s = .next (s.setResponse ⟨.misuse, 0, []⟩) := by
  have hturned : (!s.enc.usable) = true := by rw [h, Bool.not_false]
  cases i with
  | encNew cfg => exact absurd rfl (hnew cfg)
  | encSink src => exact if_pos hturned
  | encPoll capacity => exact if_pos hturned
  | encFinish => exact if_pos hturned
  | _ => cases hi

/-- An unusable DEC answers MISUSE(0) to a token, which it does not refuse (log 8). -/
theorem execToken_of_unusable (h : s.dec.usable = false) : execToken i s = .next (s.setResponse ⟨.misuse, 0, []⟩) := by
  rw [execToken, if_neg (fun hmiddle => by cases h.symm.trans hmiddle.1), runToken,
    if_pos (by rw [h, Bool.not_false]), respond_eq]

/-- An unusable DEC answers MISUSE(0) to every instruction of it but NEW, and nothing else changes (R154, R156). -/
theorem exec_of_dec_unusable (hi : i.forEnc = false) (hnew : ∀ cfg, i ≠ .decNew cfg) (h : s.dec.usable = false) :
    exec i s = .next (s.setResponse ⟨.misuse, 0, []⟩) := by
  have hturned : (!s.dec.usable) = true := by rw [h, Bool.not_false]
  cases i with
  | decNew cfg => exact absurd rfl (hnew cfg)
  | decSink src => exact if_pos hturned
  | decPoll capacity => exact if_pos hturned
  | decFinish => exact if_pos hturned
  | lit b => exact execToken_of_unusable h
  | bref index count => exact execToken_of_unusable h
  | _ => cases hi

/-- A run of DEC keeps the fault latch (R156). -/
theorem Dec.Runs.fault_eq {d d' : Dec} {out : List Byte} (h : Dec.Runs d out d') : d'.fault = d.fault := by
  have hcfg := h.configuration
  simp only [Dec.configuration, Prod.mk.injEq] at hcfg
  obtain ⟨-, -, -, -, hfault, -⟩ := hcfg
  exact hfault

/-- A POLL of ENC keeps the fault latch (R156). -/
theorem Enc.poll_fault {capacity : Nat} {e e' : Enc} {out : List Byte} {st : Status}
    (h : e.poll capacity = .ok (e', out, st)) : e'.fault = e.fault := by
  have hcfg := Enc.poll_configuration h
  simp only [Enc.configuration, Prod.mk.injEq] at hcfg
  obtain ⟨-, -, -, -, hfault, -⟩ := hcfg
  exact hfault

/-- A token keeps the fault latch (R155, R156). -/
theorem execToken_fault (h : execToken i s = .next t) : t.dec.fault = s.dec.fault := by
  rcases runToken_next (execToken_next h) with ⟨-, rfl⟩ | ⟨-, d, out, st, hrun, rfl⟩
  · rfl
  · exact (Dec.tokenRun_runs hrun).fault_eq

/-- Everything an instruction can do to ENC's latch: keep it, clear it by NEW, or set it by a SINK after FINISH (R155,
R156). -/
theorem exec_enc_fault (hexec : exec i s = .next t) :
    t.enc.fault = s.enc.fault ∨ ((∃ cfg, i = .encNew cfg) ∧ t.enc.fault = false) ∨
    (((∃ src, i = .encSink src) ∧ s.enc.usable = true ∧ s.enc.finishing = true) ∧ t.enc.fault = true) := by
  cases hi : i.forEnc with
  | false =>
    obtain ⟨-, -, hforDec⟩ := unitsAreIndependent i s s t hexec
    exact .inl (congrArg Enc.fault (hforDec hi).1)
  | true =>
    cases i with
    | encNew cfg =>
      rcases execEncNew_next hexec with ⟨-, rfl⟩ | ⟨-, rfl⟩
      · exact .inr (.inl ⟨⟨cfg, rfl⟩, rfl⟩)
      · exact .inl rfl
    | encSink src =>
      rcases execEncSink_next hexec with ⟨-, rfl⟩ | ⟨husable, hfin, rfl⟩ | ⟨-, -, -, rfl⟩ | ⟨-, -, -, _, -, rfl⟩
      · exact .inl rfl
      · exact .inr (.inr ⟨⟨⟨src, rfl⟩, husable, hfin⟩, rfl⟩)
      · exact .inl rfl
      · exact .inl rfl
    | encPoll capacity =>
      rcases execEncPoll_next hexec with ⟨-, rfl⟩ | ⟨-, e, out, st, hpoll, rfl⟩
      · exact .inl rfl
      · exact .inl (Enc.poll_fault hpoll)
    | encFinish => rcases execEncFinish_next hexec with ⟨-, rfl⟩ | ⟨-, rfl⟩ <;> exact .inl rfl
    | _ => cases hi

/-- Everything an instruction can do to DEC's latch: keep it, clear it by NEW, or set it by a SINK after DONE (R155,
R156). -/
theorem exec_dec_fault (hexec : exec i s = .next t) :
    t.dec.fault = s.dec.fault ∨ ((∃ cfg, i = .decNew cfg) ∧ t.dec.fault = false) ∨
    (((∃ src, i = .decSink src) ∧ s.dec.usable = true ∧ s.dec.doneReported = true) ∧ t.dec.fault = true) := by
  cases hi : i.forEnc with
  | true =>
    obtain ⟨-, hforEnc, -⟩ := unitsAreIndependent i s s t hexec
    exact .inl (congrArg Dec.fault (hforEnc hi).1)
  | false =>
    cases i with
    | decNew cfg =>
      rcases execDecNew_next hexec with ⟨-, rfl⟩ | ⟨-, rfl⟩
      · exact .inr (.inl ⟨⟨cfg, rfl⟩, rfl⟩)
      · exact .inl rfl
    | decSink src =>
      rcases execDecSink_next hexec with ⟨-, rfl⟩ | ⟨husable, hdone, rfl⟩ | ⟨-, -, -, rfl⟩ | ⟨-, -, -, _, -, rfl⟩
      · exact .inl rfl
      · exact .inr (.inr ⟨⟨⟨src, rfl⟩, husable, hdone⟩, rfl⟩)
      · exact .inl rfl
      · exact .inl rfl
    | decPoll capacity =>
      rcases execDecPoll_next hexec with ⟨-, rfl⟩ | ⟨-, d, out, st, hpoll, rfl⟩
      · exact .inl rfl
      · exact .inl (Dec.poll_runs hpoll).fault_eq
    | decFinish => rcases execDecFinish_next hexec with ⟨-, rfl⟩ | ⟨-, rfl⟩ | ⟨-, -, -, rfl⟩ <;> exact .inl rfl
    | lit b => exact .inl (execToken_fault hexec)
    | bref index count => exact .inl (execToken_fault hexec)
    | _ => cases hi

end

/-- Settles O18: each command tests its unit first, and of what can happen to a latch only NEW clears it. -/
theorem unusableUnitRespondsMisuse : Obligations.UnusableUnitRespondsMisuse := by
  unfold Obligations.UnusableUnitRespondsMisuse
  refine ⟨fun s src capacity h => ?_, fun s src capacity h => ?_, fun i s t hexec =>
    ⟨fun hnew hlatched => ?_, fun hnew hlatched => ?_⟩⟩
  · have hunusable := s.enc.usable_eq_false_iff.2 h
    exact ⟨exec_of_enc_unusable rfl nofun hunusable, exec_of_enc_unusable rfl nofun hunusable,
      exec_of_enc_unusable rfl nofun hunusable⟩
  · have hunusable := s.dec.usable_eq_false_iff.2 h
    exact ⟨exec_of_dec_unusable rfl nofun hunusable, exec_of_dec_unusable rfl nofun hunusable,
      exec_of_dec_unusable rfl nofun hunusable⟩
  · rcases exec_enc_fault hexec with hkept | ⟨⟨cfg, hcleared⟩, -⟩ | ⟨-, hset⟩
    · exact hkept.trans hlatched
    · exact absurd hcleared (hnew cfg)
    · exact hset
  · rcases exec_dec_fault hexec with hkept | ⟨⟨cfg, hcleared⟩, -⟩ | ⟨-, hset⟩
    · exact hkept.trans hlatched
    · exact absurd hcleared (hnew cfg)
    · exact hset

/-- Settles O19: a SINK after FINISH or after DONE raises MISUSE, and nothing else turns a latch from 0 to 1. -/
theorem latchingMisuse : Obligations.LatchingMisuse := by
  unfold Obligations.LatchingMisuse
  refine ⟨fun s src husable hfin => ?_, fun s src husable hdone => ?_, fun i s t hexec =>
    ⟨fun hclear hlatched => ?_, fun hclear hlatched => ?_⟩⟩
  · show execEncSink src s = _
    rw [execEncSink, husable, hfin]
    rfl
  · show execDecSink src s = _
    rw [execDecSink, husable, hdone]
    rfl
  · rcases exec_enc_fault hexec with hkept | ⟨-, hcleared⟩ | ⟨hsink, -⟩
    · cases hlatched.symm.trans (hkept.trans hclear)
    · cases hlatched.symm.trans hcleared
    · exact hsink
  · rcases exec_dec_fault hexec with hkept | ⟨-, hcleared⟩ | ⟨hsink, -⟩
    · cases hlatched.symm.trans (hkept.trans hclear)
    · cases hlatched.symm.trans hcleared
    · exact hsink

/-- Settles O46: only a usable DEC inside a token refuses the next one, and an unusable DEC turns the run away. -/
theorem tokenOutOfPlace : Obligations.TokenOutOfPlace := by
  unfold Obligations.TokenOutOfPlace
  intro i s hi
  rw [exec_token hi]
  exact ⟨execToken_of_unusable, fun husable hmiddle => if_pos ⟨husable, hmiddle⟩⟩

end Sys2Proof.Machine
end

section
/-! PROOFS. The machine after power-on (O50). -/

namespace Sys2Proof.Machine

/-- A memory that lists nothing is in its canonical form (log 2). -/
theorem Memory.wf_nil {α : Type} [DecidableEq α] (d : α) : Memory.wf d [] := ⟨.nil, nofun⟩

/-- The memories list nothing at power-on (log 2). -/
theorem State.reset_memoryCanonical : State.reset.MemoryCanonical where
  buf := Memory.wf_nil 0
  head := Memory.wf_nil none
  next := Memory.wf_nil none
  win := Memory.wf_nil 0
  inb := Memory.wf_nil 0

/-- The machine is sound at power-on: soundness asks nothing of the registers of an unconfigured unit (R171), and no
response is held (log 16). -/
theorem State.reset_sound : State.reset.Sound where
  memory := State.reset_memoryCanonical
  enc := nofun
  dec := nofun
  response := nofun

/-- Settles O50: the machine after power-on is sound because its memories list nothing and neither unit is configured. -/
theorem resetIsSound : Obligations.ResetIsSound := by
  unfold Obligations.ResetIsSound
  exact ⟨State.reset_sound, rfl, rfl, rfl, rfl⟩

end Sys2Proof.Machine
end

section
/-! PROOFS. A token step (O8). -/

namespace Sys2Proof.Machine

/-- A step with a token input pending is `acceptToken`, once the input is taken off the list (logs 4, 7). -/
theorem step_token {s : State} {rest : List Input} (h : s.inputs = .token :: rest) :
    step s = acceptToken { s with inputs := rest } := by
  rw [step, h]
  rfl

/-- Between tokens DEC fetches the token that its unread bits begin with (R66, R67). -/
theorem fetchToken_of_decode {d : Dec} {i : Instr} {bits : List Bool} (husable : d.usable = true)
    (htag : d.state = .tagBit) (hdecode : decodeToken d.W d.L d.unreadBits = .ok (i, bits)) :
    fetchToken d = some i := by
  rw [fetchToken, if_pos ⟨husable, htag⟩, hdecode]

/-- Settles O8: the fetch reads DEC alone, so it finds the decoded token after the input is taken off the list. -/
theorem stepRunsDecodedToken : Obligations.StepRunsDecodedToken := by
  unfold Obligations.StepRunsDecodedToken
  intro s rest i bits hinputs husable htag hdecode
  rw [step_token hinputs, acceptToken, fetchToken_of_decode husable htag hdecode]

end Sys2Proof.Machine
end
